-- ==== Sys2Proof/Word.lean ====
section
/-! DEFINITION. The words of the block: bytes of the FIFOs, 32-bit registers (20_memory.md R84), pin indices
(20_memory.md R80). All quantities are unsigned (00_scope.md R11). -/

namespace Sys2Proof

/-- A byte of a FIFO. -/
abbrev Byte := BitVec 8

/-- A register value or data beat: every register is 32 bits wide (20_memory.md R84). -/
abbrev Word := BitVec 32

/-- The header of a bus request: `DIR` in bit 24, `OFF` in bits 23:0 (30_encoding.md R111). -/
abbrev Header := BitVec 25

/-- The most pins a SoC can have: six mode registers of ten fields (10_state.md R22; "the 0x3C window allows up to 60",
92_eei_decisions.md D6). How many there are is the parameter `NPINS` (00_scope.md R9). -/
abbrev maxPins : Nat := 60

/-- A pin index (20_memory.md R80). The pins of a SoC are those below its `NPINS`. -/
abbrev Pin := Fin 60

/-- One bit for each pin index. -/
abbrev PinBits := BitVec 60

end Sys2Proof
end

