-- ==== Sys2Proof/Agents.lean ====
section
/-! DEFINITION. Who acts on the block and what each can do: bus requests, named registers, pin modes, driver
operations and their results, and the turns of the agents (00_scope.md R13 to R15, 30_encoding.md R110 to R132). -/

namespace Sys2Proof

/-- The widths `W` the host's access primitives are written for; only 32 is admitted (20_memory.md R84). -/
inductive AccessWidth
  | w8 | w16 | w32
deriving DecidableEq, Repr

/-- The three register windows (20_memory.md R81). -/
inductive Window
  | gpio | spi | i2c
deriving DecidableEq, Repr

/-- A bus request: the 25-bit header and the data beat (30_encoding.md R110, R111). `width` is the access width of
`MemRead`/`MemWrite` (00_scope.md R13), which the header does not carry. In format `BR` the hardware sends the beat,
so `wdata` is not looked at. -/
structure Request where
  width : AccessWidth
  header : Header
  wdata : Word
deriving DecidableEq, Repr

/-- The named registers of the three windows (00_scope.md R19). -/
inductive Reg
  | gpioMode (i : Fin 6) | gpioSet (j : Fin 2) | gpioClr (j : Fin 2) | gpioLev (j : Fin 2)
  | i2cC | i2cS | i2cDlen | i2cA | i2cFifo | i2cDiv | i2cDel | i2cClkt
  | spiCs | spiFifo | spiClk
deriving DecidableEq, Repr

/-- Why a bus request selects no operation (30_encoding.md R120, 20_memory.md R84). -/
inductive DecodeError
  | outsideMappedWindows | unmappedOffset | accessWidth
deriving DecidableEq, Repr

/-- The eight pin modes (10_state.md R25). -/
inductive PinMode
  | input | output | alt0 | alt1 | alt2 | alt3 | alt4 | alt5
deriving DecidableEq, Repr

/-- The two bus masters. -/
inductive Bus
  | i2c | spi
deriving DecidableEq, Repr

/-- The driver's error kinds (60_exceptions.md R371 to R374). -/
inductive DriverError
  | noResponse | clockTimeout | hardwareTimeout | mapFailed
deriving DecidableEq, Repr

/-- What a driver operation returns (44_i2c_host.md R291, 46_spi_host.md R362, R363). `errorAfter` is the SPI array
operations' error with the count so far. -/
inductive DriverResult
  | ok
  | word (v : Word)
  | level (high : Bool)
  | byte (b : Byte)
  | bytes (bs : List Byte)
  | count (n : Nat)
  | error (e : DriverError)
  | errorAfter (e : DriverError) (n : Nat)
deriving DecidableEq, Repr

/-- The pseudo-operations of 30_encoding.md R132, and the Lifecycle Coordinator's two sequences
(70_reset_and_hazards.md R410, R411). The five primitives take a byte address (40_regaccess.md R140 to R144). -/
inductive DriverOp
  | readW (w : AccessWidth) (addr : Nat)
  | writeW (w : AccessWidth) (addr : Nat) (value : Word)
  | getFlagsW (w : AccessWidth) (addr : Nat) (mask : Word)
  | setFlagsW (w : AccessWidth) (addr : Nat) (flags : Word)
  | clearFlagsW (w : AccessWidth) (addr : Nat) (flags : Word)
  | gpioInit | gpioTeardown
  | setPinMode (pin : Nat) (mode : PinMode)
  | setPinLow (pin : Nat) | setPinHigh (pin : Nat) | getPinLevel (pin : Nat)
  | i2cInit | i2cTeardown
  | i2cSetClockDivider (div : Nat) | i2cSetAddress (addr : Nat)
  | i2cReadRegister (reg : Byte) (len : BitVec 16)
  | i2cRead (len : BitVec 16)
  | i2cWrite (data : List Byte)
  | spiInit | spiTeardown
  | spiSetClockDivider (div : Nat) | spiSelectChip (chip : Nat) | spiSetMode (mode : Nat)
  | spiEnableReads | spiDisableReads | spiBeginTransfer | spiEndTransfer
  | spiReadByte | spiWriteByte (b : Byte)
  | spiRead (len : Nat) | spiWrite (data : List Byte)
  | spiAwaitTransferDone
  | coordinatorInit | coordinatorTeardown
deriving DecidableEq, Repr

/-- One turn: which agent takes the next step, and what an outside agent brings (00_scope.md R15). It is an argument of a
step, not state (10_state.md R69). -/
inductive Turn
  /-- Power is applied: the one reset event (70_reset_and_hazards.md R400). -/
  | powerOn
  /-- The host issues one bus request of its own. -/
  | request (r : Request)
  /-- A client calls a driver operation. -/
  | call (op : DriverOp)
  /-- The `n`-th driver operation in progress takes its next atomic step. -/
  | host (n : Nat)
  /-- The operating system answers the mapping the `n`-th operation waits for (60_exceptions.md R374). -/
  | osMap (n : Nat) (ok : Bool)
  /-- The I2C engine takes a transition, if one is enabled (43_i2c_engine.md R220). -/
  | i2cEngine
  /-- The SPI engine takes a transition, if one is enabled (45_spi.md R310). -/
  | spiEngine
  /-- The environment applies a level to a pin (10_state.md R30). -/
  | env (pin : Pin) (high : Bool)
  /-- `now()` moves forward (10_state.md R68). -/
  | clock (ticks : Nat)
  /-- The operator sets a bus's timeout tunable, in milliseconds (10_state.md R68). -/
  | tune (bus : Bus) (ms : Nat)
deriving DecidableEq, Repr, Inhabited

end Sys2Proof
end

