-- ==== Sys2Proof/Config.lean ====
section
/-! DEFINITION. The parameters of 00_scope.md R9. What `SOC_VARIANT` selects of the address map and the pins is a type
here, an argument of the operations that use it (its defaults are in Decode.lean and Machine/Soc.lean, log 5, 6, 7); a
parameter without a default is an opaque constant, so that nothing rests on its value (log 8). The free values ("draws",
00_scope.md R18) and the free schedule (00_scope.md R15) are opaque too (log 2, log 4). -/

namespace Sys2Proof

/-! ## The address map: `GPIO_OFF` to `SPI_SIZE`, register offsets, bit positions -/

/-- Offset from `PERI_BASE` and size of a window, in bytes. -/
structure WindowPlace where
  off : Nat
  size : Nat
deriving DecidableEq, Repr

/-- Offsets of the registers inside the GPIO window (10_state.md R22). -/
structure GpioOffsets where
  mode : Vector Nat 6
  set : Vector Nat 2
  clr : Vector Nat 2
  lev : Vector Nat 2
deriving DecidableEq, Repr

/-- Offsets of the registers inside the I2C window (10_state.md R37). -/
structure I2cOffsets where
  c : Nat
  s : Nat
  dlen : Nat
  a : Nat
  fifo : Nat
  div : Nat
  del : Nat
  clkt : Nat
deriving DecidableEq, Repr

/-- Offsets of the registers inside the SPI window (10_state.md R57). -/
structure SpiOffsets where
  cs : Nat
  fifo : Nat
  clk : Nat
deriving DecidableEq, Repr

/-- Where a SoC has its windows, its registers and the bits of its fields (00_scope.md R9). -/
structure Layout where
  gpioWindow : WindowPlace
  spiWindow : WindowPlace
  i2cWindow : WindowPlace
  gpio : GpioOffsets
  i2c : I2cOffsets
  spi : SpiOffsets
  /-- Bit positions, as exchanges of two positions of one register, done one after another on the positions of the
  tables of 10_state.md; every placement of a register's bits is a list of exchanges, the tables' own is `[]`. -/
  moves : List (Reg × Fin 32 × Fin 32)
deriving DecidableEq, Repr

/-! ## The pins: `MODE_CODE`, the bus pins and their alternate functions -/

/-- `MODE_CODE(m)` (10_state.md R25). -/
structure ModeCodes where
  input : BitVec 3
  output : BitVec 3
  alt0 : BitVec 3
  alt1 : BitVec 3
  alt2 : BitVec 3
  alt3 : BitVec 3
  alt4 : BitVec 3
  alt5 : BitVec 3
deriving DecidableEq, Repr

/-- `I2C_SDA_PIN` to `SPI_ALT` (00_scope.md R9). -/
structure BusPins where
  i2cSda : Pin
  i2cScl : Pin
  i2cAlt : PinMode
  spiCe1 : Pin
  spiCe0 : Pin
  spiMiso : Pin
  spiMosi : Pin
  spiSclk : Pin
  spiAlt : PinMode
deriving DecidableEq, Repr

end Sys2Proof

namespace Sys2Proof.Config

/-! ## Parameters without a default -/

/-- `PERI_BASE`, open (00_scope.md R9, 91_not_in_source.md N27). -/
opaque periBase : Nat

/-- `TICKS(ms)`, open (60_exceptions.md R390). -/
opaque ticks : Nat → Nat

/-- `I2C_INIT_DIV`, open (44_i2c_host.md R282). -/
opaque i2cInitDiv : Word
/-- `I2C_INIT_DEL`, open (44_i2c_host.md R282). -/
opaque i2cInitDel : Word
/-- `I2C_INIT_CLKT`, open (44_i2c_host.md R282). -/
opaque i2cInitClkt : Word

/-! ## Free values and the free schedule -/

/-- The k-th draw: "any value of the stated width, chosen afresh each time" (00_scope.md R18). Each use takes the bits
it needs. -/
opaque draw : Nat → BitVec 64

/-- The k-th choice of who moves next and what an outside agent brings: "any agent that has an enabled step may take the
next step" (00_scope.md R15). Neither is state (10_state.md R69), so both are quantified over. -/
opaque freeTurn : Nat → Turn

end Sys2Proof.Config
end

