-- ==== Sys2Proof/Syntax.lean ====
section
/-! DEFINITION. The operations of the block: one constructor per row of spec/opcode_table.json (30_encoding.md R116).
A read (format BR) has no operand; a write (format BW) carries the data beat `wdata` (R113). -/

namespace Sys2Proof

/-- One bus request that selects an operation (30_encoding.md R112, R116). -/
inductive Instr
  /-- `RD.GPIO.MODE0` (R156). -/
  | rdGpioMode0
  /-- `RD.GPIO.MODE1` (R156). -/
  | rdGpioMode1
  /-- `RD.GPIO.MODE2` (R156). -/
  | rdGpioMode2
  /-- `RD.GPIO.MODE3` (R156). -/
  | rdGpioMode3
  /-- `RD.GPIO.MODE4` (R156). -/
  | rdGpioMode4
  /-- `RD.GPIO.MODE5` (R156). -/
  | rdGpioMode5
  /-- `WR.GPIO.MODE0` (R152). -/
  | wrGpioMode0 (wdata : Word)
  /-- `WR.GPIO.MODE1` (R152). -/
  | wrGpioMode1 (wdata : Word)
  /-- `WR.GPIO.MODE2` (R152). -/
  | wrGpioMode2 (wdata : Word)
  /-- `WR.GPIO.MODE3` (R152). -/
  | wrGpioMode3 (wdata : Word)
  /-- `WR.GPIO.MODE4` (R152). -/
  | wrGpioMode4 (wdata : Word)
  /-- `WR.GPIO.MODE5` (R152). -/
  | wrGpioMode5 (wdata : Word)
  /-- `WR.GPIO.SET0` (R153). -/
  | wrGpioSet0 (wdata : Word)
  /-- `WR.GPIO.SET1` (R153). -/
  | wrGpioSet1 (wdata : Word)
  /-- `RD.GPIO.SET0` (R155). -/
  | rdGpioSet0
  /-- `RD.GPIO.SET1` (R155). -/
  | rdGpioSet1
  /-- `WR.GPIO.CLR0` (R154). -/
  | wrGpioClr0 (wdata : Word)
  /-- `WR.GPIO.CLR1` (R154). -/
  | wrGpioClr1 (wdata : Word)
  /-- `RD.GPIO.CLR0` (R155). -/
  | rdGpioClr0
  /-- `RD.GPIO.CLR1` (R155). -/
  | rdGpioClr1
  /-- `RD.GPIO.LEV0` (R157). -/
  | rdGpioLev0
  /-- `RD.GPIO.LEV1` (R157). -/
  | rdGpioLev1
  /-- `WR.GPIO.LEV0` (R158). -/
  | wrGpioLev0 (wdata : Word)
  /-- `WR.GPIO.LEV1` (R158). -/
  | wrGpioLev1 (wdata : Word)
  /-- `RD.I2C.C` (R181). -/
  | rdI2cC
  /-- `WR.I2C.C` (R182). -/
  | wrI2cC (wdata : Word)
  /-- `RD.I2C.S` (R186). -/
  | rdI2cS
  /-- `WR.I2C.S` (R187). -/
  | wrI2cS (wdata : Word)
  /-- `RD.I2C.DLEN` (R188). -/
  | rdI2cDlen
  /-- `WR.I2C.DLEN` (R189). -/
  | wrI2cDlen (wdata : Word)
  /-- `RD.I2C.A` (R190). -/
  | rdI2cA
  /-- `WR.I2C.A` (R191). -/
  | wrI2cA (wdata : Word)
  /-- `RD.I2C.FIFO` (R193). -/
  | rdI2cFifo
  /-- `WR.I2C.FIFO` (R192). -/
  | wrI2cFifo (wdata : Word)
  /-- `RD.I2C.DIV` (R194). -/
  | rdI2cDiv
  /-- `WR.I2C.DIV` (R195). -/
  | wrI2cDiv (wdata : Word)
  /-- `RD.I2C.DEL` (R196). -/
  | rdI2cDel
  /-- `WR.I2C.DEL` (R197). -/
  | wrI2cDel (wdata : Word)
  /-- `RD.I2C.CLKT` (R198). -/
  | rdI2cClkt
  /-- `WR.I2C.CLKT` (R199). -/
  | wrI2cClkt (wdata : Word)
  /-- `RD.SPI.CS` (R301). -/
  | rdSpiCs
  /-- `WR.SPI.CS` (R302). -/
  | wrSpiCs (wdata : Word)
  /-- `RD.SPI.FIFO` (R307). -/
  | rdSpiFifo
  /-- `WR.SPI.FIFO` (R306). -/
  | wrSpiFifo (wdata : Word)
  /-- `RD.SPI.CLK` (R308). -/
  | rdSpiClk
  /-- `WR.SPI.CLK` (R309). -/
  | wrSpiClk (wdata : Word)
deriving DecidableEq, Repr

end Sys2Proof
end

