-- ==== Sys2Proof/WellFormed.lean ====
section
/-! DEFINITION. Which operations and requests are well formed: the checks that need no state (30_encoding.md R120,
R121; 20_memory.md R84; 10_state.md R41, R60). The machine itself refuses an ill-formed one by name. -/

namespace Sys2Proof

/-- `I2C.C` bits 10:8, which must be written 0 (10_state.md R41). -/
def i2cInterruptMask : Word := 0x0000_0700

/-- The union of the "must be 0" fields of `SPI.CS` (45_spi.md R303). -/
def spiMustBeZeroMask : Word := 0x03E0_EF40

/-- No "must be 0" bit of the data beat is set (30_encoding.md R121). -/
def Instr.wellFormed : Instr → Bool
  | .wrI2cC w => w &&& i2cInterruptMask == 0
  | .wrSpiCs w => w &&& spiMustBeZeroMask == 0
  | _ => true

/-- The operand ranges the driver operations state (44_i2c_host.md R288: 0 to 65535 bytes). -/
def DriverOp.wellFormed : DriverOp → Bool
  | .i2cWrite data => decide (data.length ≤ 65535)
  | _ => true

end Sys2Proof
end

