-- ==== Sys2Proof/Decode.lean ====
section
/-! DEFINITION. The decoder of bus requests (30_encoding.md R111, R112, R116, R120), total, rejecting by name, and the
encoder. Both take the SoC's layout (00_scope.md R9): "a model that takes other offsets as parameters recomputes `match`"
(R116). `matchOf` is the opcode map's own column, written out: under the default layout the encoder gives it
(Laws/PerInstr.lean). -/

namespace Sys2Proof

/-! ## The default layout (log 5, 6) -/

/-- The BCM283x layout: the windows of 20_memory.md R81, the offsets of 10_state.md R22, R37 and R57, and the bit
positions of the tables of 10_state.md. -/
def Layout.bcm283x : Layout where
  gpioWindow := ⟨0x00200000, 0x3C⟩
  spiWindow := ⟨0x00204000, 0x18⟩
  i2cWindow := ⟨0x00804000, 0x20⟩
  gpio := {
    mode := #v[0x00, 0x04, 0x08, 0x0C, 0x10, 0x14]
    set := #v[0x1C, 0x20]
    clr := #v[0x28, 0x2C]
    lev := #v[0x34, 0x38] }
  i2c := { c := 0x00, s := 0x04, dlen := 0x08, a := 0x0C, fifo := 0x10, div := 0x14, del := 0x18, clkt := 0x1C }
  spi := { cs := 0x00, fifo := 0x04, clk := 0x08 }
  moves := []

/-! ## Where things are -/

/-- A window's place (20_memory.md R81). -/
def Window.place (L : Layout) : Window → WindowPlace
  | .gpio => L.gpioWindow
  | .spi => L.spiWindow
  | .i2c => L.i2cWindow

/-- The window a register lies in (20_memory.md R81). -/
def Reg.window : Reg → Window
  | .gpioMode _ | .gpioSet _ | .gpioClr _ | .gpioLev _ => .gpio
  | .i2cC | .i2cS | .i2cDlen | .i2cA | .i2cFifo | .i2cDiv | .i2cDel | .i2cClkt => .i2c
  | .spiCs | .spiFifo | .spiClk => .spi

/-- A register's offset inside its window (10_state.md R22, R37, R57). -/
def Reg.offset (L : Layout) : Reg → Nat
  | .gpioMode i => L.gpio.mode[i]
  | .gpioSet j => L.gpio.set[j]
  | .gpioClr j => L.gpio.clr[j]
  | .gpioLev j => L.gpio.lev[j]
  | .i2cC => L.i2c.c
  | .i2cS => L.i2c.s
  | .i2cDlen => L.i2c.dlen
  | .i2cA => L.i2c.a
  | .i2cFifo => L.i2c.fifo
  | .i2cDiv => L.i2c.div
  | .i2cDel => L.i2c.del
  | .i2cClkt => L.i2c.clkt
  | .spiCs => L.spi.cs
  | .spiFifo => L.spi.fifo
  | .spiClk => L.spi.clk

/-- The registers of a window. -/
def regsOf : Window → List Reg
  | .gpio => [.gpioMode 0, .gpioMode 1, .gpioMode 2, .gpioMode 3, .gpioMode 4, .gpioMode 5, .gpioSet 0, .gpioSet 1,
      .gpioClr 0, .gpioClr 1, .gpioLev 0, .gpioLev 1]
  | .spi => [.spiCs, .spiFifo, .spiClk]
  | .i2c => [.i2cC, .i2cS, .i2cDlen, .i2cA, .i2cFifo, .i2cDiv, .i2cDel, .i2cClkt]

/-- `OFF`: a register's offset from `PERI_BASE`. -/
def offOf (L : Layout) (r : Reg) : Nat := (r.window.place L).off + r.offset L

/-! ## Bit positions -/

/-- A word with the bits at two positions exchanged. -/
def exchangeBits (a b : Fin 32) (w : Word) : Word :=
  if w.getLsbD a.val = w.getLsbD b.val then w else w ^^^ (BitVec.twoPow 32 a.val ||| BitVec.twoPow 32 b.val)

/-- One exchange of a layout, on a word of a register. -/
def moveBits (r : Reg) (w : Word) (m : Reg × Fin 32 × Fin 32) : Word :=
  if m.1 = r then exchangeBits m.2.1 m.2.2 w else w

/-- A word of a register as the SoC has it on the bus, from the word in the positions of the tables of 10_state.md. -/
def toBus (L : Layout) (r : Reg) (w : Word) : Word := L.moves.foldl (moveBits r) w

/-- A word of a register in the positions of the tables of 10_state.md, from the word the SoC has on the bus. -/
def fromBus (L : Layout) (r : Reg) (w : Word) : Word := L.moves.foldr (fun m v => moveBits r v m) w

/-! ## Decoding -/

/-- A byte offset from `PERI_BASE` lies inside a window. -/
def Window.contains (L : Layout) (w : Window) (off : Nat) : Bool :=
  decide ((w.place L).off ≤ off) && decide (off < (w.place L).off + (w.place L).size)

/-- The window an offset lies in, if any (20_memory.md R81, R82). -/
def windowOf (L : Layout) (off : Nat) : Option Window :=
  if Window.gpio.contains L off then some .gpio
  else if Window.spi.contains L off then some .spi
  else if Window.i2c.contains L off then some .i2c
  else none

/-- The register at an offset inside a window; the unnamed words have none (10_state.md R22, R34, R37, R57). -/
def regAt (L : Layout) (w : Window) (k : Nat) : Option Reg := (regsOf w).find? fun r => r.offset L == k

/-- The register at an offset from `PERI_BASE`, or why there is none (30_encoding.md R120). -/
def decodeOffset (L : Layout) (off : Nat) : Except DecodeError Reg :=
  match windowOf L off with
  | none => .error .outsideMappedWindows
  | some w =>
    if off % 4 ≠ 0 then .error .accessWidth
    else
      match regAt L w (off - (w.place L).off) with
      | none => .error .unmappedOffset
      | some r => .ok r

/-- The read operation of a register. -/
def readInstr : Reg → Instr
  | .gpioMode 0 => .rdGpioMode0
  | .gpioMode 1 => .rdGpioMode1
  | .gpioMode 2 => .rdGpioMode2
  | .gpioMode 3 => .rdGpioMode3
  | .gpioMode 4 => .rdGpioMode4
  | .gpioMode 5 => .rdGpioMode5
  | .gpioSet 0 => .rdGpioSet0
  | .gpioSet 1 => .rdGpioSet1
  | .gpioClr 0 => .rdGpioClr0
  | .gpioClr 1 => .rdGpioClr1
  | .gpioLev 0 => .rdGpioLev0
  | .gpioLev 1 => .rdGpioLev1
  | .i2cC => .rdI2cC
  | .i2cS => .rdI2cS
  | .i2cDlen => .rdI2cDlen
  | .i2cA => .rdI2cA
  | .i2cFifo => .rdI2cFifo
  | .i2cDiv => .rdI2cDiv
  | .i2cDel => .rdI2cDel
  | .i2cClkt => .rdI2cClkt
  | .spiCs => .rdSpiCs
  | .spiFifo => .rdSpiFifo
  | .spiClk => .rdSpiClk

/-- The write operation of a register. -/
def writeInstr : Reg → Word → Instr
  | .gpioMode 0, w => .wrGpioMode0 w
  | .gpioMode 1, w => .wrGpioMode1 w
  | .gpioMode 2, w => .wrGpioMode2 w
  | .gpioMode 3, w => .wrGpioMode3 w
  | .gpioMode 4, w => .wrGpioMode4 w
  | .gpioMode 5, w => .wrGpioMode5 w
  | .gpioSet 0, w => .wrGpioSet0 w
  | .gpioSet 1, w => .wrGpioSet1 w
  | .gpioClr 0, w => .wrGpioClr0 w
  | .gpioClr 1, w => .wrGpioClr1 w
  | .gpioLev 0, w => .wrGpioLev0 w
  | .gpioLev 1, w => .wrGpioLev1 w
  | .i2cC, w => .wrI2cC w
  | .i2cS, w => .wrI2cS w
  | .i2cDlen, w => .wrI2cDlen w
  | .i2cA, w => .wrI2cA w
  | .i2cFifo, w => .wrI2cFifo w
  | .i2cDiv, w => .wrI2cDiv w
  | .i2cDel, w => .wrI2cDel w
  | .i2cClkt, w => .wrI2cClkt w
  | .spiCs, w => .wrSpiCs w
  | .spiFifo, w => .wrSpiFifo w
  | .spiClk, w => .wrSpiClk w

/-- The operation a request selects (30_encoding.md R112): the whole header decides, never the data beat. An access
that is not 32 bits wide selects none (20_memory.md R84). The operation's data beat is in the positions of the tables of
10_state.md. -/
def decode (L : Layout) (r : Request) : Except DecodeError Instr :=
  if r.width ≠ .w32 then .error .accessWidth
  else
    match decodeOffset L (r.header.extractLsb' 0 24).toNat with
    | .error e => .error e
    | .ok g => .ok (if r.header.getLsbD 24 then writeInstr g (fromBus L g r.wdata) else readInstr g)

/-! ## What an operation touches -/

/-- The register an operation reads or writes. -/
def Instr.reg : Instr → Reg
  | .rdGpioMode0 => .gpioMode 0
  | .rdGpioMode1 => .gpioMode 1
  | .rdGpioMode2 => .gpioMode 2
  | .rdGpioMode3 => .gpioMode 3
  | .rdGpioMode4 => .gpioMode 4
  | .rdGpioMode5 => .gpioMode 5
  | .rdGpioSet0 => .gpioSet 0
  | .rdGpioSet1 => .gpioSet 1
  | .rdGpioClr0 => .gpioClr 0
  | .rdGpioClr1 => .gpioClr 1
  | .rdGpioLev0 => .gpioLev 0
  | .rdGpioLev1 => .gpioLev 1
  | .rdI2cC => .i2cC
  | .rdI2cS => .i2cS
  | .rdI2cDlen => .i2cDlen
  | .rdI2cA => .i2cA
  | .rdI2cFifo => .i2cFifo
  | .rdI2cDiv => .i2cDiv
  | .rdI2cDel => .i2cDel
  | .rdI2cClkt => .i2cClkt
  | .rdSpiCs => .spiCs
  | .rdSpiFifo => .spiFifo
  | .rdSpiClk => .spiClk
  | .wrGpioMode0 _ => .gpioMode 0
  | .wrGpioMode1 _ => .gpioMode 1
  | .wrGpioMode2 _ => .gpioMode 2
  | .wrGpioMode3 _ => .gpioMode 3
  | .wrGpioMode4 _ => .gpioMode 4
  | .wrGpioMode5 _ => .gpioMode 5
  | .wrGpioSet0 _ => .gpioSet 0
  | .wrGpioSet1 _ => .gpioSet 1
  | .wrGpioClr0 _ => .gpioClr 0
  | .wrGpioClr1 _ => .gpioClr 1
  | .wrGpioLev0 _ => .gpioLev 0
  | .wrGpioLev1 _ => .gpioLev 1
  | .wrI2cC _ => .i2cC
  | .wrI2cS _ => .i2cS
  | .wrI2cDlen _ => .i2cDlen
  | .wrI2cA _ => .i2cA
  | .wrI2cFifo _ => .i2cFifo
  | .wrI2cDiv _ => .i2cDiv
  | .wrI2cDel _ => .i2cDel
  | .wrI2cClkt _ => .i2cClkt
  | .wrSpiCs _ => .spiCs
  | .wrSpiFifo _ => .spiFifo
  | .wrSpiClk _ => .spiClk

/-- `DIR`: the operation is a write (30_encoding.md R111). -/
def Instr.isWrite : Instr → Bool
  | .rdGpioMode0 => false
  | .rdGpioMode1 => false
  | .rdGpioMode2 => false
  | .rdGpioMode3 => false
  | .rdGpioMode4 => false
  | .rdGpioMode5 => false
  | .rdGpioSet0 => false
  | .rdGpioSet1 => false
  | .rdGpioClr0 => false
  | .rdGpioClr1 => false
  | .rdGpioLev0 => false
  | .rdGpioLev1 => false
  | .rdI2cC => false
  | .rdI2cS => false
  | .rdI2cDlen => false
  | .rdI2cA => false
  | .rdI2cFifo => false
  | .rdI2cDiv => false
  | .rdI2cDel => false
  | .rdI2cClkt => false
  | .rdSpiCs => false
  | .rdSpiFifo => false
  | .rdSpiClk => false
  | .wrGpioMode0 _ => true
  | .wrGpioMode1 _ => true
  | .wrGpioMode2 _ => true
  | .wrGpioMode3 _ => true
  | .wrGpioMode4 _ => true
  | .wrGpioMode5 _ => true
  | .wrGpioSet0 _ => true
  | .wrGpioSet1 _ => true
  | .wrGpioClr0 _ => true
  | .wrGpioClr1 _ => true
  | .wrGpioLev0 _ => true
  | .wrGpioLev1 _ => true
  | .wrI2cC _ => true
  | .wrI2cS _ => true
  | .wrI2cDlen _ => true
  | .wrI2cA _ => true
  | .wrI2cFifo _ => true
  | .wrI2cDiv _ => true
  | .wrI2cDel _ => true
  | .wrI2cClkt _ => true
  | .wrSpiCs _ => true
  | .wrSpiFifo _ => true
  | .wrSpiClk _ => true

/-! ## Encoding -/

/-- The `match` column of the opcode map (30_encoding.md R116). -/
def matchOf : Instr → Header
  | .rdGpioMode0 => 0x0200000
  | .rdGpioMode1 => 0x0200004
  | .rdGpioMode2 => 0x0200008
  | .rdGpioMode3 => 0x020000C
  | .rdGpioMode4 => 0x0200010
  | .rdGpioMode5 => 0x0200014
  | .rdGpioSet0 => 0x020001C
  | .rdGpioSet1 => 0x0200020
  | .rdGpioClr0 => 0x0200028
  | .rdGpioClr1 => 0x020002C
  | .rdGpioLev0 => 0x0200034
  | .rdGpioLev1 => 0x0200038
  | .rdI2cC => 0x0804000
  | .rdI2cS => 0x0804004
  | .rdI2cDlen => 0x0804008
  | .rdI2cA => 0x080400C
  | .rdI2cFifo => 0x0804010
  | .rdI2cDiv => 0x0804014
  | .rdI2cDel => 0x0804018
  | .rdI2cClkt => 0x080401C
  | .rdSpiCs => 0x0204000
  | .rdSpiFifo => 0x0204004
  | .rdSpiClk => 0x0204008
  | .wrGpioMode0 _ => 0x1200000
  | .wrGpioMode1 _ => 0x1200004
  | .wrGpioMode2 _ => 0x1200008
  | .wrGpioMode3 _ => 0x120000C
  | .wrGpioMode4 _ => 0x1200010
  | .wrGpioMode5 _ => 0x1200014
  | .wrGpioSet0 _ => 0x120001C
  | .wrGpioSet1 _ => 0x1200020
  | .wrGpioClr0 _ => 0x1200028
  | .wrGpioClr1 _ => 0x120002C
  | .wrGpioLev0 _ => 0x1200034
  | .wrGpioLev1 _ => 0x1200038
  | .wrI2cC _ => 0x1804000
  | .wrI2cS _ => 0x1804004
  | .wrI2cDlen _ => 0x1804008
  | .wrI2cA _ => 0x180400C
  | .wrI2cFifo _ => 0x1804010
  | .wrI2cDiv _ => 0x1804014
  | .wrI2cDel _ => 0x1804018
  | .wrI2cClkt _ => 0x180401C
  | .wrSpiCs _ => 0x1204000
  | .wrSpiFifo _ => 0x1204004
  | .wrSpiClk _ => 0x1204008

/-- The data beat the host sends: `wdata` of a write; a read sends none, and 0 stands in its place
(30_encoding.md R113). -/
def dataBeatOf : Instr → Word
  | .rdGpioMode0 => 0
  | .rdGpioMode1 => 0
  | .rdGpioMode2 => 0
  | .rdGpioMode3 => 0
  | .rdGpioMode4 => 0
  | .rdGpioMode5 => 0
  | .rdGpioSet0 => 0
  | .rdGpioSet1 => 0
  | .rdGpioClr0 => 0
  | .rdGpioClr1 => 0
  | .rdGpioLev0 => 0
  | .rdGpioLev1 => 0
  | .rdI2cC => 0
  | .rdI2cS => 0
  | .rdI2cDlen => 0
  | .rdI2cA => 0
  | .rdI2cFifo => 0
  | .rdI2cDiv => 0
  | .rdI2cDel => 0
  | .rdI2cClkt => 0
  | .rdSpiCs => 0
  | .rdSpiFifo => 0
  | .rdSpiClk => 0
  | .wrGpioMode0 w => w
  | .wrGpioMode1 w => w
  | .wrGpioMode2 w => w
  | .wrGpioMode3 w => w
  | .wrGpioMode4 w => w
  | .wrGpioMode5 w => w
  | .wrGpioSet0 w => w
  | .wrGpioSet1 w => w
  | .wrGpioClr0 w => w
  | .wrGpioClr1 w => w
  | .wrGpioLev0 w => w
  | .wrGpioLev1 w => w
  | .wrI2cC w => w
  | .wrI2cS w => w
  | .wrI2cDlen w => w
  | .wrI2cA w => w
  | .wrI2cFifo w => w
  | .wrI2cDiv w => w
  | .wrI2cDel w => w
  | .wrI2cClkt w => w
  | .wrSpiCs w => w
  | .wrSpiFifo w => w
  | .wrSpiClk w => w

/-- The header of an operation: `(DIR << 24) | OFF` (30_encoding.md R111, R112). -/
def headerOf (L : Layout) (i : Instr) : Header :=
  BitVec.ofBool i.isWrite ++ BitVec.ofNat 24 (offOf L i.reg)

/-- The bus request of an operation. -/
def encode (L : Layout) (i : Instr) : Request :=
  ⟨.w32, headerOf L i, toBus L i.reg (dataBeatOf i)⟩

/-! ## Requests as numbers

spec/opcode_table.json numbers the requests of the default layout. A request written as a number has the header in bits
24:0 and the data beat in bits 63:32, as two 32-bit words, the header's first; bits 31:25 of the header word belong to no
field and must be 0 (log 1). -/

/-- The request whose words are the low `nbits` bits of `w`, if they are those of a request. -/
def requestOfTableWord (nbits w : Nat) : Option Request :=
  let v := w % 2 ^ nbits
  let headerWord := v % 2 ^ 32
  if headerWord < 2 ^ 25 then some ⟨.w32, BitVec.ofNat 25 headerWord, BitVec.ofNat 32 (v / 2 ^ 32)⟩ else none

/-- The number that stands for an operation in the opcode table: the header word, then the data beat. -/
def tableWordOf (i : Instr) : Nat :=
  (matchOf i).toNat + (dataBeatOf i).toNat * 2 ^ 32

/-- The operation the decoder reads from the request written as a number. -/
def decodeTableWord (nbits w : Nat) : Option Instr :=
  match requestOfTableWord nbits w with
  | none => none
  | some r => (decode .bcm283x r).toOption

/-- The request a SoC with the layout `L` takes for one numbered as the opcode table numbers it; a number that selects no
operation stands for its own bits. -/
def relaid (L : Layout) (r : Request) : Request :=
  match decode .bcm283x r with
  | .ok i => encode L i
  | .error _ => r

end Sys2Proof
end

