-- ==== Sys2Proof/Machine/Blocks.lean ====
section
/-! DEFINITION. The state of the three blocks (10_state.md sections 2 to 4). -/

namespace Sys2Proof.Machine

/-! ## The GPIO block -/

/-- GPIO registers, latches and the levels the environment applies (10_state.md R22, R29, R30). `SET`, `CLR` and `LEV`
hold no state (R26 to R28). A set bit is level 1. -/
structure Gpio where
  /-- `MODE[0..5]` (R23). -/
  mode : Vector Word 6
  /-- `OUT[p]`, the output latches (R29). -/
  out : PinBits
  /-- `ENV_IN[p]` (R30); `e_sda`, `e_scl`, `e_miso`, `e_mosi` are bits of it (41_gpio.md R161, R162). -/
  envIn : PinBits
deriving DecidableEq, Repr

/-! ## The I2C block -/

/-- Where the I2C engine is in the wire protocol (10_state.md R53). -/
inductive I2cFsm
  | idle | startHold | cellDrive | cellRise | cellSample | cellFall | byteNext | stopDrive | stopRise | stopWait
deriving DecidableEq, Repr

/-- Which kind of byte is on the wire (10_state.md R53). -/
inductive Phase
  | addr | tx | rx
deriving DecidableEq, Repr

/-- I2C registers, queues and engine (10_state.md R38 to R54). A line level is `true` for 1 (released or high). -/
structure I2c where
  /-- `C.I2CEN` (R39). -/
  i2cen : Bool
  /-- `C.READ` (R40). -/
  read : Bool
  /-- `S.DONE` (R44). -/
  done : Bool
  /-- `S.ERR` (R44). -/
  err : Bool
  /-- `S.CLKT` (R44). -/
  clkt : Bool
  /-- `DLEN.DLEN` (R46). -/
  dlen : BitVec 16
  /-- `A.ADDR` (R47). -/
  addr : BitVec 7
  /-- `DIV.CDIV` (R49). -/
  cdiv : BitVec 16
  /-- `DEL.FEDL` (R50). -/
  fedl : BitVec 16
  /-- `DEL.REDL` (R50). -/
  redl : BitVec 16
  /-- `CLKT.TOUT` (R51). -/
  tout : BitVec 16
  /-- Transmit queue, head first (R52). -/
  txq : List Byte
  /-- Receive queue, head first (R52). -/
  rxq : List Byte
  fsm : I2cFsm
  ph : Phase
  /-- Index of the current cell, 8 is the acknowledge (R53). -/
  cell : Fin 9
  /-- Byte being sent or assembled (R53). -/
  sh : Byte
  /-- Bytes still to move (R53). -/
  rem : BitVec 16
  /-- Direction latched at start (R53). -/
  rd : Bool
  /-- Acknowledge level sampled: `true` is not acknowledged (R53). -/
  nack : Bool
  /-- Clock periods the released clock stayed low (R53, 60_exceptions.md R389: 16 bits). -/
  stretch : BitVec 16
  /-- A start has been requested and not accepted (R53). -/
  stPend : Bool
  /-- Engine's open-drain drive of SDA (R54). -/
  mSda : Bool
  /-- Engine's open-drain drive of SCL (R54). -/
  mScl : Bool
deriving DecidableEq, Repr

/-! ## The SPI block -/

/-- Where the SPI shifter is (10_state.md R65). -/
inductive SpiFsm
  | idle | setup | lead | trail | store
deriving DecidableEq, Repr

/-- SPI registers, queues, engine and stored output lines (10_state.md R58 to R66). -/
structure Spi where
  /-- `CS.CS` (R59). -/
  cs : BitVec 2
  /-- `CS.CPHA` (R59). -/
  cpha : Bool
  /-- `CS.CPOL` (R59). -/
  cpol : Bool
  /-- `CS.TA` (R59). -/
  ta : Bool
  /-- `CS.REN` (R59). -/
  ren : Bool
  /-- `CLK.CDIV` (R63). -/
  cdiv : BitVec 16
  /-- Transmit queue, head first (R64). -/
  txq : List Byte
  /-- Receive queue, head first (R64). -/
  rxq : List Byte
  sfsm : SpiFsm
  /-- Byte being shifted out (R65). -/
  ssh : Byte
  /-- Byte being assembled (R65). -/
  srx : Byte
  /-- Index of the current bit (R65). -/
  sbit : Fin 8
  /-- Clock line (R66). -/
  sclk : Bool
  /-- Last value driven on the output data line (R66). -/
  mosi : Bool
deriving DecidableEq, Repr

end Sys2Proof.Machine
end

