-- ==== Sys2Proof/Machine/Soc.lean ====
section
/-! DEFINITION. The parameters that have a default (00_scope.md R9), as one argument: what `SOC_VARIANT` selects. Their
defaults are the values of 00_scope.md R9 and 10_state.md R25 and R70 (log 5, 6, 7, 9). -/

namespace Sys2Proof.Machine

/-- What `SOC_VARIANT` selects. It is not state (10_state.md R69): an argument of the operations that use it, and every
statement holds for every one. -/
structure Soc where
  /-- `GPIO_OFF` to `SPI_SIZE`, the register offsets, the bit positions. -/
  layout : Layout
  /-- `NPINS`. -/
  npins : Nat
  /-- `MODE_CODE`. -/
  modeCodes : ModeCodes
  /-- `I2C_SDA_PIN` to `SPI_ALT`. -/
  pins : BusPins
  /-- `I2C_FIFO_DEPTH`. -/
  i2cFifoDepth : Nat
  /-- `SPI_FIFO_DEPTH`. -/
  spiFifoDepth : Nat
  /-- `I2C_DONE_AUTOCLEAR`. -/
  i2cDoneAutoclear : Bool
  /-- `RESET(...)` of the GPIO registers and latches; `ENV_IN` has no reset value and its part is looked at only by
  `State.reset`. -/
  resetGpio : Gpio
  /-- `RESET(...)` of the I2C registers, queues and engine. -/
  resetI2c : I2c
  /-- `RESET(...)` of the SPI registers, queues and engine. -/
  resetSpi : Spi
deriving DecidableEq, Repr

/-! ## Defaults -/

/-- The default of `MODE_CODE` (10_state.md R25). -/
def defaultModeCodes : ModeCodes where
  input := 0
  output := 1
  alt0 := 4
  alt1 := 5
  alt2 := 6
  alt3 := 7
  alt4 := 3
  alt5 := 2

/-- The defaults of the bus pins and their alternate functions (00_scope.md R9). -/
def defaultBusPins : BusPins where
  i2cSda := 2
  i2cScl := 3
  i2cAlt := .alt0
  spiCe1 := 7
  spiCe0 := 8
  spiMiso := 9
  spiMosi := 10
  spiSclk := 11
  spiAlt := .alt0

/-- `RESET` of GPIO, its default (10_state.md R70). `ENV_IN` is free; the model starts it with the pulled-up I2C pins 2 and 3 high
and the others low (DESIGN CHOICE, log 10). -/
def Gpio.reset : Gpio where
  mode := Vector.replicate 6 0
  out := 0
  envIn := 0xC

/-- `RESET` of I2C, its default (10_state.md R70). -/
def I2c.reset : I2c where
  i2cen := false
  read := false
  done := false
  err := false
  clkt := false
  dlen := 0
  addr := 0
  cdiv := 0x05DC
  fedl := 0x0030
  redl := 0x0030
  tout := 0x0040
  txq := []
  rxq := []
  fsm := .idle
  ph := .addr
  cell := 0
  sh := 0
  rem := 0
  rd := false
  nack := false
  stretch := 0
  stPend := false
  mSda := true
  mScl := true

/-- `RESET` of SPI, its default (10_state.md R70: `CS` reads 0x00041000, so `REN` = 1). -/
def Spi.reset : Spi where
  cs := 0
  cpha := false
  cpol := false
  ta := false
  ren := true
  cdiv := 0
  txq := []
  rxq := []
  sfsm := .idle
  ssh := 0
  srx := 0
  sbit := 0
  sclk := false
  mosi := false

/-- The SoC of the defaults. -/
def Soc.bcm283x : Soc where
  layout := .bcm283x
  npins := 54
  modeCodes := defaultModeCodes
  pins := defaultBusPins
  i2cFifoDepth := 16
  spiFifoDepth := 16
  i2cDoneAutoclear := false
  resetGpio := Gpio.reset
  resetI2c := I2c.reset
  resetSpi := Spi.reset

end Sys2Proof.Machine
end

