-- ==== Sys2Proof/Machine/State.lean ====
section
/-! DEFINITION. The state of the block and of its host (10_state.md), the reasons a step can stop, the plain record
updates, and the state after reset (10_state.md R70). The blocks are in Blocks.lean, the parameters in Soc.lean. -/

namespace Sys2Proof.Machine

/-! ## Why a step can stop -/

/-- A hardware fault. There is none: "No register operation of the opcode table raises a hardware fault"
(60_exceptions.md R377), the hardware takes no trap (60_exceptions.md, opening). -/
inductive Fault
deriving DecidableEq, Repr

/-- Why a step is refused: the reasons of 93_implementation_defined.md section 3, which mark the edge of the contract
and are no events in the hardware (60_exceptions.md R370, R380). All are safe: the model stops where the spec gives no
behaviour. -/
inductive Refusal
  /-- Raised by a still unwritten arm of `exec`; no arm uses it. Safe. -/
  | notModelled (mnemonic : String)
  /-- Raised by a bus request whose `OFF` lies in no window (20_memory.md R82). Safe. -/
  | outsideMappedWindows
  /-- Raised by a bus request to a window the host has not mapped (20_memory.md R83). Safe. -/
  | windowNotMapped
  /-- Raised by a driver operation outside its initialised window (44_i2c_host.md R280, 46_spi_host.md R350,
  70_reset_and_hazards.md R410, R434, R437). Safe. -/
  | outsideInitWindow
  /-- Raised by an `init` of a component with an `init` called and no teardown since, whether or not that one succeeded
  (41_gpio.md R165, 70_reset_and_hazards.md R434). Safe. -/
  | initTwice
  /-- Raised by a bus request to an unnamed word of a window (10_state.md R34, R57). Safe. -/
  | unmappedOffset
  /-- Raised by an unaligned, 8-bit or 16-bit access (20_memory.md R84, 40_regaccess.md R147). Safe. -/
  | accessWidth
  /-- Raised by a write of `I2C.C` with any of bits 10:8 set (10_state.md R41). Safe. -/
  | interruptMode
  /-- Raised by a write of `SPI.CS` with a "must be 0" bit set (10_state.md R60). Safe. -/
  | modeOutOfScope
  /-- Raised by a write of a configuration register or bit during a transfer (20_memory.md R93). Safe. -/
  | configChangeInFlight
  /-- Raised by `I2C.C.CLEAR` during a transfer (42_i2c_registers.md R182). Safe. -/
  | clearInFlight
  /-- Raised by `I2C.C.ST` during a transfer (42_i2c_registers.md R183). Safe. -/
  | startWhileActive
  /-- Raised by a write to a full transmit queue (42_i2c_registers.md R192, 45_spi.md R306). Safe. -/
  | fifoFull
  /-- Raised by a second operation on a bus, or on a mode register, that an operation in progress is using, and by a bus
  request of a second host (20_memory.md R92, 44_i2c_host.md R280, 46_spi_host.md R350, 70_reset_and_hazards.md R420;
  log 18). Safe. -/
  | concurrentTransaction
deriving DecidableEq, Repr

/-! ## The host -/

/-- One value for each of the three windows. -/
structure PerWindow (α : Type) where
  gpio : α
  spi : α
  i2c : α
deriving DecidableEq, Repr

/-- The value of a window. -/
def PerWindow.get {α : Type} (m : PerWindow α) : Window → α
  | .gpio => m.gpio
  | .spi => m.spi
  | .i2c => m.i2c

/-- The values with one window's replaced. -/
def PerWindow.set {α : Type} (m : PerWindow α) (w : Window) (a : α) : PerWindow α :=
  match w with
  | .gpio => { m with gpio := a }
  | .spi => { m with spi := a }
  | .i2c => { m with i2c := a }

/-- One command of a driver program (30_encoding.md R130): at most one register access or one reading of the clock. -/
inductive HostCmd
  /-- `RD reg -> t`. -/
  | rd (r : Reg)
  /-- `WR reg, v`. -/
  | wr (r : Reg) (v : Word)
  /-- Second half of `SETF reg, flags`: `WR reg, t | flags`. -/
  | wrSet (r : Reg) (flags : Word)
  /-- Second half of `CLRF reg, flags`: `WR reg, t & ~flags`. -/
  | wrClr (r : Reg) (flags : Word)
  /-- The coordinator calls a component's `init`: refused where it may not (41_gpio.md R165, 70_reset_and_hazards.md
  R410). -/
  | begin (w : Window)
  /-- Map a register block: waits for the operating system. -/
  | map (w : Window)
  /-- The coordinator calls a component's teardown: the register block is unmapped if it is mapped. -/
  | unmap (w : Window)
  /-- Start of an await: reads the clock and sets the deadline. -/
  | await (b : Bus) (flag : Word)
  /-- One poll of an await: reads the status register. -/
  | poll (b : Bus) (flag : Word)
  /-- The deadline test of a poll: reads the clock. -/
  | expire (b : Bus) (flag : Word)
  /-- Loop head of an I2C read of `len` bytes: tests `S.DONE`. -/
  | i2cReadTest (len : Nat)
  /-- Reads one byte of an I2C read of `len` bytes. -/
  | i2cReadByte (len : Nat)
  /-- Loop head of an I2C write with `data` still to hand over: tests `S.DONE`. -/
  | i2cWriteTest (data : List Byte)
  /-- Hands over the head of `data`. -/
  | i2cWriteByte (data : List Byte)
  /-- Reads one byte of an SPI read of `len` bytes. -/
  | spiReadByte (len : Nat)
  /-- Hands over the head of `data` to the SPI FIFO. -/
  | spiWriteByte (data : List Byte)
deriving DecidableEq, Repr

/-- A driver operation in progress: its commands still to run, the error its abort path will return, the value last
read, the deadline of the await in progress, the bytes read and the number of bytes handed over. -/
structure Task where
  op : DriverOp
  cont : List HostCmd
  failed : Option DriverError
  t : Word
  deadline : Nat
  out : List Byte
  count : Nat
deriving DecidableEq, Repr

/-! ## The whole state -/

/-- All state of the block and its host (10_state.md R20, R68), and three fields of the model's own: `draws` and `issued`
(log 2, 3, 4), and `soc`, which is no state (10_state.md R69) but the argument R9 gives the model: the host's interface
fixes `step : State → Outcome`, so the argument rides here, no step changes it, and a statement about every state is one
about every SoC (log 33). -/
structure State where
  /-- The parameters (00_scope.md R9). -/
  soc : Soc
  gpio : Gpio
  i2c : I2c
  spi : Spi
  /-- Which windows the host has mapped (10_state.md R68, 20_memory.md R83). -/
  mapped : PerWindow Bool
  /-- Which components have had their `init` called and no teardown since (41_gpio.md R165). -/
  begun : PerWindow Bool
  /-- `I2C_TIMEOUT_MS` (R68). -/
  i2cTimeoutMs : Nat
  /-- `SPI_TIMEOUT_MS` (R68). -/
  spiTimeoutMs : Nat
  /-- `now()` (R68). -/
  now : Nat
  /-- The driver operations in progress, the first called first. -/
  tasks : List Task
  /-- What the last finished driver operation returned. -/
  result : Option DriverResult
  /-- The data beat of the last read (30_encoding.md R113). -/
  rdata : Word
  /-- How many free values have been taken. -/
  draws : Nat
  /-- A bus request the host has issued and the block has not taken yet: the next step takes it. -/
  issued : Option Request
deriving DecidableEq, Repr

/-! ## Record updates -/

namespace State

/-- Replace the GPIO block. -/
def setGpio (s : State) (g : Gpio) : State := { s with gpio := g }
/-- Replace the I2C block. -/
def setI2c (s : State) (c : I2c) : State := { s with i2c := c }
/-- Replace the SPI block. -/
def setSpi (s : State) (c : Spi) : State := { s with spi := c }
/-- Replace the mapped flags. -/
def setMapped (s : State) (m : PerWindow Bool) : State := { s with mapped := m }
/-- Replace the flags of components whose `init` has begun. -/
def setBegun (s : State) (m : PerWindow Bool) : State := { s with begun := m }
/-- Replace `I2C_TIMEOUT_MS`. -/
def setI2cTimeoutMs (s : State) (n : Nat) : State := { s with i2cTimeoutMs := n }
/-- Replace `SPI_TIMEOUT_MS`. -/
def setSpiTimeoutMs (s : State) (n : Nat) : State := { s with spiTimeoutMs := n }
/-- Replace the clock. -/
def setNow (s : State) (n : Nat) : State := { s with now := n }
/-- Replace the driver operations in progress. -/
def setTasks (s : State) (l : List Task) : State := { s with tasks := l }
/-- Replace the last result. -/
def setResult (s : State) (r : Option DriverResult) : State := { s with result := r }
/-- Replace the data beat returned. -/
def setRdata (s : State) (v : Word) : State := { s with rdata := v }
/-- One more free value has been taken. -/
def drawn (s : State) : State := { s with draws := s.draws + 1 }
/-- Replace the request issued. -/
def setIssued (s : State) (r : Option Request) : State := { s with issued := r }

end State

/-! ## Reset -/

/-- The machine right after reset (10_state.md R70, 70_reset_and_hazards.md R400, R401), with the default parameters. The
timeouts, the clock, `rdata` and the model's own fields start at values the log names (log 2, 4, 11, 12). -/
def State.reset : State where
  soc := Soc.bcm283x
  gpio := Gpio.reset
  i2c := I2c.reset
  spi := Spi.reset
  mapped := ⟨false, false, false⟩
  begun := ⟨false, false, false⟩
  i2cTimeoutMs := 0
  spiTimeoutMs := 0
  now := 0
  tasks := []
  result := none
  rdata := 0
  draws := 0
  issued := none

end Sys2Proof.Machine
end

