-- ==== Sys2Proof/Machine/Operands.lean ====
section
/-! DEFINITION. How a data beat is cut into fields and assembled from them (30_encoding.md R114), the pin arithmetic
(41_gpio.md R151) and the pin mode codes (10_state.md R25). Reserved positions of a written beat are looked at by none
of these; reserved positions of a read beat are 0. -/

namespace Sys2Proof.Machine

/-! ## Building a beat -/

/-- A bit at a position of a 32-bit word. -/
def bitAt (b : Bool) (n : Nat) : Word :=
  if b then 1#32 <<< n else 0

/-- The `n`-bit word whose bit `i` is `f i`. -/
def packBits (f : Nat → Bool) : (n : Nat) → BitVec n
  | 0 => 0#0
  | n + 1 => BitVec.cons (f n) (packBits f n)

/-! ## Fields of `I2C.C` and `I2C.S` (10_state.md R38, R42) -/

/-- `I2CEN`, bit 15. -/
def i2cenOf (w : Word) : Bool := w.getLsbD 15
/-- `INTR`, `INTT`, `INTD`, bits 10:8: one of them is set. -/
def interruptBitsSet (w : Word) : Bool := w.extractLsb' 8 3 != 0
/-- `ST`, bit 7. -/
def startOf (w : Word) : Bool := w.getLsbD 7
/-- `CLEAR`, bits 5:4: any non-zero value. -/
def clearOf (w : Word) : Bool := w.extractLsb' 4 2 != 0
/-- `READ`, bit 0. -/
def readOf (w : Word) : Bool := w.getLsbD 0
/-- `S.DONE` of a written beat, bit 1. -/
def doneOf (w : Word) : Bool := w.getLsbD 1
/-- `S.ERR` of a written beat, bit 8. -/
def errOf (w : Word) : Bool := w.getLsbD 8
/-- `S.CLKT` of a written beat, bit 9. -/
def clktOf (w : Word) : Bool := w.getLsbD 9

/-! ## Fields of the other I2C registers and of the FIFOs (10_state.md R46 to R51, R62, R63) -/

/-- Bits 15:0: `DLEN`, `CDIV`, `REDL`, `TOUT`. -/
def low16Of (w : Word) : BitVec 16 := w.extractLsb' 0 16
/-- Bits 31:16: `FEDL`. -/
def high16Of (w : Word) : BitVec 16 := w.extractLsb' 16 16
/-- Bits 6:0: `ADDR`. -/
def addrOf (w : Word) : BitVec 7 := w.extractLsb' 0 7
/-- Bits 7:0: `DATA`. -/
def byteOf (w : Word) : Byte := w.extractLsb' 0 8

/-! ## Fields of `SPI.CS` (10_state.md R58) -/

/-- A "must be 0" bit is set (45_spi.md R302 step 1, R303). -/
def outOfScopeBitsSet (w : Word) : Bool := w &&& 0x03E0_EF40 != 0
/-- `CS`, bits 1:0. -/
def csOf (w : Word) : BitVec 2 := w.extractLsb' 0 2
/-- `CPHA`, bit 2. -/
def cphaOf (w : Word) : Bool := w.getLsbD 2
/-- `CPOL`, bit 3. -/
def cpolOf (w : Word) : Bool := w.getLsbD 3
/-- `CLEAR_TX`, bit 4. -/
def clearTxOf (w : Word) : Bool := w.getLsbD 4
/-- `CLEAR_RX`, bit 5. -/
def clearRxOf (w : Word) : Bool := w.getLsbD 5
/-- `TA`, bit 7. -/
def taOf (w : Word) : Bool := w.getLsbD 7
/-- `REN`, bit 12. -/
def renOf (w : Word) : Bool := w.getLsbD 12

/-! ## Pins (41_gpio.md R151, 10_state.md R23 to R25) -/

/-- A caller's pin argument is "taken modulo the hardware's pin count" (41_gpio.md R151). -/
def pinOfArg (soc : Soc) (pin : Nat) : Pin := ⟨pin % soc.npins % maxPins, Nat.mod_lt _ (by decide)⟩

/-- `mreg(p)`. -/
def mregOf (p : Pin) : Fin 6 := ⟨p.val / 10, by omega⟩
/-- `mshift(p)`. -/
def mshiftOf (p : Pin) : Nat := 3 * (p.val % 10)
/-- `bank(p)`. -/
def bankOf (p : Pin) : Fin 2 := ⟨p.val / 32, by omega⟩
/-- `bbit(p)`. -/
def bbitOf (p : Pin) : Nat := p.val % 32

/-- The bits of `MODE[i]` that belong to a pin: the fields of the pins `10*i` to `10*i + 9` that exist, so never bits
31:30 (10_state.md R24). -/
def modeFieldsMask (soc : Soc) (i : Fin 6) : Word :=
  BitVec.ofNat 32 (2 ^ (3 * min 10 (soc.npins - 10 * i.val)) - 1)

/-- `MODE_CODE(m)` (10_state.md R25). -/
def modeCode (codes : ModeCodes) : PinMode → BitVec 3
  | .input => codes.input
  | .output => codes.output
  | .alt0 => codes.alt0
  | .alt1 => codes.alt1
  | .alt2 => codes.alt2
  | .alt3 => codes.alt3
  | .alt4 => codes.alt4
  | .alt5 => codes.alt5

/-- The mode a code stands for: the eight modes fill the field (10_state.md R25). -/
def modeOfCode (codes : ModeCodes) (c : BitVec 3) : PinMode :=
  if c = codes.input then .input
  else if c = codes.output then .output
  else if c = codes.alt0 then .alt0
  else if c = codes.alt1 then .alt1
  else if c = codes.alt2 then .alt2
  else if c = codes.alt3 then .alt3
  else if c = codes.alt4 then .alt4
  else .alt5

/-- The pins that exist, one bit for each. -/
def existingPins (soc : Soc) : PinBits := BitVec.ofNat 60 (2 ^ soc.npins - 1)

/-- The pins of bank `j` whose bit of `w` is set, one bit for each pin; bits that name no existing pin are dropped
(10_state.md R26, R27). -/
def bankBits (soc : Soc) (j : Fin 2) (w : Word) : PinBits := w.setWidth 60 <<< (32 * j.val) &&& existingPins soc

end Sys2Proof.Machine
end

