-- ==== Sys2Proof/Machine/Flags.lean ====
section
/-! DEFINITION. The status flags that are functions of other state, "evaluated at the instant of the read"
(10_state.md R43, R61), the words a status read returns, and the masks the host tests. -/

namespace Sys2Proof.Machine

/-! ## I2C.S (10_state.md R42 to R45) -/

/-- `S.TA = (fsm != IDLE)`. -/
def i2cTa (c : I2c) : Bool := c.fsm != .idle
/-- `S.TXD = (|txq| < I2C_FIFO_DEPTH)`. -/
def i2cTxd (soc : Soc) (c : I2c) : Bool := decide (c.txq.length < soc.i2cFifoDepth)
/-- `S.RXD = (|rxq| > 0)`. -/
def i2cRxd (c : I2c) : Bool := decide (0 < c.rxq.length)
/-- `S.TXE = (|txq| = 0)`. -/
def i2cTxe (c : I2c) : Bool := decide (c.txq.length = 0)
/-- `S.RXF = (|rxq| = I2C_FIFO_DEPTH)`. -/
def i2cRxf (soc : Soc) (c : I2c) : Bool := decide (c.rxq.length = soc.i2cFifoDepth)

/-- What a read of `I2C.S` returns, with `d` the draw for `TXW` and `RXR` (42_i2c_registers.md R186). -/
def i2cStatusWord (soc : Soc) (c : I2c) (d : BitVec 64) : Word :=
  bitAt (i2cTa c) 0 ||| bitAt c.done 1 ||| bitAt (d.getLsbD 2) 2 ||| bitAt (d.getLsbD 3) 3 |||
    bitAt (i2cTxd soc c) 4 ||| bitAt (i2cRxd c) 5 ||| bitAt (i2cTxe c) 6 ||| bitAt (i2cRxf soc c) 7 |||
    bitAt c.err 8 ||| bitAt c.clkt 9

/-- What a read of `I2C.C` returns (42_i2c_registers.md R181). -/
def i2cControlWord (c : I2c) : Word :=
  bitAt c.i2cen 15 ||| bitAt c.read 0

/-! ## SPI.CS (10_state.md R58, R61) -/

/-- `CS.TXD = (|txq| < SPI_FIFO_DEPTH)`. -/
def spiTxd (soc : Soc) (c : Spi) : Bool := decide (c.txq.length < soc.spiFifoDepth)
/-- `CS.RXD = (|rxq| > 0)`. -/
def spiRxd (c : Spi) : Bool := decide (0 < c.rxq.length)
/-- `CS.RXF = (|rxq| = SPI_FIFO_DEPTH)`. -/
def spiRxf (soc : Soc) (c : Spi) : Bool := decide (c.rxq.length = soc.spiFifoDepth)
/-- `CS.DONE = (TA = 1 and |txq| = 0 and sfsm = S_IDLE)` (10_state.md R61, 45_spi.md R321). -/
def spiDone (c : Spi) : Bool := c.ta && decide (c.txq.length = 0) && c.sfsm == .idle

/-- What a read of `SPI.CS` returns, with `d` the draw for `RXR` (45_spi.md R301). -/
def spiStatusWord (soc : Soc) (c : Spi) (d : BitVec 64) : Word :=
  c.cs.setWidth 32 ||| bitAt c.cpha 2 ||| bitAt c.cpol 3 ||| bitAt c.ta 7 ||| bitAt c.ren 12 |||
    bitAt (spiDone c) 16 ||| bitAt (spiRxd c) 17 ||| bitAt (spiTxd soc c) 18 ||| bitAt (d.getLsbD 19) 19 |||
    bitAt (spiRxf soc c) 20

/-! ## Masks of the host (44_i2c_host.md, 46_spi_host.md, openings) -/

/-- `I2C.C.I2CEN`. -/
def maskI2cen : Word := 0x8000
/-- `I2C.C.ST`. -/
def maskStart : Word := 0x80
/-- `I2C.C.READ`. -/
def maskRead : Word := 0x1
/-- `I2C.S.TA`. -/
def maskI2cTa : Word := 0x001
/-- `I2C.S.DONE`. -/
def maskI2cDone : Word := 0x002
/-- `I2C.S.TXD`. -/
def maskI2cTxd : Word := 0x010
/-- `I2C.S.RXD`. -/
def maskI2cRxd : Word := 0x020
/-- `I2C.S.ERR`. -/
def maskI2cErr : Word := 0x100
/-- `I2C.S.CLKT`. -/
def maskI2cClkt : Word := 0x200
/-- `SPI.CS.DONE`. -/
def maskSpiDone : Word := 0x10000
/-- `SPI.CS.RXD`. -/
def maskSpiRxd : Word := 0x20000
/-- `SPI.CS.TXD`. -/
def maskSpiTxd : Word := 0x40000

end Sys2Proof.Machine
end

