-- ==== Sys2Proof/Machine/Ops.lean ====
section
/-! DEFINITION. The named operations over registers, queues, pins and lines that the meanings and the transitions
share, and what stands in the place of taking an exception: raising `ERR`, raising `CLKT`, and the disable that
restores an idle engine (00_scope.md R14, 60_exceptions.md R381 to R383). -/

namespace Sys2Proof.Machine

/-! ## Outcomes -/

/-- Do one thing, then another on the state it leaves; a stop stops both. -/
def andThen (o : Host.Outcome State Fault Refusal) (f : State → Host.Outcome State Fault Refusal) :
    Host.Outcome State Fault Refusal :=
  match o with
  | .next s => f s
  | .fault r => .fault r
  | .refused r => .refused r

/-- The free value taken next in a state (00_scope.md R18). -/
def drawOf (s : State) : BitVec 64 := Config.draw s.draws

/-- The answer to a read: the data beat `v` (30_encoding.md R113). -/
def answer (v : Word) (s : State) : Host.Outcome State Fault Refusal :=
  .next (s.setRdata v)

/-- The answer to a read whose beat holds a draw: the draw is used up. -/
def answerDrawn (v : Word) (s : State) : Host.Outcome State Fault Refusal :=
  .next (s.drawn.setRdata v)

/-! ## GPIO registers -/

/-- Read `MODE[i]`: reserved bits read 0 (10_state.md R24, 41_gpio.md R156). -/
def readMode (i : Fin 6) (s : State) : Host.Outcome State Fault Refusal :=
  answer (s.gpio.mode[i] &&& modeFieldsMask s.soc i) s

/-- Write `MODE[i]`: bits of reserved fields are dropped; `OUT` is not changed (41_gpio.md R152). -/
def writeMode (i : Fin 6) (w : Word) (s : State) : Host.Outcome State Fault Refusal :=
  .next (s.setGpio { s.gpio with mode := s.gpio.mode.set i (w &&& modeFieldsMask s.soc i) })

/-- Write `SET[j]`: every pin of the bank whose bit is 1 gets `OUT[p] <- 1` (41_gpio.md R153). -/
def writeSet (j : Fin 2) (w : Word) (s : State) : Host.Outcome State Fault Refusal :=
  .next (s.setGpio { s.gpio with out := s.gpio.out ||| bankBits s.soc j w })

/-- Write `CLR[j]`: every pin of the bank whose bit is 1 gets `OUT[p] <- 0` (41_gpio.md R154). -/
def writeClr (j : Fin 2) (w : Word) (s : State) : Host.Outcome State Fault Refusal :=
  .next (s.setGpio { s.gpio with out := s.gpio.out &&& ~~~ bankBits s.soc j w })

/-- Read `SET[j]` or `CLR[j]`: a draw, "the register never reflects current state" (41_gpio.md R155). -/
def readTrigger (s : State) : Host.Outcome State Fault Refusal :=
  answerDrawn ((drawOf s).extractLsb' 0 32) s

/-! ## Pads and the pin-mode multiplexer -/

/-- `mode(p)`: the 3-bit field of a pin (41_gpio.md R151). -/
def pinModeCode (g : Gpio) (p : Pin) : BitVec 3 := g.mode[mregOf p].extractLsb' (mshiftOf p) 3

/-- A pin is in a mode. -/
def pinInMode (s : State) (p : Pin) (m : PinMode) : Bool := pinModeCode s.gpio p == modeCode s.soc.modeCodes m

/-- `ENV_IN[p]`. -/
def envLevel (g : Gpio) (p : Pin) : Bool := g.envIn.getLsbD p.val

/-- `OUT[p]`. -/
def outLatch (g : Gpio) (p : Pin) : Bool := g.out.getLsbD p.val

/-- `ce[n]`: low (false) exactly while `TA = 1` and `CS = n` (45_spi.md R312). -/
def chipEnable (c : Spi) (n : BitVec 2) : Bool := !(c.ta && c.cs == n)

/-- `mosi_oe`: the block drives the output data line (10_state.md R66, 45_spi.md R320). -/
def mosiOe (c : Spi) : Bool := !c.ren

/-- `ALTPAD(p, k)`: the level of a pin in an alternate function, where the function is modelled (41_gpio.md R160). -/
def altPad (s : State) (p : Pin) (m : PinMode) : Option Bool :=
  let b := s.soc.pins
  if p = b.i2cSda ∧ m = b.i2cAlt then some (s.i2c.mSda && envLevel s.gpio p)
  else if p = b.i2cScl ∧ m = b.i2cAlt then some (s.i2c.mScl && envLevel s.gpio p)
  else if p = b.spiCe1 ∧ m = b.spiAlt then some (chipEnable s.spi 1)
  else if p = b.spiCe0 ∧ m = b.spiAlt then some (chipEnable s.spi 0)
  else if p = b.spiMiso ∧ m = b.spiAlt then some (envLevel s.gpio p)
  else if p = b.spiMosi ∧ m = b.spiAlt then
    some (if mosiOe s.spi then s.spi.mosi else envLevel s.gpio p)
  else if p = b.spiSclk ∧ m = b.spiAlt then some s.spi.sclk
  else none

/-- `PAD[p]` (10_state.md R30), with `d` the draw for a pin in an alternate function that is not modelled. -/
def padLevel (s : State) (d : BitVec 64) (p : Pin) : Bool :=
  match modeOfCode s.soc.modeCodes (pinModeCode s.gpio p) with
  | .input => envLevel s.gpio p
  | .output => outLatch s.gpio p
  | .alt0 => (altPad s p .alt0).getD (d.getLsbD p.val)
  | .alt1 => (altPad s p .alt1).getD (d.getLsbD p.val)
  | .alt2 => (altPad s p .alt2).getD (d.getLsbD p.val)
  | .alt3 => (altPad s p .alt3).getD (d.getLsbD p.val)
  | .alt4 => (altPad s p .alt4).getD (d.getLsbD p.val)
  | .alt5 => (altPad s p .alt5).getD (d.getLsbD p.val)

/-- The word a read of `LEV[j]` returns: bits of pins that do not exist are 0 (41_gpio.md R157). -/
def levelWord (s : State) (d : BitVec 64) (j : Fin 2) : Word :=
  packBits (fun b =>
    if h : 32 * j.val + b < maxPins then
      decide (32 * j.val + b < s.soc.npins) && padLevel s d ⟨32 * j.val + b, h⟩
    else false) 32

/-- Read `LEV[j]`: the pads at the instant of the read (41_gpio.md R157). -/
def readLevel (j : Fin 2) (s : State) : Host.Outcome State Fault Refusal :=
  answerDrawn (levelWord s (drawOf s) j) s

/-- Write `LEV[j]`: ignored (41_gpio.md R158). -/
def writeLevel (_j : Fin 2) (_w : Word) (s : State) : Host.Outcome State Fault Refusal :=
  .next s

/-- `SDA_in`: what the I2C engine sees on the data line (41_gpio.md R161). -/
def sdaIn (s : State) : Bool :=
  if pinInMode s s.soc.pins.i2cSda s.soc.pins.i2cAlt then s.i2c.mSda && envLevel s.gpio s.soc.pins.i2cSda else true

/-- `SCL_in`: what the I2C engine sees on the clock line (41_gpio.md R161). -/
def sclIn (s : State) : Bool :=
  if pinInMode s s.soc.pins.i2cScl s.soc.pins.i2cAlt then s.i2c.mScl && envLevel s.gpio s.soc.pins.i2cScl else true

/-- `DIN`: what the SPI engine samples, with `d` the draw for an input that is not multiplexed (41_gpio.md R162). -/
def dataIn (s : State) (d : BitVec 64) : Bool :=
  if s.spi.ren = false ∧ pinInMode s s.soc.pins.spiMiso s.soc.pins.spiAlt then envLevel s.gpio s.soc.pins.spiMiso
  else if s.spi.ren = true ∧ pinInMode s s.soc.pins.spiMosi s.soc.pins.spiAlt then envLevel s.gpio s.soc.pins.spiMosi
  else d.getLsbD 0

/-- The environment applies a level to a pin (10_state.md R30). -/
def applyLevel (g : Gpio) (p : Pin) (high : Bool) : Gpio :=
  if high then { g with envIn := g.envIn ||| BitVec.twoPow 60 p.val }
  else { g with envIn := g.envIn &&& ~~~ BitVec.twoPow 60 p.val }

/-! ## Queues -/

/-- `q.push(b)` (00_scope.md R12). -/
def pushByte (q : List Byte) (b : Byte) : List Byte := q ++ [b]

/-! ## I2C: error conditions, their entry, and the restore to idle -/

/-- `raise ERR`: a byte the master sent was not acknowledged; the flag is set and the engine goes to STOP
(43_i2c_engine.md R239, 60_exceptions.md R381). -/
def raiseErr (c : I2c) : I2c := { c with err := true, fsm := .stopDrive }

/-- `raise CLKT`: the clock was held past the timeout; the flag is set, both lines are released, the engine is idle;
no STOP, no `DONE`, the queues and `rem` keep their values (43_i2c_engine.md R241, 60_exceptions.md R382). -/
def raiseClkt (c : I2c) : I2c := { c with clkt := true, mSda := true, mScl := true, fsm := .idle }

/-- Disable: a pending start is dropped; a transfer in flight is abandoned and both lines released; nothing else
changes (42_i2c_registers.md R184). -/
def disableEngine (c : I2c) : I2c :=
  if c.fsm = .idle then { c with stPend := false }
  else { c with stPend := false, fsm := .idle, mSda := true, mScl := true }

/-- Clear queues (42_i2c_registers.md R185). -/
def clearQueues (c : I2c) : I2c := { c with txq := [], rxq := [] }

/-- A write of an I2C configuration register: refused while a transfer is in flight (20_memory.md R93). -/
def configureI2c (f : I2c → I2c) (s : State) : Host.Outcome State Fault Refusal :=
  if s.i2c.fsm ≠ .idle then .refused .configChangeInFlight else .next (s.setI2c (f s.i2c))

/-- `rem` counts down to 0 and never wraps (40_regaccess.md R145, 43_i2c_engine.md R233). -/
def countDown (n : BitVec 16) : BitVec 16 := if n = 0 then 0 else n - 1

/-- `stretch` counts up and "stops rising at 65535" (40_regaccess.md R145). -/
def countStretch (n : BitVec 16) : BitVec 16 := if n = 65535 then 65535 else n + 1

/-- Bit `7 - i` of a byte: most significant bit first (43_i2c_engine.md R221, 45_spi.md R316). -/
def msbFirst (b : Byte) (i : Nat) : Bool := b.getLsbD (7 - i)

/-- `{b[6:0], x}`: shift a received bit in. -/
def shiftIn (b : Byte) (x : Bool) : Byte := (b.extractLsb' 0 7).concat x

end Sys2Proof.Machine
end

