-- ==== Sys2Proof/Machine/GpioRegs.lean ====
section
/-! DEFINITION. The GPIO register operations (41_gpio.md R152 to R158). None can fail. -/

namespace Sys2Proof.Machine

/-- `RD.GPIO.MODE0` (R156). -/
def execRdGpioMode0 (s : State) : Host.Outcome State Fault Refusal :=
  readMode 0 s

/-- `RD.GPIO.MODE1` (R156). -/
def execRdGpioMode1 (s : State) : Host.Outcome State Fault Refusal :=
  readMode 1 s

/-- `RD.GPIO.MODE2` (R156). -/
def execRdGpioMode2 (s : State) : Host.Outcome State Fault Refusal :=
  readMode 2 s

/-- `RD.GPIO.MODE3` (R156). -/
def execRdGpioMode3 (s : State) : Host.Outcome State Fault Refusal :=
  readMode 3 s

/-- `RD.GPIO.MODE4` (R156). -/
def execRdGpioMode4 (s : State) : Host.Outcome State Fault Refusal :=
  readMode 4 s

/-- `RD.GPIO.MODE5` (R156). -/
def execRdGpioMode5 (s : State) : Host.Outcome State Fault Refusal :=
  readMode 5 s

/-- `WR.GPIO.MODE0` (R152). -/
def execWrGpioMode0 (w : Word) (s : State) : Host.Outcome State Fault Refusal :=
  writeMode 0 w s

/-- `WR.GPIO.MODE1` (R152). -/
def execWrGpioMode1 (w : Word) (s : State) : Host.Outcome State Fault Refusal :=
  writeMode 1 w s

/-- `WR.GPIO.MODE2` (R152). -/
def execWrGpioMode2 (w : Word) (s : State) : Host.Outcome State Fault Refusal :=
  writeMode 2 w s

/-- `WR.GPIO.MODE3` (R152). -/
def execWrGpioMode3 (w : Word) (s : State) : Host.Outcome State Fault Refusal :=
  writeMode 3 w s

/-- `WR.GPIO.MODE4` (R152). -/
def execWrGpioMode4 (w : Word) (s : State) : Host.Outcome State Fault Refusal :=
  writeMode 4 w s

/-- `WR.GPIO.MODE5` (R152). -/
def execWrGpioMode5 (w : Word) (s : State) : Host.Outcome State Fault Refusal :=
  writeMode 5 w s

/-- `WR.GPIO.SET0` (R153). -/
def execWrGpioSet0 (w : Word) (s : State) : Host.Outcome State Fault Refusal :=
  writeSet 0 w s

/-- `WR.GPIO.SET1` (R153). -/
def execWrGpioSet1 (w : Word) (s : State) : Host.Outcome State Fault Refusal :=
  writeSet 1 w s

/-- `RD.GPIO.SET0` (R155). -/
def execRdGpioSet0 (s : State) : Host.Outcome State Fault Refusal :=
  readTrigger s

/-- `RD.GPIO.SET1` (R155). -/
def execRdGpioSet1 (s : State) : Host.Outcome State Fault Refusal :=
  readTrigger s

/-- `WR.GPIO.CLR0` (R154). -/
def execWrGpioClr0 (w : Word) (s : State) : Host.Outcome State Fault Refusal :=
  writeClr 0 w s

/-- `WR.GPIO.CLR1` (R154). -/
def execWrGpioClr1 (w : Word) (s : State) : Host.Outcome State Fault Refusal :=
  writeClr 1 w s

/-- `RD.GPIO.CLR0` (R155). -/
def execRdGpioClr0 (s : State) : Host.Outcome State Fault Refusal :=
  readTrigger s

/-- `RD.GPIO.CLR1` (R155). -/
def execRdGpioClr1 (s : State) : Host.Outcome State Fault Refusal :=
  readTrigger s

/-- `RD.GPIO.LEV0` (R157). -/
def execRdGpioLev0 (s : State) : Host.Outcome State Fault Refusal :=
  readLevel 0 s

/-- `RD.GPIO.LEV1` (R157). -/
def execRdGpioLev1 (s : State) : Host.Outcome State Fault Refusal :=
  readLevel 1 s

/-- `WR.GPIO.LEV0` (R158). -/
def execWrGpioLev0 (w : Word) (s : State) : Host.Outcome State Fault Refusal :=
  writeLevel 0 w s

/-- `WR.GPIO.LEV1` (R158). -/
def execWrGpioLev1 (w : Word) (s : State) : Host.Outcome State Fault Refusal :=
  writeLevel 1 w s

end Sys2Proof.Machine
end

