-- ==== Sys2Proof/Machine/I2cRegs.lean ====
section
/-! DEFINITION. The I2C register operations (42_i2c_registers.md R181 to R199). The only outcomes are the effect stated
or a refusal. -/

namespace Sys2Proof.Machine

/-! ## Control and status -/

/-- `RD.I2C.C` (R181). -/
def execRdI2cC (s : State) : Host.Outcome State Fault Refusal :=
  answer (i2cControlWord s.i2c) s

/-- The stored bits, the clear and the disable of a write of `I2C.C`, in the order of R182. -/
def controlWritten (w : Word) (c : I2c) : I2c :=
  let c₀ : I2c := { c with i2cen := i2cenOf w, read := readOf w }
  let c₁ := if clearOf w then clearQueues c₀ else c₀
  if i2cenOf w then c₁ else disableEngine c₁

/-- A start request, with `c` the block as the rest of the write leaves it (R183). -/
def requestStart (c : I2c) (s : State) : Host.Outcome State Fault Refusal :=
  if c.i2cen = false then .next (s.setI2c c)
  else if c.fsm ≠ .idle then .refused .startWhileActive
  else .next (s.setI2c { c with stPend := true })

/-- `WR.I2C.C` (R182). -/
def execWrI2cC (w : Word) (s : State) : Host.Outcome State Fault Refusal :=
  if interruptBitsSet w then .refused .interruptMode
  else if s.i2c.fsm ≠ .idle ∧ readOf w ≠ s.i2c.read then .refused .configChangeInFlight
  else if s.i2c.fsm ≠ .idle ∧ clearOf w = true then .refused .clearInFlight
  else if startOf w then requestStart (controlWritten w s.i2c) s
  else .next (s.setI2c (controlWritten w s.i2c))

/-- `RD.I2C.S` (R186). -/
def execRdI2cS (s : State) : Host.Outcome State Fault Refusal :=
  answerDrawn (i2cStatusWord s.soc s.i2c (drawOf s)) s

/-- `WR.I2C.S`: write one to clear (R187). -/
def execWrI2cS (w : Word) (s : State) : Host.Outcome State Fault Refusal :=
  .next (s.setI2c { s.i2c with
    done := s.i2c.done && !doneOf w
    err := s.i2c.err && !errOf w
    clkt := s.i2c.clkt && !clktOf w })

/-! ## Data length, address and FIFO -/

/-- `RD.I2C.DLEN` (R188). -/
def execRdI2cDlen (s : State) : Host.Outcome State Fault Refusal :=
  answer (s.i2c.dlen.setWidth 32) s

/-- `WR.I2C.DLEN` (R189). -/
def execWrI2cDlen (w : Word) (s : State) : Host.Outcome State Fault Refusal :=
  configureI2c (fun c => { c with dlen := low16Of w }) s

/-- `RD.I2C.A` (R190). -/
def execRdI2cA (s : State) : Host.Outcome State Fault Refusal :=
  answer (s.i2c.addr.setWidth 32) s

/-- `WR.I2C.A` (R191). -/
def execWrI2cA (w : Word) (s : State) : Host.Outcome State Fault Refusal :=
  configureI2c (fun c => { c with addr := addrOf w }) s

/-- `RD.I2C.FIFO` (R193). -/
def execRdI2cFifo (s : State) : Host.Outcome State Fault Refusal :=
  match s.i2c.rxq with
  | [] => answerDrawn (((drawOf s).extractLsb' 0 8).setWidth 32) s
  | b :: q => answer (b.setWidth 32) (s.setI2c { s.i2c with rxq := q })

/-- `WR.I2C.FIFO` (R192). -/
def execWrI2cFifo (w : Word) (s : State) : Host.Outcome State Fault Refusal :=
  if s.i2c.txq.length = s.soc.i2cFifoDepth then .refused .fifoFull
  else .next (s.setI2c { s.i2c with txq := pushByte s.i2c.txq (byteOf w) })

/-! ## Divider, delay and clock timeout -/

/-- `RD.I2C.DIV` (R194). -/
def execRdI2cDiv (s : State) : Host.Outcome State Fault Refusal :=
  answer (s.i2c.cdiv.setWidth 32) s

/-- `WR.I2C.DIV` (R195). -/
def execWrI2cDiv (w : Word) (s : State) : Host.Outcome State Fault Refusal :=
  configureI2c (fun c => { c with cdiv := low16Of w }) s

/-- `RD.I2C.DEL` (R196). -/
def execRdI2cDel (s : State) : Host.Outcome State Fault Refusal :=
  answer (s.i2c.fedl ++ s.i2c.redl) s

/-- `WR.I2C.DEL` (R197). -/
def execWrI2cDel (w : Word) (s : State) : Host.Outcome State Fault Refusal :=
  configureI2c (fun c => { c with fedl := high16Of w, redl := low16Of w }) s

/-- `RD.I2C.CLKT` (R198). -/
def execRdI2cClkt (s : State) : Host.Outcome State Fault Refusal :=
  answer (s.i2c.tout.setWidth 32) s

/-- `WR.I2C.CLKT` (R199). -/
def execWrI2cClkt (w : Word) (s : State) : Host.Outcome State Fault Refusal :=
  configureI2c (fun c => { c with tout := low16Of w }) s

end Sys2Proof.Machine
end

