-- ==== Sys2Proof/Machine/SpiRegs.lean ====
section
/-! DEFINITION. The SPI register operations (45_spi.md R301 to R309). -/

namespace Sys2Proof.Machine

/-- `RD.SPI.CS` (R301). -/
def execRdSpiCs (s : State) : Host.Outcome State Fault Refusal :=
  answerDrawn (spiStatusWord s.soc s.spi (drawOf s)) s

/-- The configuration bits of a write of `SPI.CS`; at rest the clock line follows `CPOL` (R302 steps 2 and 3, R311). -/
def configWritten (w : Word) (c : Spi) : Spi :=
  { c with
    cs := csOf w
    cpha := cphaOf w
    cpol := cpolOf w
    ren := renOf w
    sclk := if c.sfsm = .idle then cpolOf w else c.sclk }

/-- `CLEAR_TX`, `CLEAR_RX` of a write of `SPI.CS` (R302 step 4, R305). -/
def clearsWritten (w : Word) (c : Spi) : Spi :=
  { c with
    txq := if clearTxOf w then [] else c.txq
    rxq := if clearRxOf w then [] else c.rxq }

/-- `TA` written: from 1 to 0 a byte in flight is abandoned (R302 step 5, R304). What the dropped `ssh` and `srx` then hold
the rule does not say: the model leaves them as they are (DESIGN CHOICE, log 34); nothing reads them before `T_LOAD`
writes both. -/
def taWritten (ta : Bool) (c : Spi) : Spi :=
  if c.ta = true ∧ ta = false ∧ c.sfsm ≠ .idle then
    { c with ta := false, sfsm := .idle, sbit := 0, sclk := c.cpol }
  else { c with ta := ta }

/-- The configuration bits of a write differ from the stored ones (R302 step 2). -/
def configDiffers (w : Word) (c : Spi) : Bool :=
  csOf w != c.cs || cphaOf w != c.cpha || cpolOf w != c.cpol || renOf w != c.ren

/-- `WR.SPI.CS` (R302). -/
def execWrSpiCs (w : Word) (s : State) : Host.Outcome State Fault Refusal :=
  if outOfScopeBitsSet w then .refused .modeOutOfScope
  else if s.spi.sfsm ≠ .idle ∧ configDiffers w s.spi = true then .refused .configChangeInFlight
  else .next (s.setSpi (taWritten (taOf w) (clearsWritten w (configWritten w s.spi))))

/-- `RD.SPI.FIFO` (R307). -/
def execRdSpiFifo (s : State) : Host.Outcome State Fault Refusal :=
  match s.spi.rxq with
  | [] => answerDrawn (((drawOf s).extractLsb' 0 8).setWidth 32) s
  | b :: q => answer (b.setWidth 32) (s.setSpi { s.spi with rxq := q })

/-- `WR.SPI.FIFO` (R306). -/
def execWrSpiFifo (w : Word) (s : State) : Host.Outcome State Fault Refusal :=
  if s.spi.txq.length = s.soc.spiFifoDepth then .refused .fifoFull
  else .next (s.setSpi { s.spi with txq := pushByte s.spi.txq (byteOf w) })

/-- `RD.SPI.CLK` (R308). -/
def execRdSpiClk (s : State) : Host.Outcome State Fault Refusal :=
  answer (s.spi.cdiv.setWidth 32) s

/-- `WR.SPI.CLK` (R309). -/
def execWrSpiClk (w : Word) (s : State) : Host.Outcome State Fault Refusal :=
  if s.spi.sfsm ≠ .idle then .refused .configChangeInFlight
  else .next (s.setSpi { s.spi with cdiv := low16Of w })

end Sys2Proof.Machine
end

