-- ==== Sys2Proof/Machine/Dispatch.lean ====
section
/-! DEFINITION. The meaning of every operation: one arm per constructor of Instr. -/

namespace Sys2Proof.Machine

def exec (i : Instr) (s : State) : Host.Outcome State Fault Refusal :=
  match i with
  | .rdGpioMode0 => Sys2Proof.Machine.execRdGpioMode0 s
  | .rdGpioMode1 => Sys2Proof.Machine.execRdGpioMode1 s
  | .rdGpioMode2 => Sys2Proof.Machine.execRdGpioMode2 s
  | .rdGpioMode3 => Sys2Proof.Machine.execRdGpioMode3 s
  | .rdGpioMode4 => Sys2Proof.Machine.execRdGpioMode4 s
  | .rdGpioMode5 => Sys2Proof.Machine.execRdGpioMode5 s
  | .wrGpioMode0 w => Sys2Proof.Machine.execWrGpioMode0 w s
  | .wrGpioMode1 w => Sys2Proof.Machine.execWrGpioMode1 w s
  | .wrGpioMode2 w => Sys2Proof.Machine.execWrGpioMode2 w s
  | .wrGpioMode3 w => Sys2Proof.Machine.execWrGpioMode3 w s
  | .wrGpioMode4 w => Sys2Proof.Machine.execWrGpioMode4 w s
  | .wrGpioMode5 w => Sys2Proof.Machine.execWrGpioMode5 w s
  | .wrGpioSet0 w => Sys2Proof.Machine.execWrGpioSet0 w s
  | .wrGpioSet1 w => Sys2Proof.Machine.execWrGpioSet1 w s
  | .rdGpioSet0 => Sys2Proof.Machine.execRdGpioSet0 s
  | .rdGpioSet1 => Sys2Proof.Machine.execRdGpioSet1 s
  | .wrGpioClr0 w => Sys2Proof.Machine.execWrGpioClr0 w s
  | .wrGpioClr1 w => Sys2Proof.Machine.execWrGpioClr1 w s
  | .rdGpioClr0 => Sys2Proof.Machine.execRdGpioClr0 s
  | .rdGpioClr1 => Sys2Proof.Machine.execRdGpioClr1 s
  | .rdGpioLev0 => Sys2Proof.Machine.execRdGpioLev0 s
  | .rdGpioLev1 => Sys2Proof.Machine.execRdGpioLev1 s
  | .wrGpioLev0 w => Sys2Proof.Machine.execWrGpioLev0 w s
  | .wrGpioLev1 w => Sys2Proof.Machine.execWrGpioLev1 w s
  | .rdI2cC => Sys2Proof.Machine.execRdI2cC s
  | .wrI2cC w => Sys2Proof.Machine.execWrI2cC w s
  | .rdI2cS => Sys2Proof.Machine.execRdI2cS s
  | .wrI2cS w => Sys2Proof.Machine.execWrI2cS w s
  | .rdI2cDlen => Sys2Proof.Machine.execRdI2cDlen s
  | .wrI2cDlen w => Sys2Proof.Machine.execWrI2cDlen w s
  | .rdI2cA => Sys2Proof.Machine.execRdI2cA s
  | .wrI2cA w => Sys2Proof.Machine.execWrI2cA w s
  | .rdI2cFifo => Sys2Proof.Machine.execRdI2cFifo s
  | .wrI2cFifo w => Sys2Proof.Machine.execWrI2cFifo w s
  | .rdI2cDiv => Sys2Proof.Machine.execRdI2cDiv s
  | .wrI2cDiv w => Sys2Proof.Machine.execWrI2cDiv w s
  | .rdI2cDel => Sys2Proof.Machine.execRdI2cDel s
  | .wrI2cDel w => Sys2Proof.Machine.execWrI2cDel w s
  | .rdI2cClkt => Sys2Proof.Machine.execRdI2cClkt s
  | .wrI2cClkt w => Sys2Proof.Machine.execWrI2cClkt w s
  | .rdSpiCs => Sys2Proof.Machine.execRdSpiCs s
  | .wrSpiCs w => Sys2Proof.Machine.execWrSpiCs w s
  | .rdSpiFifo => Sys2Proof.Machine.execRdSpiFifo s
  | .wrSpiFifo w => Sys2Proof.Machine.execWrSpiFifo w s
  | .rdSpiClk => Sys2Proof.Machine.execRdSpiClk s
  | .wrSpiClk w => Sys2Proof.Machine.execWrSpiClk w s

end Sys2Proof.Machine
end

