-- ==== Sys2Proof/Machine/Bus.lean ====
section
/-! DEFINITION. How an operation reaches the block and its answer the host: its window must be mapped, the operation is
run, and the data beat of a read is put in the SoC's bit positions (20_memory.md R82 to R84, 30_encoding.md R113, R120).
A refused request changes no state (60_exceptions.md R380). -/

namespace Sys2Proof.Machine

/-- The refusal of a request that selects no operation (30_encoding.md R120). -/
def refusalOf : DecodeError → Refusal
  | .outsideMappedWindows => .outsideMappedWindows
  | .unmappedOffset => .unmappedOffset
  | .accessWidth => .accessWidth

/-- The data beat of a read, which an operation leaves in the positions of the tables of 10_state.md, as the SoC has it on
the bus. -/
def deliver (i : Instr) (s : State) : State :=
  if i.isWrite then s else s.setRdata (toBus s.soc.layout i.reg s.rdata)

/-- An operation issued by the host: "a window can be accessed only while the host has it mapped"
(20_memory.md R83). -/
def busAccess (i : Instr) (s : State) : Host.Outcome State Fault Refusal :=
  if s.mapped.get i.reg.window then andThen (exec i s) (fun t => .next (deliver i t)) else .refused .windowNotMapped

/-- A component's `init` is called: from now until its teardown it may not be called again (41_gpio.md R165). -/
def beginInit (w : Window) (s : State) : State := s.setBegun (s.begun.set w true)

/-- A window becomes addressable, its component being initialised (20_memory.md R83, 41_gpio.md R165). -/
def mapWindow (w : Window) (s : State) : State :=
  beginInit w (s.setMapped (s.mapped.set w true))

/-- After `MapFailed` the block's handle is null: its window is not addressable; the `init` was called all the same
(60_exceptions.md R374, 41_gpio.md R165). -/
def failMapping (w : Window) (s : State) : State := s.setMapped (s.mapped.set w false)

/-- A window is no longer addressable, its component being torn down (41_gpio.md R166). -/
def unmapWindow (w : Window) (s : State) : State :=
  (s.setMapped (s.mapped.set w false)).setBegun (s.begun.set w false)

end Sys2Proof.Machine
end

