-- ==== Sys2Proof/Machine/Driver.lean ====
section
/-! DEFINITION. The driver operations as programs over the register operations (40_regaccess.md, 41_gpio.md part 4,
44_i2c_host.md, 46_spi_host.md): the expansion of each, its precondition, what each command does, the await, the abort
epilogue and the result. A command is at most one bus request or one reading of the clock; what the host computes from
it happens in the same step (log 19). Programs are written in the bit positions of the tables of 10_state.md; only the
five primitives, whose masks and values are the caller's own, turn them round. -/

namespace Sys2Proof.Machine

/-! ## Expansions -/

/-- `SETF reg, flags` (40_regaccess.md R143): two bus requests. -/
def setFlags (r : Reg) (flags : Word) : List HostCmd := [.rd r, .wrSet r flags]

/-- `CLRF reg, flags` (40_regaccess.md R144): two bus requests. -/
def clearFlags (r : Reg) (flags : Word) : List HostCmd := [.rd r, .wrClr r flags]

/-- `set_pin_mode` of a pin (41_gpio.md R167). -/
def pinModeCmds (soc : Soc) (p : Pin) (m : PinMode) : List HostCmd :=
  clearFlags (.gpioMode (mregOf p)) (7#32 <<< mshiftOf p) ++
    setFlags (.gpioMode (mregOf p)) ((modeCode soc.modeCodes m).setWidth 32 <<< mshiftOf p)

/-- The two I2C pins in the order of 44_i2c_host.md R282. -/
def i2cPins (soc : Soc) : List Pin := [soc.pins.i2cSda, soc.pins.i2cScl]

/-- The five SPI pins in the order of 46_spi_host.md R351. -/
def spiPins (soc : Soc) : List Pin :=
  [soc.pins.spiCe1, soc.pins.spiCe0, soc.pins.spiMiso, soc.pins.spiMosi, soc.pins.spiSclk]

/-- `set_pin_mode` of several pins, one after another. -/
def pinsModeCmds (soc : Soc) (ps : List Pin) (m : PinMode) : List HostCmd := ps.flatMap fun p => pinModeCmds soc p m

/-- The delay word of a divider (44_i2c_host.md R283): falling delay in bits 31:16, rising in bits 15:0. -/
def delayWord (d : Nat) : Word := BitVec.ofNat 32 (max (d >>> 4) 1 <<< 16 ||| max (d >>> 2) 1)

/-- The rest of an I2C read loop of `len` bytes after `n` (44_i2c_host.md R286). -/
def i2cReadLoop (len n : Nat) : List HostCmd := if len ≤ n then [] else [.i2cReadTest len]

/-- The rest of an I2C write loop with `data` to hand over (44_i2c_host.md R288). -/
def i2cWriteLoop : List Byte → List HostCmd
  | [] => []
  | b :: ds => [.i2cWriteTest (b :: ds)]

/-- The rest of an SPI read of `len` bytes after `n` (46_spi_host.md R362). -/
def spiReadLoop (len n : Nat) : List HostCmd :=
  if len ≤ n then [] else [.await .spi maskSpiRxd, .spiReadByte len]

/-- The rest of an SPI write with `data` to hand over (46_spi_host.md R363). -/
def spiWriteLoop : List Byte → List HostCmd
  | [] => []
  | b :: ds => [.await .spi maskSpiTxd, .spiWriteByte (b :: ds)]

/-- "Clear status/error flags": one plain write (44_i2c_host.md R285). -/
def clearStatus : List HostCmd := [.wr .i2cS 0x302]

/-- "Disable the bus" (44_i2c_host.md R286 to R289). -/
def disableBus : List HostCmd := clearFlags .i2cC maskI2cen

/-- `gpio.init` after its call (41_gpio.md R165). -/
def gpioInitCmds : List HostCmd := [.map .gpio]
/-- `gpio.teardown` after its call, which does it all: it issues no bus request (41_gpio.md R166). -/
def gpioTeardownCmds : List HostCmd := []

/-- `i2c.init` after its call (44_i2c_host.md R282). -/
def i2cInitCmds (soc : Soc) : List HostCmd :=
  pinsModeCmds soc (i2cPins soc) soc.pins.i2cAlt ++
    [.map .i2c, .wr .i2cC 0, .wr .i2cDiv Config.i2cInitDiv, .wr .i2cDel Config.i2cInitDel,
      .wr .i2cClkt Config.i2cInitClkt]
/-- `i2c.teardown` after its call, which unmaps (44_i2c_host.md R290). -/
def i2cTeardownCmds (soc : Soc) : List HostCmd :=
  pinsModeCmds soc (i2cPins soc) .input

/-- Phase (b) of `i2c.read_register` from its start request to its loop (44_i2c_host.md R286). -/
def i2cReadFrame (len : BitVec 16) : List HostCmd :=
  .wr .i2cDlen (len.setWidth 32) :: (setFlags .i2cC (maskStart ||| maskRead) ++
    .await .i2c maskI2cTa :: i2cReadLoop len.toNat 0)

/-- `i2c.read_register` (44_i2c_host.md R286). -/
def i2cReadRegisterCmds (reg : Byte) (len : BitVec 16) : List HostCmd :=
  clearStatus ++ setFlags .i2cC maskI2cen ++ [.wr .i2cDlen 1] ++ clearFlags .i2cC maskRead ++
    setFlags .i2cC maskStart ++
    [.await .i2c maskI2cTa, .await .i2c maskI2cTxd, .wr .i2cFifo (reg.setWidth 32), .await .i2c maskI2cDone] ++
    i2cReadFrame len ++ disableBus

/-- `i2c.read` (44_i2c_host.md R287). -/
def i2cReadCmds (len : BitVec 16) : List HostCmd :=
  clearStatus ++ setFlags .i2cC maskI2cen ++ i2cReadFrame len ++ disableBus

/-- `i2c.write` (44_i2c_host.md R288). -/
def i2cWriteCmds (data : List Byte) : List HostCmd :=
  clearStatus ++ setFlags .i2cC maskI2cen ++ [.wr .i2cDlen (BitVec.ofNat 32 data.length)] ++
    clearFlags .i2cC maskRead ++ setFlags .i2cC maskStart ++ [.await .i2c maskI2cTa] ++ i2cWriteLoop data ++
    disableBus

/-- `spi.init` after its call (46_spi_host.md R351). -/
def spiInitCmds (soc : Soc) : List HostCmd :=
  pinsModeCmds soc (spiPins soc) soc.pins.spiAlt ++ [.map .spi, .wr .spiCs 0, .wr .spiClk 0]
/-- `spi.teardown` after its call, which unmaps (46_spi_host.md R352). -/
def spiTeardownCmds (soc : Soc) : List HostCmd :=
  pinsModeCmds soc (spiPins soc) .input

/-- The coordinator's initialisation calls the three `init` one after another (70_reset_and_hazards.md R410). -/
def coordinatorInitCmds (soc : Soc) : List HostCmd :=
  .begin .gpio :: gpioInitCmds ++ .begin .spi :: spiInitCmds soc ++ .begin .i2c :: i2cInitCmds soc

/-- The coordinator's teardown calls the three `teardown` in reverse (70_reset_and_hazards.md R411). -/
def coordinatorTeardownCmds (soc : Soc) : List HostCmd :=
  .unmap .i2c :: i2cTeardownCmds soc ++ .unmap .spi :: spiTeardownCmds soc ++ .unmap .gpio :: gpioTeardownCmds

/-- The register a primitive's address names: `OFF = addr - PERI_BASE` (40_regaccess.md R140, R141), with W = 32 the
only width admitted (R147). -/
def regOfAddress (L : Layout) (w : AccessWidth) (addr : Nat) : Except Refusal Reg :=
  if w ≠ .w32 then .error .accessWidth
  else if addr < Config.periBase then .error .outsideMappedWindows
  else (decodeOffset L (addr - Config.periBase)).mapError refusalOf

/-- A word of the register a primitive's address names, as the SoC has it on the bus. -/
def busWordAt (L : Layout) (w : AccessWidth) (addr : Nat) (v : Word) : Word :=
  match regOfAddress L w addr with
  | .ok r => toBus L r v
  | .error _ => v

/-- The program a driver operation runs (30_encoding.md R132). -/
def expansion (soc : Soc) : DriverOp → Except Refusal (List HostCmd)
  | .readW w addr => (regOfAddress soc.layout w addr).map fun r => [.rd r]
  | .writeW w addr v => (regOfAddress soc.layout w addr).map fun r => [.wr r (fromBus soc.layout r v)]
  | .getFlagsW w addr _ => (regOfAddress soc.layout w addr).map fun r => [.rd r]
  | .setFlagsW w addr f => (regOfAddress soc.layout w addr).map fun r => setFlags r (fromBus soc.layout r f)
  | .clearFlagsW w addr f => (regOfAddress soc.layout w addr).map fun r => clearFlags r (fromBus soc.layout r f)
  | .gpioInit => .ok gpioInitCmds
  | .gpioTeardown => .ok gpioTeardownCmds
  | .setPinMode pin m => .ok (pinModeCmds soc (pinOfArg soc pin) m)
  | .setPinLow pin => .ok [.wr (.gpioClr (bankOf (pinOfArg soc pin))) (1#32 <<< bbitOf (pinOfArg soc pin))]
  | .setPinHigh pin => .ok [.wr (.gpioSet (bankOf (pinOfArg soc pin))) (1#32 <<< bbitOf (pinOfArg soc pin))]
  | .getPinLevel pin => .ok [.rd (.gpioLev (bankOf (pinOfArg soc pin)))]
  | .i2cInit => .ok (i2cInitCmds soc)
  | .i2cTeardown => .ok (i2cTeardownCmds soc)
  | .i2cSetClockDivider div => .ok [.wr .i2cDiv (BitVec.ofNat 32 (div &&& 0xFFFF)), .wr .i2cDel (delayWord (div &&& 0xFFFF))]
  | .i2cSetAddress addr => .ok [.wr .i2cA (BitVec.ofNat 32 (addr &&& 0x7F))]
  | .i2cReadRegister reg len => .ok (i2cReadRegisterCmds reg len)
  | .i2cRead len => .ok (i2cReadCmds len)
  | .i2cWrite data => .ok (i2cWriteCmds data)
  | .spiInit => .ok (spiInitCmds soc)
  | .spiTeardown => .ok (spiTeardownCmds soc)
  | .spiSetClockDivider div => .ok [.wr .spiClk (BitVec.ofNat 32 (div &&& 0xFFFF))]
  | .spiSelectChip chip => .ok (clearFlags .spiCs 0x3 ++ setFlags .spiCs (BitVec.ofNat 32 (chip &&& 3)))
  | .spiSetMode mode => .ok (clearFlags .spiCs 0xC ++ setFlags .spiCs (BitVec.ofNat 32 ((mode &&& 3) <<< 2)))
  | .spiEnableReads => .ok (setFlags .spiCs 0x1000)
  | .spiDisableReads => .ok (clearFlags .spiCs 0x1000)
  | .spiBeginTransfer => .ok (setFlags .spiCs 0xB0)
  | .spiEndTransfer => .ok (clearFlags .spiCs 0x80)
  | .spiReadByte => .ok [.await .spi maskSpiRxd, .spiReadByte 1]
  | .spiWriteByte b => .ok [.await .spi maskSpiTxd, .spiWriteByte [b]]
  | .spiRead len => .ok (spiReadLoop len 0)
  | .spiWrite data => .ok (spiWriteLoop data)
  | .spiAwaitTransferDone => .ok [.await .spi maskSpiDone]
  | .coordinatorInit => .ok (coordinatorInitCmds soc)
  | .coordinatorTeardown => .ok (coordinatorTeardownCmds soc)

/-! ## Preconditions -/

/-- An operation of a component needs its window (44_i2c_host.md R280, 46_spi_host.md R350,
70_reset_and_hazards.md R437): that its `init` "has succeeded and [no] teardown has run" is that it is mapped
(log 31). -/
def needsMapped (s : State) (w : Window) : Option Refusal :=
  if s.mapped.get w then none else some .outsideInitWindow

/-- A bus operation needs the GPIO window and its own (44_i2c_host.md R280, 46_spi_host.md R350). -/
def needsBus (s : State) (w : Window) : Option Refusal :=
  (needsMapped s .gpio).or (needsMapped s w)

/-- A component may be initialised once until it is torn down, even if that failed (41_gpio.md R165,
70_reset_and_hazards.md R434); a bus only after the pin controller (70_reset_and_hazards.md R410). -/
def initRefusal (s : State) (w : Window) : Option Refusal :=
  (if w = .gpio then none else needsMapped s .gpio).or (if s.begun.get w then some .initTwice else none)

/-- Why a call is outside the contract, if it is (70_reset_and_hazards.md R410, R434, R437). The coordinator's `init` is
looked at component by component, when it comes to each: nothing is asked at its call. -/
def preconditionBroken (s : State) : DriverOp → Option Refusal
  | .readW .. | .writeW .. | .getFlagsW .. | .setFlagsW .. | .clearFlagsW .. => none
  | .gpioInit => initRefusal s .gpio
  | .gpioTeardown => none
  | .setPinMode .. | .setPinLow .. | .setPinHigh .. | .getPinLevel .. => needsMapped s .gpio
  | .i2cInit => initRefusal s .i2c
  | .i2cTeardown => needsMapped s .gpio
  | .i2cSetClockDivider .. | .i2cSetAddress .. | .i2cReadRegister .. | .i2cRead .. | .i2cWrite .. => needsBus s .i2c
  | .spiInit => initRefusal s .spi
  | .spiTeardown => needsMapped s .gpio
  | .spiSetClockDivider .. | .spiSelectChip .. | .spiSetMode .. | .spiEnableReads | .spiDisableReads
  | .spiBeginTransfer | .spiEndTransfer | .spiReadByte | .spiWriteByte .. | .spiRead .. | .spiWrite ..
  | .spiAwaitTransferDone => needsBus s .spi
  | .coordinatorInit => none
  | .coordinatorTeardown => needsMapped s .gpio

/-! ## What operations may not share (20_memory.md R92, 70_reset_and_hazards.md R420, log 18) -/

/-- What two operations in progress may not both use: a bus, or a mode register. -/
inductive Claim
  | bus (b : Bus)
  | mode (i : Fin 6)
deriving DecidableEq, Repr

/-- What one access of a register uses. A read of a mode register, and the single plain accesses of the other GPIO
registers, lose nobody's update. -/
def claimsOfAccess (write : Bool) (r : Reg) : List Claim :=
  match r with
  | .gpioMode i => if write then [.mode i] else []
  | .gpioSet _ | .gpioClr _ | .gpioLev _ => []
  | .i2cC | .i2cS | .i2cDlen | .i2cA | .i2cFifo | .i2cDiv | .i2cDel | .i2cClkt => [.bus .i2c]
  | .spiCs | .spiFifo | .spiClk => [.bus .spi]

/-- What a primitive on an address uses. -/
def claimsOfAddress (soc : Soc) (write : Bool) (w : AccessWidth) (addr : Nat) : List Claim :=
  match regOfAddress soc.layout w addr with
  | .ok r => claimsOfAccess write r
  | .error _ => []

/-- A bus and the mode registers of its pins. -/
def claimsOfBus (b : Bus) (pins : List Pin) : List Claim := .bus b :: pins.map fun p => .mode (mregOf p)

/-- What an operation uses. The coordinator's two use both buses and the mode registers of both from beginning to end;
`gpio.init` and `gpio.teardown` use nothing (DESIGN CHOICE, log 18). -/
def claimsOf (soc : Soc) : DriverOp → List Claim
  | .readW w addr | .getFlagsW w addr _ => claimsOfAddress soc false w addr
  | .writeW w addr _ | .setFlagsW w addr _ | .clearFlagsW w addr _ => claimsOfAddress soc true w addr
  | .gpioInit | .gpioTeardown => []
  | .setPinMode pin _ => [.mode (mregOf (pinOfArg soc pin))]
  | .setPinLow _ | .setPinHigh _ | .getPinLevel _ => []
  | .i2cInit | .i2cTeardown => claimsOfBus .i2c (i2cPins soc)
  | .i2cSetClockDivider .. | .i2cSetAddress .. | .i2cReadRegister .. | .i2cRead .. | .i2cWrite .. => [.bus .i2c]
  | .spiInit | .spiTeardown => claimsOfBus .spi (spiPins soc)
  | .spiSetClockDivider .. | .spiSelectChip .. | .spiSetMode .. | .spiEnableReads | .spiDisableReads
  | .spiBeginTransfer | .spiEndTransfer | .spiReadByte | .spiWriteByte .. | .spiRead .. | .spiWrite ..
  | .spiAwaitTransferDone => [.bus .spi]
  | .coordinatorInit | .coordinatorTeardown =>
    claimsOfBus .i2c (i2cPins soc) ++ claimsOfBus .spi (spiPins soc)

/-- Two sets of claims have one in common. -/
def clash (a b : List Claim) : Bool := a.any fun x => b.contains x

/-- What an operation about to begin, or a request about to be issued, uses is in use by an operation in progress. -/
def inUse (s : State) (claims : List Claim) : Bool := s.tasks.any fun k => clash claims (claimsOf s.soc k.op)

/-- An operation is between the read and the write of a `SETF` or `CLRF`, where nothing of the host's may fall
(40_regaccess.md R143). -/
def midUpdate (k : Task) : Bool :=
  match k.cont with
  | .wrSet _ _ :: _ => true
  | .wrClr _ _ :: _ => true
  | _ => false

/-! ## Results -/

/-- What a finished operation returns (40_regaccess.md R140, R142, 41_gpio.md R170, 44_i2c_host.md R291,
46_spi_host.md R360 to R364). -/
def resultOf (soc : Soc) (k : Task) : DriverResult :=
  match k.failed with
  | some e =>
    match k.op with
    | .spiRead _ => .errorAfter e k.out.length
    | .spiWrite _ => .errorAfter e k.count
    | _ => .error e
  | none =>
    match k.op with
    | .readW w addr => .word (busWordAt soc.layout w addr k.t)
    | .getFlagsW w addr mask => .word (busWordAt soc.layout w addr k.t &&& mask)
    | .getPinLevel pin => .level (k.t.getLsbD (bbitOf (pinOfArg soc pin)))
    | .i2cReadRegister .. | .i2cRead .. | .spiRead .. => .bytes k.out
    | .i2cWrite .. | .spiWrite .. => .count k.count
    | .spiReadByte => .byte (k.out.headD 0)
    | _ => .ok

/-- The `n`-th operation goes on with `k`, or returns if nothing is left to do. -/
def proceed (n : Nat) (k : Task) (s : State) : State :=
  match k.cont with
  | [] => (s.setTasks (s.tasks.eraseIdx n)).setResult (some (resultOf s.soc k))
  | _ :: _ => s.setTasks (s.tasks.set n k)

/-- The abort path: an I2C operation still disables the bus before it returns the error (44_i2c_host.md R289,
60_exceptions.md R383); an SPI operation writes no register (46_spi_host.md R365, 60_exceptions.md R384). -/
def abortTask (b : Bus) (e : DriverError) (k : Task) : Task :=
  match b with
  | .i2c => { k with cont := disableBus, failed := some e }
  | .spi => { k with cont := [], failed := some e }

/-! ## Commands -/

/-- The status register an await reads. -/
def statusReg : Bus → Reg
  | .i2c => .i2cS
  | .spi => .spiCs

/-- A bus's timeout tunable (10_state.md R68). -/
def timeoutMs (b : Bus) (s : State) : Nat :=
  match b with
  | .i2c => s.i2cTimeoutMs
  | .spi => s.spiTimeoutMs

/-- A flag of a mask is set in a word (40_regaccess.md R142). -/
def anySet (v mask : Word) : Bool := v &&& mask != 0

/-- The tests of one poll on the one value read: the error flag, the clock timeout, the awaited flag; else the deadline
is looked at next (44_i2c_host.md R281, 46_spi_host.md R359, 60_exceptions.md R379). -/
def judgePoll (b : Bus) (flag v : Word) (k : Task) : Task :=
  match b with
  | .i2c =>
    if anySet v maskI2cErr then abortTask .i2c .noResponse k
    else if anySet v maskI2cClkt then abortTask .i2c .clockTimeout k
    else if anySet v flag then k
    else { k with cont := .expire .i2c flag :: k.cont }
  | .spi =>
    if anySet v flag then k
    else { k with cont := .expire .spi flag :: k.cont }

/-- Issue a request of the program and go on with what is made of the data beat it returned. -/
def access (n : Nat) (i : Instr) (after : Word → Task) (s : State) : Host.Outcome State Fault Refusal :=
  andThen (busAccess i s) fun t => .next (proceed n (after (fromBus t.soc.layout i.reg t.rdata)) t)

/-- One command of the `n`-th operation, with `k` the task after it is taken off its list. -/
def runCmd (n : Nat) (c : HostCmd) (k : Task) (s : State) : Host.Outcome State Fault Refusal :=
  match c with
  | .rd r => access n (readInstr r) (fun v => { k with t := v }) s
  | .wr r v => access n (writeInstr r v) (fun _ => k) s
  | .wrSet r flags => access n (writeInstr r (k.t ||| flags)) (fun _ => k) s
  | .wrClr r flags => access n (writeInstr r (k.t &&& ~~~ flags)) (fun _ => k) s
  | .begin w =>
    match initRefusal s w with
    | some r => .refused r
    | none => .next (proceed n k (beginInit w s))
  | .map _ => .next s
  | .unmap w => .next (proceed n k (unmapWindow w s))
  | .await b flag =>
    .next (proceed n { k with deadline := s.now + Config.ticks (timeoutMs b s), cont := .poll b flag :: k.cont } s)
  | .poll b flag => access n (readInstr (statusReg b)) (fun v => judgePoll b flag v k) s
  | .expire b flag =>
    .next (proceed n (if k.deadline < s.now then abortTask b .hardwareTimeout k
      else { k with cont := .poll b flag :: k.cont }) s)
  | .i2cReadTest len =>
    access n (readInstr .i2cS) (fun v => if anySet v maskI2cDone then k
      else { k with cont := .await .i2c maskI2cRxd :: .i2cReadByte len :: k.cont }) s
  | .i2cReadByte len =>
    access n (readInstr .i2cFifo) (fun v =>
      { k with out := k.out ++ [byteOf v], cont := i2cReadLoop len (k.out.length + 1) ++ k.cont }) s
  | .i2cWriteTest data =>
    access n (readInstr .i2cS) (fun v => if anySet v maskI2cDone then k
      else { k with cont := .await .i2c maskI2cTxd :: .i2cWriteByte data :: k.cont }) s
  | .i2cWriteByte [] => .next (proceed n k s)
  | .i2cWriteByte (b :: ds) =>
    access n (writeInstr .i2cFifo (b.setWidth 32)) (fun _ =>
      { k with count := k.count + 1, cont := i2cWriteLoop ds ++ k.cont }) s
  | .spiReadByte len =>
    access n (readInstr .spiFifo) (fun v =>
      { k with out := k.out ++ [byteOf v], cont := spiReadLoop len (k.out.length + 1) ++ k.cont }) s
  | .spiWriteByte [] => .next (proceed n k s)
  | .spiWriteByte (b :: ds) =>
    access n (writeInstr .spiFifo (b.setWidth 32)) (fun _ =>
      { k with count := k.count + 1, cont := spiWriteLoop ds ++ k.cont }) s

/-! ## The host's turn -/

/-- The next atomic step of the `n`-th operation in progress; nothing if there is none, if it waits for the operating
system, or if another is between the two halves of an update (40_regaccess.md R143). -/
def hostTurn (n : Nat) (s : State) : Host.Outcome State Fault Refusal :=
  match s.tasks[n]? with
  | none => .next s
  | some k =>
    if (s.tasks.eraseIdx n).any midUpdate then .next s
    else
      match k.cont with
      | [] => .next (proceed n k s)
      | .map _ :: _ => .next s
      | c :: rest => runCmd n c { k with cont := rest } s

/-- A freshly called operation. -/
def newTask (op : DriverOp) (cmds : List HostCmd) : Task :=
  { op := op, cont := cmds, failed := none, t := 0, deadline := 0, out := [], count := 0 }

/-- What a call does at once to the host's handles: an `init` counts from its call (41_gpio.md R165), a teardown unmaps
before anything else (41_gpio.md R166, 44_i2c_host.md R290, 46_spi_host.md R352). The coordinator's two are calls of these,
each when the sequence comes to it (`HostCmd.begin`, `HostCmd.unmap`). -/
def called (op : DriverOp) (s : State) : State :=
  match op with
  | .gpioInit => beginInit .gpio s
  | .i2cInit => beginInit .i2c s
  | .spiInit => beginInit .spi s
  | .gpioTeardown => unmapWindow .gpio s
  | .i2cTeardown => unmapWindow .i2c s
  | .spiTeardown => unmapWindow .spi s
  | _ => s

/-- A client calls a driver operation. It may not use what an operation in progress is using (44_i2c_host.md R280,
46_spi_host.md R350, 70_reset_and_hazards.md R420); operations on different buses go side by side. Between the two halves
of an update no call is taken up: the turn changes nothing (40_regaccess.md R143). -/
def callTurn (op : DriverOp) (s : State) : Host.Outcome State Fault Refusal :=
  if inUse s (claimsOf s.soc op) then .refused .concurrentTransaction
  else
    match preconditionBroken s op with
    | some r => .refused r
    | none =>
      match expansion s.soc op with
      | .error r => .refused r
      | .ok cmds =>
        if s.tasks.any midUpdate then .next s
        else .next (proceed s.tasks.length (newTask op cmds) ((called op s).setTasks (s.tasks ++ [newTask op cmds])))

/-- The operating system answers a mapping: the block becomes addressable, or its handle is null and the operation returns
`MapFailed` (41_gpio.md R165, 60_exceptions.md R374). Mapping changes no hardware state (20_memory.md R83). Where two
mappings of one window wait, which takes a teardown between the two calls of its `init`, the later answer decides
(DESIGN CHOICE, log 31). Between the two halves of another operation's update the `init` takes up no answer
(40_regaccess.md R143). -/
def osMapTurn (n : Nat) (ok : Bool) (s : State) : Host.Outcome State Fault Refusal :=
  match s.tasks[n]? with
  | none => .next s
  | some k =>
    match k.cont with
    | .map w :: rest =>
      if (s.tasks.eraseIdx n).any midUpdate then .next s
      else if ok then .next (proceed n { k with cont := rest } (mapWindow w s))
      else .next (proceed n { k with cont := [], failed := some .mapFailed } (failMapping w s))
    | _ => .next s

/-- A request of the host's own may not use what an operation in progress is using, nor fall between the two halves of an
update (20_memory.md R92, 40_regaccess.md R143; log 18). -/
def requestBlocked (i : Instr) (s : State) : Bool :=
  inUse s (claimsOfAccess i.isWrite i.reg) || s.tasks.any midUpdate

/-- The host issues a request of its own (30_encoding.md R112, R120). -/
def requestTurn (r : Request) (s : State) : Host.Outcome State Fault Refusal :=
  match decode s.soc.layout r with
  | .error e => .refused (refusalOf e)
  | .ok i => if requestBlocked i s then .refused .concurrentTransaction else busAccess i s

end Sys2Proof.Machine
end

