-- ==== Sys2Proof/Machine/I2cEngine.lean ====
section
/-! DEFINITION. The I2C master state machine (43_i2c_engine.md): one definition for each transition, and the transition
that is enabled. A transition reads the engine's own block and the levels of the two lines and writes the block alone
(R220). -/

namespace Sys2Proof.Machine

/-- `T_START` (43_i2c_engine.md R222), for either setting of `I2C_DONE_AUTOCLEAR`. -/
def tStart (autoclear : Bool) (c : I2c) : I2c :=
  { c with
    stPend := false
    rd := c.read
    rem := c.dlen
    sh := c.addr.concat c.read
    ph := .addr
    cell := 0
    nack := false
    stretch := 0
    done := c.done && !autoclear
    mSda := false
    fsm := .startHold }

/-- `T_START_HOLD` (43_i2c_engine.md R224). -/
def tStartHold (c : I2c) : I2c :=
  { c with mScl := false, fsm := .cellDrive }

/-- The level the engine drives on SDA in a cell (43_i2c_engine.md R225). -/
def driveLevel (c : I2c) : Bool :=
  match c.ph with
  | .addr => if c.cell.val < 8 then msbFirst c.sh c.cell.val else true
  | .tx => if c.cell.val < 8 then msbFirst c.sh c.cell.val else true
  | .rx => if c.cell.val < 8 then true else decide (c.rem = 0)

/-- `T_DRIVE` (43_i2c_engine.md R225). -/
def tDrive (c : I2c) : I2c :=
  { c with mSda := driveLevel c, fsm := .cellRise }

/-- `T_RISE` (43_i2c_engine.md R226). -/
def tRise (c : I2c) : I2c :=
  { c with mScl := true, stretch := 0, fsm := .cellSample }

/-- `T_SAMPLE` with `b` the level of SDA (43_i2c_engine.md R227). -/
def tSample (b : Bool) (c : I2c) : I2c :=
  match c.ph with
  | .addr => if c.cell.val < 8 then { c with fsm := .cellFall } else { c with nack := b, fsm := .cellFall }
  | .tx => if c.cell.val < 8 then { c with fsm := .cellFall } else { c with nack := b, fsm := .cellFall }
  | .rx => if c.cell.val < 8 then { c with sh := shiftIn c.sh b, fsm := .cellFall } else { c with fsm := .cellFall }

/-- `T_FALL` (43_i2c_engine.md R228). -/
def tFall (c : I2c) : I2c :=
  if h : c.cell.val < 7 then
    { c with mScl := false, cell := ⟨c.cell.val + 1, by omega⟩, fsm := .cellDrive }
  else if c.cell.val = 7 then
    if c.ph = .rx then
      { c with mScl := false, rxq := pushByte c.rxq c.sh, rem := countDown c.rem, cell := 8, fsm := .cellDrive }
    else { c with mScl := false, cell := 8, fsm := .cellDrive }
  else if c.ph = .tx ∧ c.nack = false then
    { c with mScl := false, rem := countDown c.rem, fsm := .byteNext }
  else { c with mScl := false, fsm := .byteNext }

/-- The next byte to send is taken from `txq`; none while it is empty (43_i2c_engine.md R229, R230, R232). -/
def loadByte (c : I2c) : Option I2c :=
  match c.txq with
  | [] => none
  | b :: q => some { c with sh := b, txq := q, ph := .tx, cell := 0, fsm := .cellDrive }

/-- The next byte to receive is begun; not while `rxq`, of capacity `depth`, is full (43_i2c_engine.md R229, R231, R232). -/
def openByte (depth : Nat) (c : I2c) : Option I2c :=
  if c.rxq.length < depth then some { c with sh := 0, ph := .rx, cell := 0, fsm := .cellDrive }
  else none

/-- `T_NEXT`, where its guard holds; `none` is the stall (43_i2c_engine.md R229 to R232). -/
def tNext (depth : Nat) (c : I2c) : Option I2c :=
  match c.ph with
  | .addr =>
    if c.nack then some (raiseErr c)
    else if c.rem = 0 then some { c with fsm := .stopDrive }
    else if c.rd then openByte depth c
    else loadByte c
  | .tx =>
    if c.nack then some (raiseErr c)
    else if c.rem = 0 then some { c with fsm := .stopDrive }
    else loadByte c
  | .rx =>
    if c.rem = 0 then some { c with fsm := .stopDrive }
    else openByte depth c

/-- `T_STOP_DRIVE` (43_i2c_engine.md R234). -/
def tStopDrive (c : I2c) : I2c :=
  { c with mSda := false, fsm := .stopRise }

/-- `T_STOP_RISE` (43_i2c_engine.md R235). -/
def tStopRise (c : I2c) : I2c :=
  { c with mScl := true, stretch := 0, fsm := .stopWait }

/-- `T_STOP_RELEASE` (43_i2c_engine.md R237, R238). -/
def tStopRelease (c : I2c) : I2c :=
  { c with mSda := true, done := true, fsm := .idle }

/-- `T_STRETCH`, with the clock-timeout abort in the step that reaches the bound (43_i2c_engine.md R240, R241). -/
def tStretch (c : I2c) : I2c :=
  let n := countStretch c.stretch
  if c.tout ≠ 0 ∧ c.tout ≤ n then raiseClkt { c with stretch := n } else { c with stretch := n }

/-- The enabled transition of the engine with `sda`, `scl` the levels of the lines, if there is one
(43_i2c_engine.md R246). While `I2CEN` is 0 the engine takes no step (10_state.md R39). -/
def i2cTransition (soc : Soc) (sda scl : Bool) (c : I2c) : Option I2c :=
  if c.i2cen = false then none
  else
    match c.fsm with
    | .idle => if c.stPend = true ∧ sda = true ∧ scl = true then some (tStart soc.i2cDoneAutoclear c) else none
    | .startHold => some (tStartHold c)
    | .cellDrive => some (tDrive c)
    | .cellRise => some (tRise c)
    | .cellSample => if scl = true then some (tSample sda c) else some (tStretch c)
    | .cellFall => some (tFall c)
    | .byteNext => tNext soc.i2cFifoDepth c
    | .stopDrive => some (tStopDrive c)
    | .stopRise => some (tStopRise c)
    | .stopWait => if scl = true then some (tStopRelease c) else some (tStretch c)

/-- The I2C engine's turn: its enabled transition, or nothing if none is enabled. -/
def i2cEngineTurn (s : State) : Host.Outcome State Fault Refusal :=
  match i2cTransition s.soc (sdaIn s) (sclIn s) s.i2c with
  | some c => .next (s.setI2c c)
  | none => .next s

end Sys2Proof.Machine
end

