-- ==== Sys2Proof/Machine/SpiEngine.lean ====
section
/-! DEFINITION. The SPI engine (45_spi.md R310 to R323): one definition for each transition, and the transition that is
enabled. -/

namespace Sys2Proof.Machine

/-- `T_LOAD`, where its guard holds, with queues of capacity `depth` (45_spi.md R313); `none` is idling or the stall of
R319. -/
def tLoad (depth : Nat) (c : Spi) : Option Spi :=
  if c.ta = true ∧ c.rxq.length < depth then
    match c.txq with
    | [] => none
    | b :: q => some { c with ssh := b, txq := q, srx := 0, sbit := 0, sfsm := .setup }
  else none

/-- `T_SETUP` (45_spi.md R314). -/
def tSetup (c : Spi) : Spi :=
  if c.cpha then { c with sfsm := .lead }
  else { c with mosi := msbFirst c.ssh c.sbit.val, sfsm := .lead }

/-- `T_LEAD`, the leading clock edge, with `din` the sampled level (45_spi.md R315). -/
def tLead (din : Bool) (c : Spi) : Spi :=
  if c.cpha then { c with sclk := !c.cpol, mosi := msbFirst c.ssh c.sbit.val, sfsm := .trail }
  else { c with sclk := !c.cpol, srx := shiftIn c.srx din, sfsm := .trail }

/-- The next bit, or the end of the byte (45_spi.md R317, second part). -/
def nextBit (c : Spi) : Spi :=
  if h : c.sbit.val < 7 then { c with sbit := ⟨c.sbit.val + 1, by omega⟩, sfsm := .setup }
  else { c with sfsm := .store }

/-- `T_TRAIL`, the trailing clock edge, with `din` the sampled level (45_spi.md R317). -/
def tTrail (din : Bool) (c : Spi) : Spi :=
  if c.cpha then nextBit { c with sclk := c.cpol, srx := shiftIn c.srx din }
  else nextBit { c with sclk := c.cpol }

/-- `T_STORE` (45_spi.md R318). -/
def tStore (c : Spi) : Spi :=
  { c with rxq := pushByte c.rxq c.srx, sbit := 0, sfsm := .idle }

/-- The enabled transition of the engine, with `din` the level of its input, if there is one (45_spi.md R323). -/
def spiTransition (soc : Soc) (din : Bool) (c : Spi) : Option Spi :=
  match c.sfsm with
  | .idle => tLoad soc.spiFifoDepth c
  | .setup => some (tSetup c)
  | .lead => some (tLead din c)
  | .trail => some (tTrail din c)
  | .store => some (tStore c)

/-- The SPI engine's turn: its enabled transition, or nothing if none is enabled. The step takes a draw, which is its
input where no pin is multiplexed to it (41_gpio.md R162). -/
def spiEngineTurn (s : State) : Host.Outcome State Fault Refusal :=
  match spiTransition s.soc (dataIn s (drawOf s)) s.spi with
  | some c => .next (s.drawn.setSpi c)
  | none => .next s

end Sys2Proof.Machine
end

