-- ==== Sys2Proof/Machine/Turns.lean ====
section
/-! DEFINITION. What each agent's turn does (00_scope.md R15), whose turn it is, and how a request is placed so that it
is the next one the block takes. -/

namespace Sys2Proof.Machine

/-- Power-on (70_reset_and_hazards.md R400): every piece of hardware state goes to `RESET(...)`, the host's handles and
operations are gone. What lies outside the block goes on: the parameters, the levels the environment applies, the clock,
the tunables, and the model's own fields (log 23). -/
def powerOnState (s : State) : State :=
  { State.reset with
    soc := s.soc
    gpio := { s.soc.resetGpio with envIn := s.gpio.envIn }
    i2c := s.soc.resetI2c
    spi := s.soc.resetSpi
    i2cTimeoutMs := s.i2cTimeoutMs
    spiTimeoutMs := s.spiTimeoutMs
    now := s.now
    draws := s.draws
    issued := s.issued }

/-- The operator sets a timeout (10_state.md R68). -/
def tuneState (b : Bus) (ms : Nat) (s : State) : State :=
  match b with
  | .i2c => s.setI2cTimeoutMs ms
  | .spi => s.setSpiTimeoutMs ms

/-- One turn. Who takes it, and what an outside agent brings, is an argument (10_state.md R69). -/
def takeTurn (t : Turn) (s : State) : Host.Outcome State Fault Refusal :=
  match t with
  | .powerOn => .next (powerOnState s)
  | .request r => requestTurn r s
  | .call op => callTurn op s
  | .host n => hostTurn n s
  | .osMap n ok => osMapTurn n ok s
  | .i2cEngine => i2cEngineTurn s
  | .spiEngine => spiEngineTurn s
  | .env p high => .next (s.setGpio (applyLevel s.gpio p high))
  | .clock n => .next (s.setNow (s.now + n))
  | .tune b ms => .next (tuneState b ms s)

/-- Whose turn it is: the block takes a request already issued, else a free choice (00_scope.md R15, log 2). -/
def nextTurn (s : State) : Turn :=
  match s.issued with
  | some r => .request r
  | none => Config.freeTurn s.draws

/-- The state in which that turn is taken: the request is off the bus, or the free choice used up. -/
def turnTaken (s : State) : State :=
  match s.issued with
  | some _ => s.setIssued none
  | none => s.drawn

/-- The window a request's offset lies in, if any, is mapped (20_memory.md R83). -/
def mapFor (r : Request) (s : State) : State :=
  match windowOf s.soc.layout (r.header.extractLsb' 0 24).toNat with
  | some w => mapWindow w s
  | none => s

/-- The state in which the block takes `r` next: no driver operation is in progress, the request's window is mapped, and
the request is issued. -/
def placeRequest (r : Request) (s : State) : State :=
  (mapFor r (s.setTasks [])).setIssued (some r)

end Sys2Proof.Machine
end

