-- ==== Sys2Proof/Machine/Step.lean ====
section
/-! DEFINITION. One step: the agent whose turn it is takes it (00_scope.md R15). -/

namespace Sys2Proof.Machine

/-- One step of the machine. -/
def step (s : State) : Host.Outcome State Fault Refusal :=
  takeTurn (nextTurn s) (turnTaken s)

/-- The state with the request numbered `w` in the opcode table placed as the next one the block takes, in the layout of
its SoC (log 3). A number that is no request leaves the state as it is. -/
def State.withFetchWord (s : State) (nbits w : Nat) : State :=
  match requestOfTableWord nbits w with
  | some r => placeRequest (relaid s.soc.layout r) s
  | none => s

end Sys2Proof.Machine
end

