-- ==== Sys2Proof/Safety.lean ====
section
/-! DEFINITION. Which parameters a SoC can have, what a sound state of the block is, in the terms the statements use, and
runs of the engines and of given turns. Every predicate is decidable. -/

namespace Sys2Proof.Machine

/-! ## Sound parameters (00_scope.md R9, log 33) -/

/-- The three windows. -/
def allWindows : List Window := [.gpio, .spi, .i2c]

/-- The windows are word-aligned, lie within 24 bits of offset (30_encoding.md R111), and do not overlap. -/
abbrev windowsSound (L : Layout) : Prop :=
  ∀ w ∈ allWindows, (w.place L).off % 4 = 0 ∧ (w.place L).off + (w.place L).size ≤ 2 ^ 24 ∧
    ∀ w' ∈ allWindows, w ≠ w' → (w.place L).off + (w.place L).size ≤ (w'.place L).off ∨
      (w'.place L).off + (w'.place L).size ≤ (w.place L).off

/-- Every register is a word of its window, and no two share one (20_memory.md R84). -/
abbrev registersSound (L : Layout) : Prop :=
  ∀ w ∈ allWindows, ∀ r ∈ regsOf w, r.offset L % 4 = 0 ∧ r.offset L + 4 ≤ (w.place L).size ∧
    ∀ r' ∈ regsOf w, r.offset L = r'.offset L → r = r'

/-- Positions that the source fixes stay where they are: the banks of 32 pins and the two delays (00_scope.md R10,
10_state.md R26 to R28, R50). -/
def movable : Reg → Bool
  | .gpioSet _ | .gpioClr _ | .gpioLev _ | .i2cDel => false
  | _ => true

/-- A sound layout. -/
abbrev layoutSound (L : Layout) : Prop :=
  windowsSound L ∧ registersSound L ∧ ∀ m ∈ L.moves, movable m.1 = true

/-- The eight modes have eight codes (10_state.md R25). -/
abbrev modeCodesSound (k : ModeCodes) : Prop :=
  [k.input, k.output, k.alt0, k.alt1, k.alt2, k.alt3, k.alt4, k.alt5].Nodup

/-- Seven bus pins that exist, each in an alternate function (00_scope.md R9). -/
abbrev busPinsSound (npins : Nat) (b : BusPins) : Prop :=
  (∀ p ∈ [b.i2cSda, b.i2cScl, b.spiCe1, b.spiCe0, b.spiMiso, b.spiMosi, b.spiSclk], p.val < npins) ∧
    [b.i2cSda, b.i2cScl, b.spiCe1, b.spiCe0, b.spiMiso, b.spiMosi, b.spiSclk].Nodup ∧
    b.i2cAlt ≠ .input ∧ b.i2cAlt ≠ .output ∧ b.spiAlt ≠ .input ∧ b.spiAlt ≠ .output

/-! ## Sound blocks -/

/-- Reserved bits of the mode registers are 0, and only pins that exist have a latch (10_state.md R24, R29). -/
abbrev gpioSound (soc : Soc) (g : Gpio) : Prop :=
  (∀ i : Fin 6, g.mode[i] &&& ~~~ modeFieldsMask soc i = 0) ∧ g.out &&& ~~~ existingPins soc = 0

/-- The engine is inside a cell (43_i2c_engine.md section 3). -/
def inCell : I2cFsm → Bool
  | .cellDrive | .cellRise | .cellSample | .cellFall => true
  | _ => false

/-- The engine holds the clock low in this place (43_i2c_engine.md R224, R228, R232, R234). -/
def holdsClock : I2cFsm → Bool
  | .cellDrive | .cellRise | .byteNext | .stopDrive | .stopRise => true
  | _ => false

/-- The engine holds the data line low in this place (43_i2c_engine.md R222, R234). -/
def holdsData : I2cFsm → Bool
  | .startHold | .stopRise | .stopWait => true
  | _ => false

/-- Both queues hold at most `I2C_FIFO_DEPTH` bytes (10_state.md R52). -/
abbrev i2cQueuesFit (soc : Soc) (c : I2c) : Prop :=
  c.txq.length ≤ soc.i2cFifoDepth ∧ c.rxq.length ≤ soc.i2cFifoDepth

/-- What the engine drives follows from where it is: idle lines released (43_i2c_engine.md R243), the clock low exactly
where it holds it. -/
abbrev i2cLinesFollow (c : I2c) : Prop :=
  (c.fsm = .idle → c.mSda = true) ∧ (c.mScl = !holdsClock c.fsm) ∧ (holdsData c.fsm = true → c.mSda = false)

/-- A disabled block is idle with no start pending (10_state.md R39, 42_i2c_registers.md R184); a start is pending only
while idle (R183, 43_i2c_engine.md R222); the latched direction is the register's while a transfer is active
(20_memory.md R93). -/
abbrev i2cControlFollows (c : I2c) : Prop :=
  (c.i2cen = false → c.fsm = .idle ∧ c.stPend = false) ∧ (c.stPend = true → c.fsm = .idle) ∧
    (c.fsm ≠ .idle → c.rd = c.read)

/-- A frame begins with the address byte (43_i2c_engine.md R222); a data byte is on the wire only while there is one to
move, and one is received only while there is room (43_i2c_engine.md R228). -/
abbrev i2cBytesFit (soc : Soc) (c : I2c) : Prop :=
  (c.fsm = .startHold → c.ph = .addr) ∧
    (inCell c.fsm = true → c.ph = .tx → c.rem ≠ 0) ∧
    (inCell c.fsm = true → c.ph = .rx → c.cell.val < 8 → c.rem ≠ 0 ∧ c.rxq.length < soc.i2cFifoDepth)

/-- A sound I2C block. -/
abbrev i2cSound (soc : Soc) (c : I2c) : Prop :=
  i2cQueuesFit soc c ∧ i2cLinesFollow c ∧ i2cControlFollows c ∧ i2cBytesFit soc c

/-- The level of the SPI clock line in each place of the engine (45_spi.md R311, R315, R317). -/
def sclkAt (c : Spi) : Bool :=
  match c.sfsm with
  | .trail => !c.cpol
  | _ => c.cpol

/-- A sound SPI block: the queues fit (10_state.md R64), the clock line is where the engine put it, a byte is in flight
only during a transfer and with room for its answer (45_spi.md R313, R318), and the bit index rests at 0. -/
abbrev spiSound (soc : Soc) (c : Spi) : Prop :=
  (c.txq.length ≤ soc.spiFifoDepth ∧ c.rxq.length ≤ soc.spiFifoDepth) ∧
    c.sclk = sclkAt c ∧
    (c.sfsm = .idle → c.sbit = 0) ∧ (c.sfsm = .store → c.sbit = 7) ∧
    (c.sfsm ≠ .idle → c.ta = true ∧ c.rxq.length < soc.spiFifoDepth)

/-- Sound parameters: a sound layout, at most 60 pins, sound pins, and reset values that are those of sound blocks. -/
abbrev socSound (soc : Soc) : Prop :=
  layoutSound soc.layout ∧ soc.npins ≤ maxPins ∧ modeCodesSound soc.modeCodes ∧ busPinsSound soc.npins soc.pins ∧
    gpioSound soc soc.resetGpio ∧ i2cSound soc soc.resetI2c ∧ spiSound soc soc.resetSpi

/-! ## Sound states -/

/-- The driver operations in progress: each has something left to do, and no two use the same bus or mode register
(20_memory.md R92). -/
abbrev tasksSound (soc : Soc) (l : List Task) : Prop :=
  (∀ k ∈ l, k.cont ≠ []) ∧ l.Pairwise fun k k' => clash (claimsOf soc k'.op) (claimsOf soc k.op) = false

/-- A window is mapped only while its component is initialised (20_memory.md R83, 41_gpio.md R165). -/
abbrev windowsFollow (s : State) : Prop := ∀ w ∈ allWindows, s.mapped.get w = true → s.begun.get w = true

/-- A sound state of the whole machine. -/
abbrev stateSound (s : State) : Prop :=
  socSound s.soc ∧ gpioSound s.soc s.gpio ∧ i2cSound s.soc s.i2c ∧ spiSound s.soc s.spi ∧ tasksSound s.soc s.tasks ∧
    windowsFollow s

/-! ## Bus operations -/

/-- The bus an operation of 44_i2c_host.md R280 or 46_spi_host.md R350 is one of: every operation of the bus but its
`init` and `teardown`. -/
def busOperation : DriverOp → Option Bus
  | .i2cSetClockDivider .. | .i2cSetAddress .. | .i2cReadRegister .. | .i2cRead .. | .i2cWrite .. => some .i2c
  | .spiSetClockDivider .. | .spiSelectChip .. | .spiSetMode .. | .spiEnableReads | .spiDisableReads
  | .spiBeginTransfer | .spiEndTransfer | .spiReadByte | .spiWriteByte .. | .spiRead .. | .spiWrite ..
  | .spiAwaitTransferDone => some .spi
  | _ => none

/-- The window of a bus. -/
def busWindow : Bus → Window
  | .i2c => .i2c
  | .spi => .spi

/-! ## Runs -/

/-- The I2C engine's transitions one after another, each with the levels of SDA and SCL it sees; `none` as soon as none
is enabled. -/
def i2cRun (soc : Soc) : List (Bool × Bool) → I2c → Option I2c
  | [], c => some c
  | (sda, scl) :: l, c =>
    match i2cTransition soc sda scl c with
    | none => none
    | some c' => i2cRun soc l c'

/-- The SPI engine's transitions one after another, each with the level of its input. -/
def spiRun (soc : Soc) : List Bool → Spi → Option Spi
  | [], c => some c
  | din :: l, c =>
    match spiTransition soc din c with
    | none => none
    | some c' => spiRun soc l c'

/-- Turns one after another, stopping at the first refusal. -/
def runTurns : List Turn → State → Host.Outcome State Fault Refusal
  | [], s => .next s
  | t :: l, s => andThen (takeTurn t s) (runTurns l)

end Sys2Proof.Machine
end

