-- ==== Sys2Proof/Certificates/Slice0/Obligations.lean ====
section
/-! DEFINITION. The statements for the provers. Each docstring names the rule of spec/ a statement formalises. Nothing
is proved here. `Host.Outcome.next t` is written `.next t`; a state that differs from `s` only in the fields shown is
written as a record update of `s`, which is the frame: every other register, latch, queue, flag and line is unchanged.
A state carries the parameters of its SoC (00_scope.md R9), so a statement about every state is about every SoC; what a
SoC can be is `socSound` (log 33).
The block has no memory beside its registers and queues (INVENTORY.md). Most rules of spec/ carry a mark
`[decision: see 92_eei_decisions.md Dn]` or `[from general knowledge, not in source]`: such a rule is the spec's own
choice, and a docstring that names it formalises that choice; OBLIGATIONS.json names the decision. -/

open Sys2Proof Sys2Proof.Machine

/-! ## Requests: encoding, decoding, dispatch -/

/-- In every sound layout, decoding the encoding of any operation gives it back, with every data beat; in the default
layout the encoding has the header of the opcode map, and the decoder reads the operation from the number the opcode table
gives it (30_encoding.md R111 to R113, R116). That the beat stands in bits 63:32 of the number is the model's choice
(log 1). -/
def Obligations.DecodeOfEncode : Prop :=
  ∀ i : Instr, (∀ L : Layout, layoutSound L → decode L (encode L i) = .ok i) ∧
    (encode .bcm283x i).header = matchOf i ∧ decodeTableWord 64 (tableWordOf i) = some i

/-- A request that selects an operation is 32 bits wide and carries exactly that operation's header (in the default layout
the opcode map's, by `DecodeOfEncode`), and a write carries its data beat: the whole header selects (30_encoding.md
R112). -/
def Obligations.DecodedHeaderIsTheTableHeader : Prop :=
  ∀ (L : Layout) (r : Request) (i : Instr), decode L r = .ok i →
    r.width = .w32 ∧ r.header = headerOf L i ∧ (i.isWrite = true → r.wdata = toBus L i.reg (dataBeatOf i))

/-- Requests that match no row are refused by name (30_encoding.md R120; 10_state.md R34, R57; 20_memory.md R82, R84), in
every state: narrow accesses; offsets in no window; unaligned offsets in a window; words of a window that hold no
register, by default the six unnamed ones. Where two reasons hold, the order is the model's choice (log 17, the spec gives
none: 60_exceptions.md R380): the width before the window, and all of these before the window's mapping. -/
def Obligations.UnmatchedRequestsAreRefused : Prop :=
  ∀ (r : Request) (s : State), layoutSound s.soc.layout →
    let L := s.soc.layout
    let off := (r.header.extractLsb' 0 24).toNat
    let inside (w : Window) := (w.place L).off ≤ off ∧ off < (w.place L).off + (w.place L).size
    (r.width ≠ .w32 → requestTurn r s = .refused .accessWidth) ∧
    (r.width = .w32 → (∀ w ∈ allWindows, ¬ inside w) → requestTurn r s = .refused .outsideMappedWindows) ∧
    (∀ w ∈ allWindows, r.width = .w32 → inside w → off % 4 ≠ 0 → requestTurn r s = .refused .accessWidth) ∧
    (∀ w ∈ allWindows, r.width = .w32 → inside w → off % 4 = 0 → (∀ g ∈ regsOf w, off ≠ offOf L g) →
      requestTurn r s = .refused .unmappedOffset) ∧
    (L = .bcm283x → r.width = .w32 → off ∈ [0x200018, 0x200024, 0x200030, 0x20400C, 0x204010, 0x204014] →
      requestTurn r s = .refused .unmappedOffset)

/-- Words written out from the opcode map decode to their operations (30_encoding.md R116). -/
def Obligations.SampleHeadersDecode : Prop :=
  decode .bcm283x ⟨.w32, 0x0804010, 0⟩ = .ok .rdI2cFifo ∧ decode .bcm283x ⟨.w32, 0x180400C, 0x50⟩ = .ok (.wrI2cA 0x50) ∧
  decode .bcm283x ⟨.w32, 0x1204000, 0xB0⟩ = .ok (.wrSpiCs 0xB0) ∧ decode .bcm283x ⟨.w32, 0x0200038, 0⟩ = .ok .rdGpioLev1 ∧
  decode .bcm283x ⟨.w32, 0x120001C, 5⟩ = .ok (.wrGpioSet0 5)

/-- A step that takes an issued request runs the operation the request decodes to, on the state with the bus free again,
and gives a read's data beat in the SoC's bit positions; to a window that is not mapped the request is refused
(20_memory.md R83), and so is one that an operation in progress stands against (20_memory.md R92, log 18). With no request
issued any turn may be the next (00_scope.md R15). The request's place in the state is the model's own field (log 3), that
the mapping is looked at here the model's choice (log 17). -/
def Obligations.StepRunsTheDecodedRequest : Prop :=
  (∀ (s : State) (r : Request) (i : Instr), s.issued = some r → decode s.soc.layout r = .ok i →
    (requestBlocked i s = false → s.mapped.get i.reg.window = true →
      step s = andThen (exec i { s with issued := none }) fun t =>
        .next (if i.isWrite then t else { t with rdata := toBus t.soc.layout i.reg t.rdata })) ∧
    (requestBlocked i s = false → s.mapped.get i.reg.window = false → step s = .refused .windowNotMapped) ∧
    (requestBlocked i s = true → step s = .refused .concurrentTransaction)) ∧
  ∀ s : State, s.issued = none → ∃ τ : Turn, step s = takeTurn τ { s with draws := s.draws + 1 }

/-- The operation placed by `withFetchWord` is the one the next step runs, in every sound layout; the placing itself drops
the driver operations in progress and maps the window addressed, and nothing else. The placing is the model's own (log 1,
log 3). -/
def Obligations.PlacedRequestRunsNext : Prop :=
  ∀ (s : State) (i : Instr), layoutSound s.soc.layout →
    step (s.withFetchWord 64 (tableWordOf i)) =
      andThen (exec i { s with
        tasks := []
        issued := none
        mapped := s.mapped.set i.reg.window true
        begun := s.begun.set i.reg.window true }) fun t => .next (deliver i t)

/-- A request touches no block but the one its window belongs to, and no host-side value but the data beat returned
(40_regaccess.md R141: "no side effects beyond the single register touched"; 10_state.md R20). -/
def Obligations.RequestTouchesOnlyItsBlock : Prop :=
  ∀ (i : Instr) (s t : State), exec i s = .next t →
    (i.reg.window ≠ .gpio → t.gpio = s.gpio) ∧ (i.reg.window ≠ .i2c → t.i2c = s.i2c) ∧
    (i.reg.window ≠ .spi → t.spi = s.spi) ∧ (i.isWrite = true → t.rdata = s.rdata) ∧
    t.soc = s.soc ∧ t.mapped = s.mapped ∧ t.begun = s.begun ∧ t.i2cTimeoutMs = s.i2cTimeoutMs ∧
    t.spiTimeoutMs = s.spiTimeoutMs ∧ t.now = s.now ∧ t.tasks = s.tasks ∧ t.result = s.result ∧
    t.issued = s.issued ∧ t.gpio.envIn = s.gpio.envIn

/-- A read of any register but the two FIFOs completes in every state and has no side effect: only the data beat
returned (and the model's count of free values) differs (20_memory.md R86). -/
def Obligations.ReadsHaveNoSideEffect : Prop :=
  ∀ (i : Instr) (s : State), i.isWrite = false → i.reg ≠ .i2cFifo → i.reg ≠ .spiFifo →
    ∃ (v : Word) (n : Nat), exec i s = .next { s with rdata := v, draws := n }

/-! ## GPIO -/

/-- Reads of `MODE0` to `MODE5` return the stored fields of the pins that exist, reserved bits 0 (41_gpio.md R156;
10_state.md R23, R24). -/
def Obligations.ModeReadsReturnTheFields : Prop :=
  ∀ s : State,
    let reads (i : Fin 6) (o : Host.Outcome State Fault Refusal) : Prop :=
      ∃ v : Word, o = .next { s with rdata := v } ∧ ∀ b : Nat,
        v.getLsbD b = (decide (b < 30 ∧ 10 * i.val + b / 3 < s.soc.npins) && s.gpio.mode[i].getLsbD b)
    reads 0 (exec .rdGpioMode0 s) ∧ reads 1 (exec .rdGpioMode1 s) ∧ reads 2 (exec .rdGpioMode2 s) ∧
    reads 3 (exec .rdGpioMode3 s) ∧ reads 4 (exec .rdGpioMode4 s) ∧ reads 5 (exec .rdGpioMode5 s)

/-- Writes of `MODE0` to `MODE5` store the fields of the pins that exist, drop the reserved bits, and change nothing else;
`OUT` is not changed (41_gpio.md R152). -/
def Obligations.ModeWritesStoreTheFields : Prop :=
  ∀ (w : Word) (s : State),
    let writes (i : Fin 6) (o : Host.Outcome State Fault Refusal) : Prop :=
      ∃ v : Word, o = .next { s with gpio := { s.gpio with mode := s.gpio.mode.set i v } } ∧ ∀ b : Nat,
        v.getLsbD b = (decide (b < 30 ∧ 10 * i.val + b / 3 < s.soc.npins) && w.getLsbD b)
    writes 0 (exec (.wrGpioMode0 w) s) ∧ writes 1 (exec (.wrGpioMode1 w) s) ∧ writes 2 (exec (.wrGpioMode2 w) s) ∧
    writes 3 (exec (.wrGpioMode3 w) s) ∧ writes 4 (exec (.wrGpioMode4 w) s) ∧ writes 5 (exec (.wrGpioMode5 w) s)

/-- What a mode write means for the pins: pin `p` of register `p div 10` gets the field at bit `3 * (p mod 10)`, every
other pin keeps its mode, every latch its level (41_gpio.md R151, R152, R159). -/
def Obligations.ModeWriteGivesEachPinItsField : Prop :=
  ∀ (i : Fin 6) (w : Word) (s t : State), exec (writeInstr (.gpioMode i) w) s = .next t →
    ∀ p : Pin, p.val < s.soc.npins →
      pinModeCode t.gpio p =
        (if p.val / 10 = i.val then w.extractLsb' (3 * (p.val % 10)) 3 else pinModeCode s.gpio p) ∧
      outLatch t.gpio p = outLatch s.gpio p

/-- Writes of `SET0`, `SET1`, `CLR0`, `CLR1` complete and set or clear the latch of every pin of the bank whose bit is 1
and no other, whatever the pin's mode; bits that name no pin do nothing (41_gpio.md R153, R154). -/
def Obligations.TriggerWritesMoveTheLatches : Prop :=
  ∀ (w : Word) (s : State),
    let hit (j : Nat) (p : Pin) : Bool := decide (p.val / 32 = j ∧ p.val < s.soc.npins) && w.getLsbD (p.val % 32)
    let sets (j : Nat) (o : Host.Outcome State Fault Refusal) : Prop :=
      ∃ out : PinBits, o = .next { s with gpio := { s.gpio with out := out } } ∧
        ∀ p : Pin, out.getLsbD p.val = (if hit j p then true else s.gpio.out.getLsbD p.val)
    let clears (j : Nat) (o : Host.Outcome State Fault Refusal) : Prop :=
      ∃ out : PinBits, o = .next { s with gpio := { s.gpio with out := out } } ∧
        ∀ p : Pin, out.getLsbD p.val = (if hit j p then false else s.gpio.out.getLsbD p.val)
    sets 0 (exec (.wrGpioSet0 w) s) ∧ sets 1 (exec (.wrGpioSet1 w) s) ∧
    clears 0 (exec (.wrGpioClr0 w) s) ∧ clears 1 (exec (.wrGpioClr1 w) s)

/-- Reads of `SET0`, `SET1`, `CLR0`, `CLR1` complete and change nothing but the data beat returned, of whose value
nothing is said (a draw); writes of `LEV0`, `LEV1` complete and change nothing at all (41_gpio.md R155, R158). -/
def Obligations.TriggerReadsAndLevelWritesChangeNothing : Prop :=
  ∀ (w : Word) (s : State),
    (∀ i ∈ [Instr.rdGpioSet0, .rdGpioSet1, .rdGpioClr0, .rdGpioClr1],
      ∃ v : Word, exec i s = .next { s with rdata := v, draws := s.draws + 1 }) ∧
    exec (.wrGpioLev0 w) s = .next s ∧ exec (.wrGpioLev1 w) s = .next s

/-- Reads of `LEV0` and `LEV1` complete and return, for every pin, the pad's level: the environment's for an input, the
latch for an output, the bus function's for a bus pin in its alternate function; 0 for pins that do not exist (41_gpio.md
R157, R160; 10_state.md R30). A chip-select line is low exactly while `TA` is 1 and `CS` selects it (45_spi.md R312: active
low is decision D31, from general knowledge); the output data line is driven only with `REN` 0 (45_spi.md R320: decision
D32). Nothing is said of other alternate functions, whose level is a draw. -/
def Obligations.LevelReadsShowThePads : Prop :=
  ∀ s : State, socSound s.soc → ∃ v₀ v₁ : Word,
    exec .rdGpioLev0 s = .next { s with rdata := v₀, draws := s.draws + 1 } ∧
    exec .rdGpioLev1 s = .next { s with rdata := v₁, draws := s.draws + 1 } ∧
    (∀ b : Nat, s.soc.npins ≤ b → v₀.getLsbD b = false) ∧ (∀ b : Nat, s.soc.npins ≤ 32 + b → v₁.getLsbD b = false) ∧
    let pins := s.soc.pins
    let level (p : Pin) : Bool := if p.val < 32 then v₀.getLsbD p.val else v₁.getLsbD (p.val - 32)
    let env (p : Pin) : Bool := s.gpio.envIn.getLsbD p.val
    let isIn (p : Pin) (m : PinMode) : Prop := pinModeCode s.gpio p = modeCode s.soc.modeCodes m
    (∀ p : Pin, p.val < s.soc.npins → (isIn p .input → level p = env p) ∧
      (isIn p .output → level p = s.gpio.out.getLsbD p.val)) ∧
    (isIn pins.i2cSda pins.i2cAlt → level pins.i2cSda = (s.i2c.mSda && env pins.i2cSda)) ∧
    (isIn pins.i2cScl pins.i2cAlt → level pins.i2cScl = (s.i2c.mScl && env pins.i2cScl)) ∧
    (isIn pins.spiCe1 pins.spiAlt → level pins.spiCe1 = !(s.spi.ta && decide (s.spi.cs = 1))) ∧
    (isIn pins.spiCe0 pins.spiAlt → level pins.spiCe0 = !(s.spi.ta && decide (s.spi.cs = 0))) ∧
    (isIn pins.spiMiso pins.spiAlt → level pins.spiMiso = env pins.spiMiso) ∧
    (isIn pins.spiMosi pins.spiAlt → level pins.spiMosi = if s.spi.ren then env pins.spiMosi else s.spi.mosi) ∧
    (isIn pins.spiSclk pins.spiAlt → level pins.spiSclk = s.spi.sclk)

/-- What the engines see of the pins: I2C sees the wired-AND of its drive and the environment on a bus pin in its
alternate function, the released level 1 on any other; SPI sees the input line, or with `REN` the output line, where that
pin is in its alternate function, and any level at all otherwise (41_gpio.md R161, R162). -/
def Obligations.BusInputsFollowTheMultiplexer : Prop :=
  ∀ s : State,
    let pins := s.soc.pins
    let env (p : Pin) : Bool := s.gpio.envIn.getLsbD p.val
    let isIn (p : Pin) (m : PinMode) : Prop := pinModeCode s.gpio p = modeCode s.soc.modeCodes m
    (isIn pins.i2cSda pins.i2cAlt → sdaIn s = (s.i2c.mSda && env pins.i2cSda)) ∧
    (¬ isIn pins.i2cSda pins.i2cAlt → sdaIn s = true) ∧
    (isIn pins.i2cScl pins.i2cAlt → sclIn s = (s.i2c.mScl && env pins.i2cScl)) ∧
    (¬ isIn pins.i2cScl pins.i2cAlt → sclIn s = true) ∧
    (s.spi.ren = false → isIn pins.spiMiso pins.spiAlt → ∀ d, dataIn s d = env pins.spiMiso) ∧
    (s.spi.ren = true → isIn pins.spiMosi pins.spiAlt → ∀ d, dataIn s d = env pins.spiMosi) ∧
    (¬ (s.spi.ren = false ∧ isIn pins.spiMiso pins.spiAlt) → ¬ (s.spi.ren = true ∧ isIn pins.spiMosi pins.spiAlt) →
      ∀ b : Bool, ∃ d, dataIn s d = b)

/-! ## I2C registers -/

/-- Reads of `A`, `DIV`, `DEL`, `CLKT` return the stored fields, every other bit 0, and have no side effect
(42_i2c_registers.md R190, R194, R196, R198). -/
def Obligations.I2cRegisterReads : Prop :=
  ∀ s : State,
    exec .rdI2cA s = .next { s with rdata := s.i2c.addr.setWidth 32 } ∧
    exec .rdI2cDiv s = .next { s with rdata := s.i2c.cdiv.setWidth 32 } ∧
    exec .rdI2cDel s = .next { s with rdata := s.i2c.fedl.setWidth 32 <<< 16 ||| s.i2c.redl.setWidth 32 } ∧
    exec .rdI2cClkt s = .next { s with rdata := s.i2c.tout.setWidth 32 }

/-- Writes of `DLEN`, `A`, `DIV`, `DEL`, `CLKT` store their fields and change nothing else while the engine is idle
(42_i2c_registers.md R189, R191, R195, R197, R199). -/
def Obligations.I2cConfigurationWritesAtIdle : Prop :=
  ∀ (w : Word) (s : State), s.i2c.fsm = .idle →
    exec (.wrI2cDlen w) s = .next { s with i2c := { s.i2c with dlen := w.extractLsb' 0 16 } } ∧
    exec (.wrI2cA w) s = .next { s with i2c := { s.i2c with addr := w.extractLsb' 0 7 } } ∧
    exec (.wrI2cDiv w) s = .next { s with i2c := { s.i2c with cdiv := w.extractLsb' 0 16 } } ∧
    exec (.wrI2cDel w) s =
      .next { s with i2c := { s.i2c with fedl := w.extractLsb' 16 16, redl := w.extractLsb' 0 16 } } ∧
    exec (.wrI2cClkt w) s = .next { s with i2c := { s.i2c with tout := w.extractLsb' 0 16 } }

/-- Writes of a configuration register, or of the `READ` bit to another value, while a transfer is in flight are refused
(20_memory.md R93), for both buses. -/
def Obligations.ConfigurationChangeInFlightIsRefused : Prop :=
  ∀ (w : Word) (s : State),
    (s.i2c.fsm ≠ .idle →
      (∀ i ∈ [Instr.wrI2cDlen w, .wrI2cA w, .wrI2cDiv w, .wrI2cDel w, .wrI2cClkt w],
        exec i s = .refused .configChangeInFlight) ∧
      (w &&& 0x700 = 0 → w.getLsbD 0 ≠ s.i2c.read → exec (.wrI2cC w) s = .refused .configChangeInFlight)) ∧
    (s.spi.sfsm ≠ .idle →
      exec (.wrSpiClk w) s = .refused .configChangeInFlight ∧
      (w &&& 0x03E0EF40 = 0 →
        (w.extractLsb' 0 2 ≠ s.spi.cs ∨ w.getLsbD 2 ≠ s.spi.cpha ∨ w.getLsbD 3 ≠ s.spi.cpol ∨
          w.getLsbD 12 ≠ s.spi.ren) →
        exec (.wrSpiCs w) s = .refused .configChangeInFlight))

/-- A write of `I2C.C` with the engine idle: the enable and direction bits are stored, a non-zero `CLEAR` empties both
queues, a start is pending exactly if the block is enabled by this write and a start is requested or was pending; the
enable is applied before the start (42_i2c_registers.md R182 to R185). -/
def Obligations.I2cControlWriteAtIdle : Prop :=
  ∀ (w : Word) (s : State), s.i2c.fsm = .idle → w.extractLsb' 8 3 = 0 →
    exec (.wrI2cC w) s = .next { s with i2c := { s.i2c with
      i2cen := w.getLsbD 15
      read := w.getLsbD 0
      txq := if w.extractLsb' 4 2 = 0 then s.i2c.txq else []
      rxq := if w.extractLsb' 4 2 = 0 then s.i2c.rxq else []
      stPend := w.getLsbD 15 && (w.getLsbD 7 || s.i2c.stPend) } }

/-- A write of `I2C.C` during a transfer that keeps the direction and asks for no clear. With the enable cleared the
transfer is abandoned: the engine is idle, both lines are released, no pending start remains, and nothing else changes: no
flag, no queue, no `rem`, whether or not a start is asked for. With the enable kept and no start it completes and changes
nothing at all (42_i2c_registers.md R182 to R184; the start with the enable kept is refused, `I2cControlWriteRefusals`). -/
def Obligations.I2cControlWriteInFlight : Prop :=
  ∀ (w : Word) (s : State), s.i2c.fsm ≠ .idle → w.extractLsb' 8 3 = 0 → w.extractLsb' 4 2 = 0 →
    w.getLsbD 0 = s.i2c.read →
    (w.getLsbD 15 = false → exec (.wrI2cC w) s = .next { s with i2c := { s.i2c with
      i2cen := false, stPend := false, fsm := .idle, mSda := true, mScl := true } }) ∧
    (w.getLsbD 15 = true → s.i2c.i2cen = true → w.getLsbD 7 = false → exec (.wrI2cC w) s = .next s)

/-- Refused writes of `I2C.C`: an interrupt bit set, always; during a transfer, with the direction kept, a clear; during
a transfer, with the direction kept, no clear and the enable kept, a start (10_state.md R41; 42_i2c_registers.md R182,
R183, R185). -/
def Obligations.I2cControlWriteRefusals : Prop :=
  ∀ (w : Word) (s : State),
    (w &&& 0x700 ≠ 0 → exec (.wrI2cC w) s = .refused .interruptMode) ∧
    (w &&& 0x700 = 0 → s.i2c.fsm ≠ .idle → w.getLsbD 0 = s.i2c.read →
      (w &&& 0x30 ≠ 0 → exec (.wrI2cC w) s = .refused .clearInFlight) ∧
      (w &&& 0x30 = 0 → w.getLsbD 15 = true → w.getLsbD 7 = true →
        exec (.wrI2cC w) s = .refused .startWhileActive))

/-- Reads of `I2C.S`, `C` and `DLEN` complete in every state. `S` returns each flag at its bit: `TA`, `DONE`, `TXD`,
`RXD`, `TXE`, `RXF`, `ERR`, `CLKT`, bits 31:10 zero; nothing is said of `TXW` and `RXR`, which are draws. `C` returns the
enable and direction bits and nothing of `ST` and `CLEAR`; `DLEN` the length last written (42_i2c_registers.md R186, R181,
R188). -/
def Obligations.I2cStatusControlAndLengthReads : Prop :=
  ∀ s : State,
    exec .rdI2cC s =
      .next { s with rdata := (if s.i2c.i2cen then 0x8000 else 0) ||| (if s.i2c.read then 1 else 0) } ∧
    exec .rdI2cDlen s = .next { s with rdata := s.i2c.dlen.setWidth 32 } ∧
    ∃ v : Word, exec .rdI2cS s = .next { s with rdata := v, draws := s.draws + 1 } ∧
      v.getLsbD 0 = decide (s.i2c.fsm ≠ .idle) ∧ v.getLsbD 1 = s.i2c.done ∧
      v.getLsbD 4 = decide (s.i2c.txq.length < s.soc.i2cFifoDepth) ∧ v.getLsbD 5 = decide (0 < s.i2c.rxq.length) ∧
      v.getLsbD 6 = decide (s.i2c.txq.length = 0) ∧ v.getLsbD 7 = decide (s.i2c.rxq.length = s.soc.i2cFifoDepth) ∧
      v.getLsbD 8 = s.i2c.err ∧ v.getLsbD 9 = s.i2c.clkt ∧ ∀ b : Nat, 10 ≤ b → v.getLsbD b = false

/-- A write of `I2C.S` clears exactly the sticky flags written 1 (42_i2c_registers.md R187). -/
def Obligations.I2cStatusWriteClearsFlags : Prop :=
  ∀ (w : Word) (s : State),
    exec (.wrI2cS w) s = .next { s with i2c := { s.i2c with
      done := if w.getLsbD 1 then false else s.i2c.done
      err := if w.getLsbD 8 then false else s.i2c.err
      clkt := if w.getLsbD 9 then false else s.i2c.clkt } }

/-- A write of either FIFO register pushes the low byte at the tail of the transmit queue and changes nothing else,
whatever the block is doing; with the queue full it is refused (42_i2c_registers.md R192, 45_spi.md R306). -/
def Obligations.FifoWritesPushOneByte : Prop :=
  ∀ (w : Word) (s : State),
    (s.i2c.txq.length ≠ s.soc.i2cFifoDepth → exec (.wrI2cFifo w) s =
      .next { s with i2c := { s.i2c with txq := s.i2c.txq ++ [w.extractLsb' 0 8] } }) ∧
    (s.i2c.txq.length = s.soc.i2cFifoDepth → exec (.wrI2cFifo w) s = .refused .fifoFull) ∧
    (s.spi.txq.length ≠ s.soc.spiFifoDepth → exec (.wrSpiFifo w) s =
      .next { s with spi := { s.spi with txq := s.spi.txq ++ [w.extractLsb' 0 8] } }) ∧
    (s.spi.txq.length = s.soc.spiFifoDepth → exec (.wrSpiFifo w) s = .refused .fifoFull)

/-- A read of either FIFO register takes the head of the receive queue and returns it in bits 7:0, bits 31:8 zero; with
the queue empty it returns some byte (a draw) and no queue changes (42_i2c_registers.md R193, 45_spi.md R307). -/
def Obligations.FifoReadsPopOneByte : Prop :=
  ∀ s : State,
    (∀ (b : Byte) (q : List Byte), s.i2c.rxq = b :: q →
      exec .rdI2cFifo s = .next { s with i2c := { s.i2c with rxq := q }, rdata := b.setWidth 32 }) ∧
    (s.i2c.rxq = [] → ∃ b : Byte, exec .rdI2cFifo s = .next { s with rdata := b.setWidth 32, draws := s.draws + 1 }) ∧
    (∀ (b : Byte) (q : List Byte), s.spi.rxq = b :: q →
      exec .rdSpiFifo s = .next { s with spi := { s.spi with rxq := q }, rdata := b.setWidth 32 }) ∧
    (s.spi.rxq = [] → ∃ b : Byte, exec .rdSpiFifo s = .next { s with rdata := b.setWidth 32, draws := s.draws + 1 })

/-! ## SPI registers -/

/-- A read of `SPI.CS` completes in every state and returns each field and flag at its bits, every other bit zero;
nothing is said of `RXR`, a draw (45_spi.md R301, R321). -/
def Obligations.SpiStatusReadShowsFieldsAndFlags : Prop :=
  ∀ s : State, ∃ v : Word, exec .rdSpiCs s = .next { s with rdata := v, draws := s.draws + 1 } ∧
    v.extractLsb' 0 2 = s.spi.cs ∧ v.getLsbD 2 = s.spi.cpha ∧ v.getLsbD 3 = s.spi.cpol ∧
    v.getLsbD 7 = s.spi.ta ∧ v.getLsbD 12 = s.spi.ren ∧
    v.getLsbD 16 = decide (s.spi.ta = true ∧ s.spi.txq = [] ∧ s.spi.sfsm = .idle) ∧
    v.getLsbD 17 = decide (s.spi.rxq ≠ []) ∧ v.getLsbD 18 = decide (s.spi.txq.length < s.soc.spiFifoDepth) ∧
    v.getLsbD 20 = decide (s.spi.rxq.length = s.soc.spiFifoDepth) ∧ v &&& 0xFFE0EF70 = 0

/-- A write of `SPI.CS` with the engine idle stores the six control bits, moves the resting clock line to `CPOL`,
empties the queues named, and changes nothing else; read-only and reserved bits are ignored (45_spi.md R302, R304, R305,
R311). -/
def Obligations.SpiControlWriteAtRest : Prop :=
  ∀ (w : Word) (s : State), s.spi.sfsm = .idle → w &&& 0x03E0EF40 = 0 →
    exec (.wrSpiCs w) s = .next { s with spi := { s.spi with
      cs := w.extractLsb' 0 2
      cpha := w.getLsbD 2
      cpol := w.getLsbD 3
      ta := w.getLsbD 7
      ren := w.getLsbD 12
      sclk := w.getLsbD 3
      txq := if w.getLsbD 4 then [] else s.spi.txq
      rxq := if w.getLsbD 5 then [] else s.spi.rxq } }

/-- A write of `SPI.CS` that keeps the configuration while a byte is in flight: with `TA` kept at 1 only the named queues
are emptied; with `TA` cleared the byte is dropped, the engine idles, the clock line rests and nothing is pushed
(45_spi.md R302, R304, R305). That the shift registers of the dropped byte keep what they hold is the model's choice
(log 34): R304 states no value. -/
def Obligations.SpiControlWriteInFlight : Prop :=
  ∀ (w : Word) (s : State), s.spi.sfsm ≠ .idle → s.spi.ta = true → w &&& 0x03E0EF40 = 0 →
    w.extractLsb' 0 2 = s.spi.cs → w.getLsbD 2 = s.spi.cpha → w.getLsbD 3 = s.spi.cpol → w.getLsbD 12 = s.spi.ren →
    (w.getLsbD 7 = true → exec (.wrSpiCs w) s = .next { s with spi := { s.spi with
      txq := if w.getLsbD 4 then [] else s.spi.txq
      rxq := if w.getLsbD 5 then [] else s.spi.rxq } }) ∧
    (w.getLsbD 7 = false → exec (.wrSpiCs w) s = .next { s with spi := { s.spi with
      ta := false
      sfsm := .idle
      sbit := 0
      sclk := s.spi.cpol
      txq := if w.getLsbD 4 then [] else s.spi.txq
      rxq := if w.getLsbD 5 then [] else s.spi.rxq } })

/-- A write of `SPI.CS` with any "must be 0" bit set is refused in every state (10_state.md R60). -/
def Obligations.SpiOutOfScopeModesAreRefused : Prop :=
  ∀ (w : Word) (s : State) (n : Nat), n ∈ [6, 8, 9, 10, 11, 13, 14, 15, 21, 22, 23, 24, 25] → w.getLsbD n = true →
    exec (.wrSpiCs w) s = .refused .modeOutOfScope

/-- `SPI.CLK` reads back its 16 bits and is written only between bytes (45_spi.md R308, R309). -/
def Obligations.SpiClockRegister : Prop :=
  ∀ (w : Word) (s : State),
    exec .rdSpiClk s = .next { s with rdata := s.spi.cdiv.setWidth 32 } ∧
    (s.spi.sfsm = .idle → exec (.wrSpiClk w) s = .next { s with spi := { s.spi with cdiv := w.extractLsb' 0 16 } })

/-! ## The I2C engine -/

/-- `T_START` latches direction, length and address byte and makes the START condition once both lines are free; whether
it clears `DONE` is the parameter `I2C_DONE_AUTOCLEAR`. While a line reads 0 the start waits and the engine's turn
changes nothing. `T_START_HOLD` pulls the clock low, opening the first cell, and changes nothing else
(43_i2c_engine.md R222 to R224). -/
def Obligations.StartLatchesTheTransfer : Prop :=
  ∀ s : State, s.i2c.i2cen = true →
    (s.i2c.fsm = .idle → s.i2c.stPend = true → sdaIn s = true → sclIn s = true →
      i2cEngineTurn s = .next { s with i2c := { s.i2c with
        stPend := false, rd := s.i2c.read, rem := s.i2c.dlen, sh := s.i2c.addr ++ BitVec.ofBool s.i2c.read, ph := .addr,
        cell := 0, nack := false, stretch := 0, done := if s.soc.i2cDoneAutoclear then false else s.i2c.done,
        mSda := false, fsm := .startHold } }) ∧
    (s.i2c.fsm = .idle → s.i2c.stPend = true → sdaIn s = false ∨ sclIn s = false → i2cEngineTurn s = .next s) ∧
    (s.i2c.fsm = .startHold →
      i2cEngineTurn s = .next { s with i2c := { s.i2c with mScl := false, fsm := .cellDrive } })

/-- The four transitions of a cell (43_i2c_engine.md R225 to R228), on an enabled block: what SDA is driven to, the
release of SCL, what is sampled, and the end of the cell. -/
def Obligations.OneCell : Prop :=
  ∀ (soc : Soc) (sda scl : Bool) (c : I2c), c.i2cen = true →
    (c.fsm = .cellDrive → i2cTransition soc sda scl c = some { c with
      fsm := .cellRise
      mSda :=
        if c.cell.val < 8 then (if c.ph = .rx then true else c.sh.getLsbD (7 - c.cell.val))
        else if c.ph = .rx then decide (c.rem = 0) else true }) ∧
    (c.fsm = .cellRise → i2cTransition soc sda scl c = some { c with mScl := true, stretch := 0, fsm := .cellSample }) ∧
    (c.fsm = .cellSample → scl = true → i2cTransition soc sda scl c = some { c with
      fsm := .cellFall
      sh := if c.cell.val < 8 ∧ c.ph = .rx then c.sh <<< 1 ||| (BitVec.ofBool sda).setWidth 8 else c.sh
      nack := if c.cell.val = 8 ∧ c.ph ≠ .rx then sda else c.nack }) ∧
    (c.fsm = .cellFall →
      (c.cell.val < 7 → ∃ k : Fin 9, k.val = c.cell.val + 1 ∧
        i2cTransition soc sda scl c = some { c with mScl := false, cell := k, fsm := .cellDrive }) ∧
      (c.cell.val = 7 → c.ph ≠ .rx →
        i2cTransition soc sda scl c = some { c with mScl := false, cell := 8, fsm := .cellDrive }) ∧
      (c.cell.val = 7 → c.ph = .rx → c.rem ≠ 0 → i2cTransition soc sda scl c = some { c with
        mScl := false, rxq := c.rxq ++ [c.sh], rem := c.rem - 1, cell := 8, fsm := .cellDrive }) ∧
      (c.cell.val = 8 → c.ph = .tx → c.nack = false → c.rem ≠ 0 →
        i2cTransition soc sda scl c = some { c with mScl := false, rem := c.rem - 1, fsm := .byteNext }) ∧
      (c.cell.val = 8 → ¬ (c.ph = .tx ∧ c.nack = false) →
        i2cTransition soc sda scl c = some { c with mScl := false, fsm := .byteNext }))

/-- `T_NEXT` after the address byte, after a byte sent, and after a byte received, with the stall (43_i2c_engine.md R229
to R232), on an enabled block. -/
def Obligations.BetweenBytes : Prop :=
  ∀ (soc : Soc) (sda scl : Bool) (c : I2c), c.i2cen = true → c.fsm = .byteNext →
    let error : Option I2c := some { c with err := true, fsm := .stopDrive }
    let finish : Option I2c := some { c with fsm := .stopDrive }
    let send (b : Byte) (q : List Byte) : Option I2c :=
      some { c with sh := b, txq := q, ph := .tx, cell := 0, fsm := .cellDrive }
    let receive : Option I2c := some { c with sh := 0, ph := .rx, cell := 0, fsm := .cellDrive }
    (c.ph ≠ .rx → c.nack = true → i2cTransition soc sda scl c = error) ∧
    (c.ph ≠ .rx → c.nack = false → c.rem = 0 → i2cTransition soc sda scl c = finish) ∧
    (c.ph = .rx → c.rem = 0 → i2cTransition soc sda scl c = finish) ∧
    (c.ph = .tx ∨ (c.ph = .addr ∧ c.rd = false) → c.nack = false → c.rem ≠ 0 →
      (∀ b q, c.txq = b :: q → i2cTransition soc sda scl c = send b q) ∧
      (c.txq = [] → i2cTransition soc sda scl c = none)) ∧
    (c.ph = .rx ∨ (c.ph = .addr ∧ c.rd = true ∧ c.nack = false) → c.rem ≠ 0 →
      (c.rxq.length < soc.i2cFifoDepth → i2cTransition soc sda scl c = receive) ∧
      (soc.i2cFifoDepth ≤ c.rxq.length → i2cTransition soc sda scl c = none))

/-- A stall is lifted by the FIFO access it waits for: after a byte is written, or a byte read, the engine has a
transition again, where queues have room for a byte at all (43_i2c_engine.md R232). -/
def Obligations.FifoAccessLiftsTheStall : Prop :=
  ∀ (sda scl : Bool) (w : Word) (s : State), s.i2c.i2cen = true → s.i2c.fsm = .byteNext → s.i2c.rem ≠ 0 →
    0 < s.soc.i2cFifoDepth → i2cTransition s.soc sda scl s.i2c = none → i2cQueuesFit s.soc s.i2c →
    (s.i2c.ph = .tx ∨ (s.i2c.ph = .addr ∧ s.i2c.rd = false) →
      ∃ t : State, exec (.wrI2cFifo w) s = .next t ∧
        ∃ c, i2cTransition t.soc sda scl t.i2c = some c ∧ c.fsm = .cellDrive ∧ c.sh = w.extractLsb' 0 8) ∧
    (s.i2c.ph = .rx ∨ (s.i2c.ph = .addr ∧ s.i2c.rd = true) →
      ∃ t : State, exec .rdI2cFifo s = .next t ∧
        ∃ c, i2cTransition t.soc sda scl t.i2c = some c ∧ c.fsm = .cellDrive ∧ c.ph = .rx)

/-- The three transitions of STOP (43_i2c_engine.md R234, R235, R237), on an enabled block: SDA rises while SCL is high,
`DONE` and idle in the one step. -/
def Obligations.StopSequence : Prop :=
  ∀ (soc : Soc) (sda scl : Bool) (c : I2c), c.i2cen = true →
    (c.fsm = .stopDrive → i2cTransition soc sda scl c = some { c with mSda := false, fsm := .stopRise }) ∧
    (c.fsm = .stopRise → i2cTransition soc sda scl c = some { c with mScl := true, stretch := 0, fsm := .stopWait }) ∧
    (c.fsm = .stopWait → scl = true →
      i2cTransition soc sda scl c = some { c with mSda := true, done := true, fsm := .idle })

/-- Clock stretching: while SCL is held low the count rises, saturating; reaching a non-zero `TOUT` it aborts in that
step: `CLKT` set, lines released, idle; `DONE`, `ERR`, the queues and `rem` unchanged (43_i2c_engine.md R240, R241). -/
def Obligations.StretchCountsAndTimesOut : Prop :=
  ∀ (soc : Soc) (sda : Bool) (c : I2c), c.i2cen = true → c.fsm = .cellSample ∨ c.fsm = .stopWait →
    ∃ n : BitVec 16, n.toNat = min (c.stretch.toNat + 1) 65535 ∧
      (c.tout = 0 ∨ n.toNat < c.tout.toNat → i2cTransition soc sda false c = some { c with stretch := n }) ∧
      (c.tout ≠ 0 → c.tout.toNat ≤ n.toNat → i2cTransition soc sda false c = some { c with
        stretch := n, clkt := true, mSda := true, mScl := true, fsm := .idle })

/-- Every transition goes from and to the places of the transition table, and a disabled block has none
(43_i2c_engine.md R246, 10_state.md R39). -/
def Obligations.I2cTransitionTable : Prop :=
  ∀ (soc : Soc) (sda scl : Bool) (c c' : I2c), i2cTransition soc sda scl c = some c' →
    c.i2cen = true ∧
    (c.fsm, c'.fsm) ∈ [(I2cFsm.idle, I2cFsm.startHold), (.startHold, .cellDrive), (.cellDrive, .cellRise),
      (.cellRise, .cellSample), (.cellSample, .cellFall), (.cellSample, .cellSample), (.cellSample, .idle),
      (.cellFall, .cellDrive), (.cellFall, .byteNext), (.byteNext, .cellDrive), (.byteNext, .stopDrive),
      (.stopDrive, .stopRise), (.stopRise, .stopWait), (.stopWait, .idle), (.stopWait, .stopWait)]

/-- What the I2C engine writes: its hidden state, the line drives, the sticky flags (which it only sets, but that
`T_START` clears `DONE` under `I2C_DONE_AUTOCLEAR`), a pop of `txq`, a push on `rxq`; never `C`, `A`, `DLEN`, `DIV`,
`DEL`, `CLKT`, and nothing outside its block (43_i2c_engine.md R220, R222). -/
def Obligations.I2cEngineFrame : Prop :=
  ∀ s t : State, i2cEngineTurn s = .next t →
    t = { s with i2c := t.i2c } ∧
    t.i2c.i2cen = s.i2c.i2cen ∧ t.i2c.read = s.i2c.read ∧ t.i2c.addr = s.i2c.addr ∧ t.i2c.dlen = s.i2c.dlen ∧
    t.i2c.cdiv = s.i2c.cdiv ∧ t.i2c.fedl = s.i2c.fedl ∧ t.i2c.redl = s.i2c.redl ∧ t.i2c.tout = s.i2c.tout ∧
    (s.i2c.done = true → t.i2c.done = true ∨
      (s.soc.i2cDoneAutoclear = true ∧ s.i2c.fsm = .idle ∧ t.i2c.fsm = .startHold)) ∧
    (s.i2c.err = true → t.i2c.err = true) ∧ (s.i2c.clkt = true → t.i2c.clkt = true) ∧
    (t.i2c.txq = s.i2c.txq ∨ ∃ b, s.i2c.txq = b :: t.i2c.txq) ∧
    (t.i2c.rxq = s.i2c.rxq ∨ ∃ b, t.i2c.rxq = s.i2c.rxq ++ [b])

/-- `S.DONE` is set by the STOP release and by nothing else in the whole machine, whoever takes the turn; the reset value
of `DONE` is 0, as in the default (43_i2c_engine.md R238; 10_state.md R70). -/
def Obligations.DoneIsSetOnlyByTheStopRelease : Prop :=
  ∀ (τ : Turn) (s t : State), takeTurn τ s = .next t → s.soc.resetI2c.done = false → s.i2c.done = false →
    t.i2c.done = true →
    τ = .i2cEngine ∧ s.i2c.fsm = .stopWait ∧ sclIn s = true ∧ t.i2c.fsm = .idle ∧ t.i2c.mSda = true

/-- `S.ERR` is set by `T_NEXT` after a byte the master sent was not acknowledged and by nothing else in the whole
machine, whoever takes the turn; the engine then goes to STOP. The reset value of `ERR` is 0, as in the default
(43_i2c_engine.md R239; 10_state.md R70). -/
def Obligations.ErrIsSetOnlyByAMissingAcknowledge : Prop :=
  ∀ (τ : Turn) (s t : State), takeTurn τ s = .next t → s.soc.resetI2c.err = false → s.i2c.err = false →
    t.i2c.err = true →
    τ = .i2cEngine ∧ s.i2c.fsm = .byteNext ∧ s.i2c.ph ≠ .rx ∧ s.i2c.nack = true ∧ t.i2c.fsm = .stopDrive

/-- `S.CLKT` is set only by a clock held low for `TOUT` periods, `TOUT` not 0, in the whole machine, whoever takes the
turn; the engine is then idle with both lines released. The reset value of `CLKT` is 0, as in the default
(60_exceptions.md R372, 43_i2c_engine.md R241; 10_state.md R70). -/
def Obligations.ClktIsSetOnlyByTheClockTimeout : Prop :=
  ∀ (τ : Turn) (s t : State), takeTurn τ s = .next t → s.soc.resetI2c.clkt = false → s.i2c.clkt = false →
    t.i2c.clkt = true →
    τ = .i2cEngine ∧ (s.i2c.fsm = .cellSample ∨ s.i2c.fsm = .stopWait) ∧ sclIn s = false ∧
      s.i2c.tout ≠ 0 ∧ s.i2c.tout.toNat ≤ t.i2c.stretch.toNat ∧ t.i2c.fsm = .idle ∧ t.i2c.mSda = true ∧
      t.i2c.mScl = true

/-- Entry on a missing acknowledge: from the engine's decision after the byte, four steps end the frame, whatever the
lines read but that the clock is high when STOP waits for it: `ERR` and `DONE` set, idle, lines released, the unsent bytes
and every register kept (60_exceptions.md R381). -/
def Obligations.MissingAcknowledgeEndsWithStop : Prop :=
  ∀ (soc : Soc) (c : I2c) (a₁ a₂ a₃ : Bool × Bool) (sda : Bool), c.i2cen = true → c.fsm = .byteNext → c.ph ≠ .rx →
    c.nack = true →
    i2cRun soc [a₁, a₂, a₃, (sda, true)] c =
      some { c with err := true, done := true, fsm := .idle, mSda := true, mScl := true, stretch := 0 }

/-- A whole write frame: from an enabled idle block with a pending start and as many bytes queued as `DLEN` says,
`5 + 37 * (n + 1)` engine steps, at which the lines may read anything but that both are high at the start, the clock is
high at every sample and when STOP waits for it, and the data line is low at every acknowledge. At the sample of cell `k`
of byte `j` (byte 0 the address byte, byte `j + 1` the `j`-th queued) the clock is released and the data line driven to
bit `7 - k`, released at the acknowledge. At the end: `DONE`, no new `ERR`, idle, lines released, queue empty, `rem` 0,
and every register kept (43_i2c_engine.md R221, R247). -/
def Obligations.WriteFrameRunsToItsEnd : Prop :=
  ∀ (soc : Soc) (c : I2c) (l : List (Bool × Bool)), c.fsm = .idle → c.i2cen = true → c.stPend = true → c.read = false →
    c.dlen.toNat = c.txq.length → l.length = 5 + 37 * (c.txq.length + 1) → l[0]? = some (true, true) →
    (∀ j k : Nat, j ≤ c.txq.length → k < 9 →
      ∃ sda, l[2 + 37 * j + 4 * k + 2]? = some (sda, true) ∧ (k = 8 → sda = false)) →
    (∃ sda, l[4 + 37 * (c.txq.length + 1)]? = some (sda, true)) →
    (∀ (j k : Nat) (b : Byte), ((c.addr ++ 0#1) :: c.txq)[j]? = some b → k < 9 →
      ∃ c' : I2c, i2cRun soc (l.take (2 + 37 * j + 4 * k + 2)) c = some c' ∧ c'.fsm = .cellSample ∧ c'.mScl = true ∧
        c'.mSda = if k = 8 then true else b.getLsbD (7 - k)) ∧
    ∃ c' : I2c, i2cRun soc l c = some c' ∧
      c'.fsm = .idle ∧ c'.done = true ∧ c'.err = c.err ∧ c'.clkt = c.clkt ∧ c'.txq = [] ∧ c'.rxq = c.rxq ∧
      c'.rem = 0 ∧ c'.mSda = true ∧ c'.mScl = true ∧ c'.stPend = false ∧ c'.i2cen = true ∧ c'.read = false ∧
      c'.dlen = c.dlen ∧ c'.addr = c.addr ∧ c'.cdiv = c.cdiv ∧ c'.fedl = c.fedl ∧ c'.redl = c.redl ∧ c'.tout = c.tout

/-- The absent slave: whatever the address, direction and length, the frame is the address byte alone and ends after 42
steps, at which the lines may read anything but that both are high at the start, the clock is high at every sample and
when STOP waits for it, and the data line is high at the acknowledge: `ERR` and `DONE`, the queues untouched and `rem`
still `DLEN` (43_i2c_engine.md R239, R247). -/
def Obligations.AbsentSlaveFrame : Prop :=
  ∀ (soc : Soc) (c : I2c) (l : List (Bool × Bool)), c.fsm = .idle → c.i2cen = true → c.stPend = true →
    l.length = 42 → l[0]? = some (true, true) →
    (∀ k : Nat, k < 9 → ∃ sda, l[2 + 4 * k + 2]? = some (sda, true) ∧ (k = 8 → sda = true)) →
    (∃ sda, l[41]? = some (sda, true)) →
    ∃ c' : I2c, i2cRun soc l c = some c' ∧
      c'.fsm = .idle ∧ c'.err = true ∧ c'.done = true ∧ c'.clkt = c.clkt ∧ c'.rem = c.dlen ∧ c'.txq = c.txq ∧
      c'.rxq = c.rxq ∧ c'.mSda = true ∧ c'.mScl = true ∧ c'.stPend = false ∧ c'.i2cen = true

/-! ## The SPI engine -/

/-- `T_LOAD` takes a byte exactly when a transfer is active, a byte is queued and there is room for its answer
(45_spi.md R313, R319). -/
def Obligations.SpiLoadGate : Prop :=
  ∀ (soc : Soc) (din : Bool) (c : Spi), c.sfsm = .idle →
    (∀ b q, c.ta = true → c.txq = b :: q → c.rxq.length < soc.spiFifoDepth →
      spiTransition soc din c = some { c with ssh := b, txq := q, srx := 0, sbit := 0, sfsm := .setup }) ∧
    (c.ta = false ∨ c.txq = [] ∨ soc.spiFifoDepth ≤ c.rxq.length → spiTransition soc din c = none)

/-- One bit, for both clock phases, and the end of the byte (45_spi.md R314, R315, R317, R318): what is driven before and
at the leading edge, what is sampled at which edge, where the clock line goes, and the push of the byte received. -/
def Obligations.SpiOneBit : Prop :=
  ∀ (soc : Soc) (din : Bool) (c : Spi),
    let bit := c.ssh.getLsbD (7 - c.sbit.val)
    let sampled := c.srx <<< 1 ||| (BitVec.ofBool din).setWidth 8
    (c.sfsm = .setup → spiTransition soc din c = some { c with sfsm := .lead, mosi := if c.cpha then c.mosi else bit }) ∧
    (c.sfsm = .lead → spiTransition soc din c = some { c with
      sfsm := .trail
      sclk := !c.cpol
      mosi := if c.cpha then bit else c.mosi
      srx := if c.cpha then c.srx else sampled }) ∧
    (c.sfsm = .trail → ∃ k : Fin 8, k.val = min (c.sbit.val + 1) 7 ∧ spiTransition soc din c = some { c with
      sfsm := if c.sbit.val < 7 then .setup else .store
      sbit := k
      sclk := c.cpol
      srx := if c.cpha then sampled else c.srx }) ∧
    (c.sfsm = .store → spiTransition soc din c = some { c with rxq := c.rxq ++ [c.srx], sbit := 0, sfsm := .idle })

/-- A whole byte in any clock mode: 26 steps take the head of `txq` and append the eight levels of the input, most
significant bit first, sampled at the leading edges (`CPHA` 0) or the trailing edges (`CPHA` 1); when bit `7 - k` of the
answer is sampled, bit `7 - k` of the byte sent stands on the output line. The configuration stays, the engine is idle and
the clock line rests (45_spi.md R316, R323). -/
def Obligations.SpiByteExchange : Prop :=
  ∀ (soc : Soc) (c : Spi) (b answer : Byte) (q : List Byte) (din : List Bool),
    let edge (k : Nat) : Nat := 3 * k + (if c.cpha then 3 else 2)
    c.sfsm = .idle → c.ta = true → c.txq = b :: q → c.rxq.length < soc.spiFifoDepth → din.length = 26 →
    (∀ k : Nat, k < 8 → din[edge k]? = some (answer.getLsbD (7 - k))) →
    (∀ k : Nat, k < 8 → ∃ c' : Spi, spiRun soc (din.take (edge k)) c = some c' ∧ c'.mosi = b.getLsbD (7 - k) ∧
      c'.sfsm = if c.cpha then .trail else .lead) ∧
    ∃ c' : Spi, spiRun soc din c = some c' ∧ c'.txq = q ∧ c'.rxq = c.rxq ++ [answer] ∧ c'.sfsm = .idle ∧ c'.sbit = 0 ∧
      c'.sclk = c.cpol ∧ c'.mosi = b.getLsbD 0 ∧ c'.ta = true ∧ c'.cs = c.cs ∧ c'.cpha = c.cpha ∧
      c'.cpol = c.cpol ∧ c'.ren = c.ren ∧ c'.cdiv = c.cdiv

/-- What the SPI engine writes: its hidden state, the two lines, a pop of `txq`, a push on `rxq`; no stored bit of `CS`,
not `CLK`, and nothing outside its block but the model's count of free values (45_spi.md R310). -/
def Obligations.SpiEngineFrame : Prop :=
  ∀ s t : State, spiEngineTurn s = .next t →
    t = { s with spi := t.spi, draws := t.draws } ∧ t.spi.cs = s.spi.cs ∧ t.spi.cpha = s.spi.cpha ∧
    t.spi.cpol = s.spi.cpol ∧ t.spi.ta = s.spi.ta ∧ t.spi.ren = s.spi.ren ∧ t.spi.cdiv = s.spi.cdiv ∧
    (t.spi.txq = s.spi.txq ∨ ∃ b, s.spi.txq = b :: t.spi.txq) ∧
    (t.spi.rxq = s.spi.rxq ∨ ∃ b, t.spi.rxq = s.spi.rxq ++ [b])

/-! ## The whole machine -/

/-- Right after reset, with the default parameters: both engines idle, no start pending, the four lines the block drives at
rest, every pin an input; a read of `SPI.CS` gives 0x00041000 and of `I2C.S` 0x00000050, draw bits apart
(70_reset_and_hazards.md R401, 10_state.md R70). -/
def Obligations.ResetState : Prop :=
  let s := State.reset
  s.soc = Soc.bcm283x ∧ s.i2c.fsm = .idle ∧ s.spi.sfsm = .idle ∧ s.i2c.stPend = false ∧ s.i2c.mSda = true ∧
  s.i2c.mScl = true ∧ s.spi.sclk = false ∧ chipEnable s.spi 0 = true ∧ chipEnable s.spi 1 = true ∧
  (∀ p : Pin, pinInMode s p .input = true) ∧
  (∀ d, spiStatusWord s.soc s.spi d &&& 0xFFF7FFFF = 0x00041000) ∧
  (∀ d, i2cStatusWord s.soc s.i2c d &&& 0xFFFFFFF3 = 0x00000050)

/-- The state after reset is sound. What sound means is the model's (`stateSound`); each part names its rule there. -/
def Obligations.ResetIsSound : Prop :=
  stateSound State.reset

/-- Every step, whoever takes it, keeps a sound state sound and the parameters as they are: reserved mode bits 0; queues
within their depth; the I2C lines where the engine holds them; a disabled block idle; data bytes only while there is one
to move and room for it; the SPI clock at rest and the byte in flight only during a transfer; at most one operation in
progress on a bus or a mode register; a window mapped only between `init` and teardown (10_state.md R24, R52, R64, R69;
20_memory.md R83, R92; 43_i2c_engine.md R228, R232, R243; 45_spi.md R311, R318). -/
def Obligations.EveryStepKeepsSoundness : Prop :=
  ∀ s t : State, stateSound s → step s = .next t → stateSound t ∧ t.soc = s.soc

/-! ## The driver -/

/-- One poll of an I2C await, on the one value read: the error flag first, the clock timeout second, the awaited flag
third, else the deadline is looked at; both errors enter the abort path that disables the bus (44_i2c_host.md R281,
60_exceptions.md R379). The other operations in progress go on as they were. -/
def Obligations.I2cAwaitTestsInOrder : Prop :=
  ∀ (s : State) (n : Nat) (k : Task) (flag : Word) (rest : List HostCmd), s.mapped.i2c = true →
    s.tasks[n]? = some k → (s.tasks.eraseIdx n).any midUpdate = false →
    k.cont = .poll .i2c flag :: rest → rest ≠ [] →
    let goesOn (k' : Task) : List Task := s.tasks.set n k'
    let judged (passed : Bool) : List Task :=
      goesOn { k with cont := if passed then rest else .expire .i2c flag :: rest }
    ∃ t : State, hostTurn n s = .next t ∧ t.i2c = s.i2c ∧ t.spi = s.spi ∧ t.gpio = s.gpio ∧
      (s.i2c.err = true → t.tasks = goesOn { k with cont := disableBus, failed := some .noResponse }) ∧
      (s.i2c.err = false → s.i2c.clkt = true →
        t.tasks = goesOn { k with cont := disableBus, failed := some .clockTimeout }) ∧
      (s.i2c.err = false → s.i2c.clkt = false →
        (flag = 0x001 → t.tasks = judged (decide (s.i2c.fsm ≠ .idle))) ∧
        (flag = 0x002 → t.tasks = judged s.i2c.done) ∧
        (flag = 0x010 → t.tasks = judged (decide (s.i2c.txq.length < s.soc.i2cFifoDepth))) ∧
        (flag = 0x020 → t.tasks = judged (decide (s.i2c.rxq ≠ []))))

/-- An await's deadline is computed once, at its start, and tested strictly: past it the operation fails with
`HardwareTimeout`, else it polls again; an I2C operation disables the bus first, an SPI operation writes nothing and
returns at once, an array read with the number of bytes read so far, an array write with the number handed over so far
(44_i2c_host.md R281, 46_spi_host.md R359, R362, R363, R365; 60_exceptions.md R384). -/
def Obligations.AwaitDeadline : Prop :=
  ∀ (s : State) (n : Nat) (k : Task) (b : Bus) (flag : Word) (rest : List HostCmd), s.tasks[n]? = some k →
    (s.tasks.eraseIdx n).any midUpdate = false →
    (k.cont = .await b flag :: rest → hostTurn n s = .next { s with tasks := s.tasks.set n { k with
      deadline := s.now + Config.ticks (match b with | .i2c => s.i2cTimeoutMs | .spi => s.spiTimeoutMs)
      cont := .poll b flag :: rest } }) ∧
    (k.cont = .expire b flag :: rest → s.now ≤ k.deadline →
      hostTurn n s = .next { s with tasks := s.tasks.set n { k with cont := .poll b flag :: rest } }) ∧
    (k.cont = .expire .i2c flag :: rest → k.deadline < s.now →
      hostTurn n s = .next { s with
        tasks := s.tasks.set n { k with cont := disableBus, failed := some .hardwareTimeout } }) ∧
    (k.cont = .expire .spi flag :: rest → k.deadline < s.now →
      hostTurn n s = .next { s with
        tasks := s.tasks.eraseIdx n
        result := some (match k.op with
          | .spiRead _ => .errorAfter .hardwareTimeout k.out.length
          | .spiWrite _ => .errorAfter .hardwareTimeout k.count
          | _ => .error .hardwareTimeout) })

/-- The abort path of an I2C operation takes two host steps, is never refused, and always ends with the bus disabled,
the engine idle, both lines released and no start pending, returning the error; the sticky flags, the queues, the
configuration and the other operations in progress are as they were (60_exceptions.md R383, 44_i2c_host.md R289). -/
def Obligations.I2cErrorsDisableTheBus : Prop :=
  ∀ (s : State) (n : Nat) (k : Task) (e : DriverError), s.mapped.i2c = true → s.tasks[n]? = some k →
    (s.tasks.eraseIdx n).any midUpdate = false → k.cont = disableBus →
    k.failed = some e → (∀ n, k.op ≠ .spiRead n) → (∀ data, k.op ≠ .spiWrite data) →
    ∃ t : State, runTurns [.host n, .host n] s = .next t ∧ t.tasks = s.tasks.eraseIdx n ∧ t.result = some (.error e) ∧
      t.i2c.i2cen = false ∧ t.i2c.fsm = .idle ∧ t.i2c.stPend = false ∧
      (i2cLinesFollow s.i2c → t.i2c.mSda = true ∧ t.i2c.mScl = true) ∧
      t.i2c.read = s.i2c.read ∧ t.i2c.done = s.i2c.done ∧ t.i2c.err = s.i2c.err ∧ t.i2c.clkt = s.i2c.clkt ∧
      t.i2c.txq = s.i2c.txq ∧ t.i2c.rxq = s.i2c.rxq ∧ t.i2c.addr = s.i2c.addr ∧ t.i2c.dlen = s.i2c.dlen ∧
      t.i2c.cdiv = s.i2c.cdiv ∧ t.i2c.fedl = s.i2c.fedl ∧ t.i2c.redl = s.i2c.redl ∧ t.i2c.tout = s.i2c.tout ∧
      t.i2c.rem = s.i2c.rem ∧ t.spi = s.spi ∧ t.gpio = s.gpio

/-- `set_pin_mode`: four host steps put the pin (taken modulo the pin count) in the mode and leave every other pin's mode
and every latch as it was (41_gpio.md R167, R171). It runs beside any operation that does not use its mode register. -/
def Obligations.SetPinModeSetsOneField : Prop :=
  ∀ (s : State) (pin : Nat) (m : PinMode), socSound s.soc → s.mapped.gpio = true →
    inUse s (claimsOf s.soc (.setPinMode pin m)) = false → s.tasks.any midUpdate = false →
    let n := s.tasks.length
    ∃ t : State, runTurns [.call (.setPinMode pin m), .host n, .host n, .host n, .host n] s = .next t ∧
      t.tasks = s.tasks ∧ t.result = some .ok ∧ t.i2c = s.i2c ∧ t.spi = s.spi ∧ t.gpio.out = s.gpio.out ∧
      ∀ p : Pin, p.val < s.soc.npins → pinModeCode t.gpio p =
        if p.val = pin % s.soc.npins then modeCode s.soc.modeCodes m else pinModeCode s.gpio p

/-- `set_pin_high` then `get_pin_level` observes high on a pin in OUTPUT mode, and `set_pin_low` then `get_pin_level`
low; an INPUT pin shows the environment's level instead (41_gpio.md R168 to R171). -/
def Obligations.PinLevelReadsBackOnOutputs : Prop :=
  ∀ (s : State) (pin : Nat), socSound s.soc → s.mapped.gpio = true → s.tasks.any midUpdate = false →
    let n := s.tasks.length
    let readBack (op : DriverOp) := runTurns [.call op, .host n, .call (.getPinLevel pin), .host n] s
    (pinInMode s (pinOfArg s.soc pin) .output = true →
      (∃ t, readBack (.setPinHigh pin) = .next t ∧ t.result = some (.level true)) ∧
      (∃ t, readBack (.setPinLow pin) = .next t ∧ t.result = some (.level false))) ∧
    (pinInMode s (pinOfArg s.soc pin) .input = true →
      ∃ t, readBack (.setPinHigh pin) = .next t ∧
        t.result = some (.level (s.gpio.envIn.getLsbD (pin % s.soc.npins))))

/-- `i2c.set_clock_divider` writes the divider and the delays derived from it, for every divider, cut to 16 bits
(44_i2c_host.md R283). It runs beside any operation that does not use the I2C bus. -/
def Obligations.ClockDividerSetsTheDelays : Prop :=
  ∀ (s : State) (div : Nat), s.mapped.gpio = true → s.mapped.i2c = true → s.i2c.fsm = .idle →
    inUse s (claimsOf s.soc (.i2cSetClockDivider div)) = false → s.tasks.any midUpdate = false →
    let n := s.tasks.length
    ∃ t : State, runTurns [.call (.i2cSetClockDivider div), .host n, .host n] s = .next t ∧
      t.i2c.cdiv.toNat = div % 65536 ∧ t.i2c.fedl.toNat = max (div % 65536 / 16) 1 ∧
      t.i2c.redl.toNat = max (div % 65536 / 4) 1 ∧
      t = { s with
        result := some .ok
        i2c := { s.i2c with cdiv := t.i2c.cdiv, fedl := t.i2c.fedl, redl := t.i2c.redl } }

/-- A failed mapping in `i2c.init` returns `MapFailed` with the I2C window not mapped and the others as they were, no I2C
register written, and the two bus pins left in their alternate function; a second `init` with no teardown between is
refused all the same (44_i2c_host.md R282, 60_exceptions.md R374, 70_reset_and_hazards.md R429, R434). -/
def Obligations.FailedI2cInitLeavesThePinsMultiplexed : Prop :=
  ∀ s : State, socSound s.soc → s.mapped.gpio = true → s.begun.i2c = false →
    inUse s (claimsOf s.soc .i2cInit) = false → s.tasks.any midUpdate = false →
    let n := s.tasks.length
    ∃ t : State, runTurns (.call .i2cInit :: (List.replicate 8 (.host n) ++ [.osMap n false])) s = .next t ∧
      t.tasks = s.tasks ∧ t.result = some (.error .mapFailed) ∧
      t.mapped = { s.mapped with i2c := false } ∧ t.i2c = s.i2c ∧ t.spi = s.spi ∧
      (∀ p : Pin, p.val < s.soc.npins → pinModeCode t.gpio p =
        if p = s.soc.pins.i2cSda ∨ p = s.soc.pins.i2cScl then modeCode s.soc.modeCodes s.soc.pins.i2cAlt
        else pinModeCode s.gpio p) ∧
      callTurn .i2cInit t = .refused .initTwice

/-- `spi.begin_transfer`: two host steps empty both queues, set `TA` and activate the selected chip-select line; the
configuration bits are kept and the engine is not disturbed; with the engine idle `DONE` then reads 1 (46_spi_host.md
R357, 45_spi.md R305, R321). It runs beside any operation that does not use the SPI bus. -/
def Obligations.BeginTransferStartsClean : Prop :=
  ∀ s : State, s.mapped.gpio = true → s.mapped.spi = true → spiSound s.soc s.spi →
    inUse s (claimsOf s.soc .spiBeginTransfer) = false → s.tasks.any midUpdate = false →
    let n := s.tasks.length
    ∃ t : State, runTurns [.call .spiBeginTransfer, .host n, .host n] s = .next t ∧ t.tasks = s.tasks ∧
      t.result = some .ok ∧ t.i2c = s.i2c ∧ t.gpio = s.gpio ∧
      t.spi = { s.spi with ta := true, txq := [], rxq := [] } ∧ chipEnable t.spi t.spi.cs = false ∧
      (s.spi.sfsm = .idle → spiDone t.spi = true)

/-- Calls outside the contract are refused by name, in every state in which nothing they use is in use (20_memory.md R92;
41_gpio.md R165; 44_i2c_host.md R280; 46_spi_host.md R350; 70_reset_and_hazards.md R410, R420, R434, R437): a bus
operation, whichever it is, while another of that bus is in progress, and a `set_pin_mode` while one on the same mode
register is; any bus operation without its own window or the GPIO window; a pin operation without the GPIO window; a bus
`init` before `gpio.init`; a second `init` with no teardown between, also the coordinator's, at its first component; a bus
teardown without the GPIO window. The model's choices: that a component is initialised when its window is mapped (log 31);
what one operation may not share with another (log 18); the order where two reasons hold, what is in use before the
windows, the windows before the second `init` (log 17); and that the coordinator's teardown is refused at its call while a
second coordinator's init is refused only when it comes to its first component, which is a reading of R410 and R411
(log 22). -/
def Obligations.CallsOutsideTheContractAreRefused : Prop :=
  (∀ (s : State) (k : Task) (b : Bus) (op : DriverOp), k ∈ s.tasks → busOperation k.op = some b →
    busOperation op = some b → callTurn op s = .refused .concurrentTransaction) ∧
  (∀ (s : State) (k : Task) (p p' : Nat) (m m' : PinMode), k ∈ s.tasks → k.op = .setPinMode p m →
    mregOf (pinOfArg s.soc p) = mregOf (pinOfArg s.soc p') →
    callTurn (.setPinMode p' m') s = .refused .concurrentTransaction) ∧
  ∀ (s : State) (op : DriverOp), inUse s (claimsOf s.soc op) = false →
    (∀ b : Bus, busOperation op = some b → s.mapped.gpio = false ∨ s.mapped.get (busWindow b) = false →
      callTurn op s = .refused .outsideInitWindow) ∧
    (∀ (p : Nat) (m : PinMode), op ∈ [DriverOp.setPinMode p m, .setPinLow p, .setPinHigh p, .getPinLevel p] →
      s.mapped.gpio = false → callTurn op s = .refused .outsideInitWindow) ∧
    (op ∈ [DriverOp.i2cInit, .spiInit, .i2cTeardown, .spiTeardown, .coordinatorTeardown] → s.mapped.gpio = false →
      callTurn op s = .refused .outsideInitWindow) ∧
    (op = .gpioInit → s.begun.gpio = true → callTurn op s = .refused .initTwice) ∧
    (op = .i2cInit → s.mapped.gpio = true → s.begun.i2c = true → callTurn op s = .refused .initTwice) ∧
    (op = .spiInit → s.mapped.gpio = true → s.begun.spi = true → callTurn op s = .refused .initTwice) ∧
    (op = .coordinatorInit → s.tasks.any midUpdate = false → s.begun.gpio = true →
      runTurns [.call op, .host s.tasks.length] s = .refused .initTwice)
end

