-- ==== Sys2Proof/Laws/PerInstr.lean ====
section
/-! SUPPORT. The family `HeaderMatches`: of every operation, the entry the opcode map gives it (30_encoding.md R116)
selects, by window, offset and direction bit, exactly that operation's register and direction in the default layout, and
is the header the encoder computes there. -/

namespace Sys2Proof.Laws.HeaderMatches

/-- An entry of the opcode map selects a register and a direction, and is their header. -/
abbrev Selects (h : Header) (g : Reg) (write : Bool) : Prop :=
  decodeOffset .bcm283x (h.extractLsb' 0 24).toNat = .ok g ∧ h.getLsbD 24 = write ∧
    BitVec.ofBool write ++ BitVec.ofNat 24 (offOf .bcm283x g) = h

/-- The entry of the opcode map selects the operation and is its header. -/
def Statement (i : Instr) : Prop := Selects (matchOf i) i.reg i.isWrite

/-! One lemma for each operation. -/

theorem rdGpioMode0 : Statement .rdGpioMode0 := by
  show Selects _ _ false; decide

theorem rdGpioMode1 : Statement .rdGpioMode1 := by
  show Selects _ _ false; decide

theorem rdGpioMode2 : Statement .rdGpioMode2 := by
  show Selects _ _ false; decide

theorem rdGpioMode3 : Statement .rdGpioMode3 := by
  show Selects _ _ false; decide

theorem rdGpioMode4 : Statement .rdGpioMode4 := by
  show Selects _ _ false; decide

theorem rdGpioMode5 : Statement .rdGpioMode5 := by
  show Selects _ _ false; decide

theorem wrGpioMode0 (w : Word) : Statement (.wrGpioMode0 w) := by
  show Selects (matchOf (.wrGpioMode0 0)) (Instr.reg (.wrGpioMode0 0)) true; decide

theorem wrGpioMode1 (w : Word) : Statement (.wrGpioMode1 w) := by
  show Selects (matchOf (.wrGpioMode1 0)) (Instr.reg (.wrGpioMode1 0)) true; decide

theorem wrGpioMode2 (w : Word) : Statement (.wrGpioMode2 w) := by
  show Selects (matchOf (.wrGpioMode2 0)) (Instr.reg (.wrGpioMode2 0)) true; decide

theorem wrGpioMode3 (w : Word) : Statement (.wrGpioMode3 w) := by
  show Selects (matchOf (.wrGpioMode3 0)) (Instr.reg (.wrGpioMode3 0)) true; decide

theorem wrGpioMode4 (w : Word) : Statement (.wrGpioMode4 w) := by
  show Selects (matchOf (.wrGpioMode4 0)) (Instr.reg (.wrGpioMode4 0)) true; decide

theorem wrGpioMode5 (w : Word) : Statement (.wrGpioMode5 w) := by
  show Selects (matchOf (.wrGpioMode5 0)) (Instr.reg (.wrGpioMode5 0)) true; decide

theorem wrGpioSet0 (w : Word) : Statement (.wrGpioSet0 w) := by
  show Selects (matchOf (.wrGpioSet0 0)) (Instr.reg (.wrGpioSet0 0)) true; decide

theorem wrGpioSet1 (w : Word) : Statement (.wrGpioSet1 w) := by
  show Selects (matchOf (.wrGpioSet1 0)) (Instr.reg (.wrGpioSet1 0)) true; decide

theorem rdGpioSet0 : Statement .rdGpioSet0 := by
  show Selects _ _ false; decide

theorem rdGpioSet1 : Statement .rdGpioSet1 := by
  show Selects _ _ false; decide

theorem wrGpioClr0 (w : Word) : Statement (.wrGpioClr0 w) := by
  show Selects (matchOf (.wrGpioClr0 0)) (Instr.reg (.wrGpioClr0 0)) true; decide

theorem wrGpioClr1 (w : Word) : Statement (.wrGpioClr1 w) := by
  show Selects (matchOf (.wrGpioClr1 0)) (Instr.reg (.wrGpioClr1 0)) true; decide

theorem rdGpioClr0 : Statement .rdGpioClr0 := by
  show Selects _ _ false; decide

theorem rdGpioClr1 : Statement .rdGpioClr1 := by
  show Selects _ _ false; decide

theorem rdGpioLev0 : Statement .rdGpioLev0 := by
  show Selects _ _ false; decide

theorem rdGpioLev1 : Statement .rdGpioLev1 := by
  show Selects _ _ false; decide

theorem wrGpioLev0 (w : Word) : Statement (.wrGpioLev0 w) := by
  show Selects (matchOf (.wrGpioLev0 0)) (Instr.reg (.wrGpioLev0 0)) true; decide

theorem wrGpioLev1 (w : Word) : Statement (.wrGpioLev1 w) := by
  show Selects (matchOf (.wrGpioLev1 0)) (Instr.reg (.wrGpioLev1 0)) true; decide

theorem rdI2cC : Statement .rdI2cC := by
  show Selects _ _ false; decide

theorem wrI2cC (w : Word) : Statement (.wrI2cC w) := by
  show Selects (matchOf (.wrI2cC 0)) (Instr.reg (.wrI2cC 0)) true; decide

theorem rdI2cS : Statement .rdI2cS := by
  show Selects _ _ false; decide

theorem wrI2cS (w : Word) : Statement (.wrI2cS w) := by
  show Selects (matchOf (.wrI2cS 0)) (Instr.reg (.wrI2cS 0)) true; decide

theorem rdI2cDlen : Statement .rdI2cDlen := by
  show Selects _ _ false; decide

theorem wrI2cDlen (w : Word) : Statement (.wrI2cDlen w) := by
  show Selects (matchOf (.wrI2cDlen 0)) (Instr.reg (.wrI2cDlen 0)) true; decide

theorem rdI2cA : Statement .rdI2cA := by
  show Selects _ _ false; decide

theorem wrI2cA (w : Word) : Statement (.wrI2cA w) := by
  show Selects (matchOf (.wrI2cA 0)) (Instr.reg (.wrI2cA 0)) true; decide

theorem rdI2cFifo : Statement .rdI2cFifo := by
  show Selects _ _ false; decide

theorem wrI2cFifo (w : Word) : Statement (.wrI2cFifo w) := by
  show Selects (matchOf (.wrI2cFifo 0)) (Instr.reg (.wrI2cFifo 0)) true; decide

theorem rdI2cDiv : Statement .rdI2cDiv := by
  show Selects _ _ false; decide

theorem wrI2cDiv (w : Word) : Statement (.wrI2cDiv w) := by
  show Selects (matchOf (.wrI2cDiv 0)) (Instr.reg (.wrI2cDiv 0)) true; decide

theorem rdI2cDel : Statement .rdI2cDel := by
  show Selects _ _ false; decide

theorem wrI2cDel (w : Word) : Statement (.wrI2cDel w) := by
  show Selects (matchOf (.wrI2cDel 0)) (Instr.reg (.wrI2cDel 0)) true; decide

theorem rdI2cClkt : Statement .rdI2cClkt := by
  show Selects _ _ false; decide

theorem wrI2cClkt (w : Word) : Statement (.wrI2cClkt w) := by
  show Selects (matchOf (.wrI2cClkt 0)) (Instr.reg (.wrI2cClkt 0)) true; decide

theorem rdSpiCs : Statement .rdSpiCs := by
  show Selects _ _ false; decide

theorem wrSpiCs (w : Word) : Statement (.wrSpiCs w) := by
  show Selects (matchOf (.wrSpiCs 0)) (Instr.reg (.wrSpiCs 0)) true; decide

theorem rdSpiFifo : Statement .rdSpiFifo := by
  show Selects _ _ false; decide

theorem wrSpiFifo (w : Word) : Statement (.wrSpiFifo w) := by
  show Selects (matchOf (.wrSpiFifo 0)) (Instr.reg (.wrSpiFifo 0)) true; decide

theorem rdSpiClk : Statement .rdSpiClk := by
  show Selects _ _ false; decide

theorem wrSpiClk (w : Word) : Statement (.wrSpiClk w) := by
  show Selects (matchOf (.wrSpiClk 0)) (Instr.reg (.wrSpiClk 0)) true; decide

/-- The entry of the opcode map selects the operation, whichever it is. -/
theorem headerMatches (i : Instr) : Statement i := by
  cases i
  · exact rdGpioMode0
  · exact rdGpioMode1
  · exact rdGpioMode2
  · exact rdGpioMode3
  · exact rdGpioMode4
  · exact rdGpioMode5
  · exact wrGpioMode0 _
  · exact wrGpioMode1 _
  · exact wrGpioMode2 _
  · exact wrGpioMode3 _
  · exact wrGpioMode4 _
  · exact wrGpioMode5 _
  · exact wrGpioSet0 _
  · exact wrGpioSet1 _
  · exact rdGpioSet0
  · exact rdGpioSet1
  · exact wrGpioClr0 _
  · exact wrGpioClr1 _
  · exact rdGpioClr0
  · exact rdGpioClr1
  · exact rdGpioLev0
  · exact rdGpioLev1
  · exact wrGpioLev0 _
  · exact wrGpioLev1 _
  · exact rdI2cC
  · exact wrI2cC _
  · exact rdI2cS
  · exact wrI2cS _
  · exact rdI2cDlen
  · exact wrI2cDlen _
  · exact rdI2cA
  · exact wrI2cA _
  · exact rdI2cFifo
  · exact wrI2cFifo _
  · exact rdI2cDiv
  · exact wrI2cDiv _
  · exact rdI2cDel
  · exact wrI2cDel _
  · exact rdI2cClkt
  · exact wrI2cClkt _
  · exact rdSpiCs
  · exact wrSpiCs _
  · exact rdSpiFifo
  · exact wrSpiFifo _
  · exact rdSpiClk
  · exact wrSpiClk _

end Sys2Proof.Laws.HeaderMatches
end

