-- ==== Sys2Proof/Laws/Decode.lean ====
section
/-! SUPPORT. What decoding can answer, said once: a register's read and write operations are all operations there are, a
request that decodes carries their header, a word put in a SoC's bit positions comes back from them, and in a sound layout
every register is found at its offset. -/

namespace Sys2Proof

/-! ## The operations of a register -/

@[simp] theorem reg_readInstr (g : Reg) : (readInstr g).reg = g := by
  cases g <;> first | rfl | (rename_i n; revert n; decide)

@[simp] theorem isWrite_readInstr (g : Reg) : (readInstr g).isWrite = false := by
  cases g <;> first | rfl | (rename_i n; revert n; decide)

@[simp] theorem reg_writeInstr (g : Reg) (w : Word) : (writeInstr g w).reg = g := by
  cases g with
  | gpioMode n => match n with | 0 | 1 | 2 | 3 | 4 | 5 => rfl
  | gpioSet n => match n with | 0 | 1 => rfl
  | gpioClr n => match n with | 0 | 1 => rfl
  | gpioLev n => match n with | 0 | 1 => rfl
  | _ => rfl

@[simp] theorem isWrite_writeInstr (g : Reg) (w : Word) : (writeInstr g w).isWrite = true := by
  cases g with
  | gpioMode n => match n with | 0 | 1 | 2 | 3 | 4 | 5 => rfl
  | gpioSet n => match n with | 0 | 1 => rfl
  | gpioClr n => match n with | 0 | 1 => rfl
  | gpioLev n => match n with | 0 | 1 => rfl
  | _ => rfl

@[simp] theorem dataBeatOf_writeInstr (g : Reg) (w : Word) : dataBeatOf (writeInstr g w) = w := by
  cases g with
  | gpioMode n => match n with | 0 | 1 | 2 | 3 | 4 | 5 => rfl
  | gpioSet n => match n with | 0 | 1 => rfl
  | gpioClr n => match n with | 0 | 1 => rfl
  | gpioLev n => match n with | 0 | 1 => rfl
  | _ => rfl

/-- An operation is the read of its register, or the write of its data beat to it. -/
theorem instr_eq (i : Instr) :
    i = if i.isWrite then writeInstr i.reg (dataBeatOf i) else readInstr i.reg := by
  cases i <;> rfl

/-! ## Bit positions -/

@[simp] theorem exchangeBits_twice (a b : Fin 32) (w : Word) : exchangeBits a b (exchangeBits a b w) = w := by
  by_cases h : w.getLsbD a.val = w.getLsbD b.val
  · simp only [exchangeBits, if_pos h]
  · have hab : a.val ≠ b.val := fun e => h (by rw [e])
    have ha : (w ^^^ (BitVec.twoPow 32 a.val ||| BitVec.twoPow 32 b.val)).getLsbD a.val = !w.getLsbD a.val := by
      simp
    have hb : (w ^^^ (BitVec.twoPow 32 a.val ||| BitVec.twoPow 32 b.val)).getLsbD b.val = !w.getLsbD b.val := by
      simp
    simp only [exchangeBits, if_neg h]
    rw [ha, hb, if_neg (by simpa using h), BitVec.xor_assoc, BitVec.xor_self, BitVec.xor_zero]

@[simp] theorem moveBits_twice (r : Reg) (m : Reg × Fin 32 × Fin 32) (w : Word) :
    moveBits r (moveBits r w m) m = w := by
  unfold moveBits; split <;> simp

/-- A word put in the SoC's bit positions comes back from them. -/
@[simp] theorem fromBus_toBus (L : Layout) (r : Reg) (w : Word) : fromBus L r (toBus L r w) = w := by
  unfold fromBus toBus
  generalize L.moves = l
  induction l generalizing w with
  | nil => rfl
  | cons m l ih => rw [List.foldl_cons, List.foldr_cons, ih, moveBits_twice]

/-- A word taken from the SoC's bit positions goes back to them. -/
@[simp] theorem toBus_fromBus (L : Layout) (r : Reg) (w : Word) : toBus L r (fromBus L r w) = w := by
  unfold fromBus toBus
  generalize L.moves = l
  induction l generalizing w with
  | nil => rfl
  | cons m l ih => rw [List.foldr_cons, List.foldl_cons, moveBits_twice, ih]

/-- The default positions are those of the tables. -/
@[simp] theorem toBus_default (r : Reg) (w : Word) : toBus .bcm283x r w = w := rfl
@[simp] theorem fromBus_default (r : Reg) (w : Word) : fromBus .bcm283x r w = w := rfl

/-! ## Decoding -/

/-- A request decodes to an operation exactly if it is 32 bits wide and its offset names a register. -/
theorem decode_ok_iff (L : Layout) (r : Request) (i : Instr) :
    decode L r = .ok i ↔ r.width = .w32 ∧ ∃ g, decodeOffset L (r.header.extractLsb' 0 24).toNat = .ok g ∧
      i = if r.header.getLsbD 24 then writeInstr g (fromBus L g r.wdata) else readInstr g := by
  unfold decode
  by_cases hw : r.width = .w32
  · rw [if_neg (not_not.2 hw)]
    generalize decodeOffset L (r.header.extractLsb' 0 24).toNat = d
    cases d with
    | error e => exact ⟨fun h => (nomatch h), fun ⟨_, _, h, _⟩ => (nomatch h)⟩
    | ok g =>
      constructor
      · intro h; exact ⟨hw, g, rfl, (Except.ok.inj h).symm⟩
      · rintro ⟨_, g', h1, rfl⟩; cases h1; rfl
  · rw [if_pos hw]
    exact ⟨fun h => (nomatch h), fun h => absurd h.1 hw⟩

theorem mem_regsOf (r : Reg) : r ∈ regsOf r.window := by
  cases r with
  | gpioMode i => match i with | 0 | 1 | 2 | 3 | 4 | 5 => decide
  | gpioSet j => match j with | 0 | 1 => decide
  | gpioClr j => match j with | 0 | 1 => decide
  | gpioLev j => match j with | 0 | 1 => decide
  | _ => decide

theorem window_of_mem_regsOf {r : Reg} {w : Window} (h : r ∈ regsOf w) : r.window = w := by
  have : ∀ w ∈ Machine.allWindows, ∀ r ∈ regsOf w, r.window = w := by decide
  exact this w (by cases w <;> decide) r h

/-- A register that an offset names lies in the window the offset lies in, at its offset there. -/
theorem decodeOffset_ok {L : Layout} {off : Nat} {g : Reg} (h : decodeOffset L off = .ok g) :
    windowOf L off = some g.window ∧ off % 4 = 0 ∧ g.offset L = off - (g.window.place L).off := by
  unfold decodeOffset at h
  split at h
  · cases h
  · rename_i w hw
    split at h
    · cases h
    · rename_i h4
      split at h
      · cases h
      · rename_i g' hg
        cases h
        have hm := window_of_mem_regsOf (List.mem_of_find?_eq_some hg)
        have ho := List.find?_some hg
        rw [hm]
        exact ⟨hw, by omega, by simpa using ho⟩

/-- An offset that has a window lies from its first to its last byte. -/
theorem windowOf_eq_some {L : Layout} {off : Nat} {w : Window} (h : windowOf L off = some w) :
    (w.place L).off ≤ off ∧ off < (w.place L).off + (w.place L).size := by
  unfold windowOf at h
  split_ifs at h with h1 h2 h3 <;> cases h
  · simpa [Window.contains] using h1
  · simpa [Window.contains] using h2
  · simpa [Window.contains] using h3

theorem windowOf_eq_none {L : Layout} {off : Nat} : windowOf L off = none ↔
    ∀ w ∈ Machine.allWindows, ¬ ((w.place L).off ≤ off ∧ off < (w.place L).off + (w.place L).size) := by
  unfold windowOf
  simp only [Machine.allWindows, List.forall_mem_cons, List.not_mem_nil, false_implies, implies_true, and_true,
    Window.contains, Bool.and_eq_true, decide_eq_true_eq]
  split_ifs with h1 h2 h3 <;> simp_all

/-- In a sound layout an offset inside a window lies in that window. -/
theorem windowOf_of_mem {L : Layout} (h : Machine.windowsSound L) {off : Nat} {w : Window}
    (h1 : (w.place L).off ≤ off) (h2 : off < (w.place L).off + (w.place L).size) : windowOf L off = some w := by
  cases hw : windowOf L off with
  | none => exact absurd ⟨h1, h2⟩ (windowOf_eq_none.1 hw w (by cases w <;> decide))
  | some w' =>
    obtain ⟨h3, h4⟩ := windowOf_eq_some hw
    by_contra hne
    have hne' : w ≠ w' := fun e => hne (by rw [e])
    have := (h w (by cases w <;> decide)).2.2 w' (by cases w' <;> decide) hne'
    omega

/-- The offset of a register that an offset names is that offset. -/
theorem offOf_of_decodeOffset {L : Layout} {off : Nat} {g : Reg} (h : decodeOffset L off = .ok g) : offOf L g = off := by
  obtain ⟨h1, _, h3⟩ := decodeOffset_ok h
  have := windowOf_eq_some h1
  unfold offOf
  omega

/-- In a sound layout every register is found at its offset. -/
theorem decodeOffset_offOf {L : Layout} (h : Machine.layoutSound L) (g : Reg) : decodeOffset L (offOf L g) = .ok g := by
  obtain ⟨hw, hr, _⟩ := h
  obtain ⟨ha, _, _⟩ := hw g.window (by cases g.window <;> decide)
  obtain ⟨h4, hs, hu⟩ := hr g.window (by cases g.window <;> decide) g (mem_regsOf g)
  have h1 : windowOf L (offOf L g) = some g.window :=
    windowOf_of_mem hw (by unfold offOf; omega) (by unfold offOf; omega)
  have h2 : regAt L g.window (offOf L g - (g.window.place L).off) = some g := by
    have e : offOf L g - (g.window.place L).off = g.offset L := by unfold offOf; omega
    rw [e, regAt]
    cases hf : (regsOf g.window).find? fun r => r.offset L == g.offset L with
    | none => exact absurd (List.find?_eq_none.1 hf g (mem_regsOf g)) (by simp)
    | some r =>
      have hm := List.mem_of_find?_eq_some hf
      have ho := List.find?_some hf
      rw [hu r hm (by simpa using (beq_iff_eq.1 ho).symm)]
  have h3 : offOf L g % 4 = 0 := by unfold offOf; omega
  simp only [decodeOffset, h1, h3, h2, ne_eq, not_true_eq_false, if_false]

theorem offOf_lt {L : Layout} (h : Machine.layoutSound L) (g : Reg) : offOf L g < 2 ^ 24 := by
  obtain ⟨hw, hr, _⟩ := h
  obtain ⟨_, h24, _⟩ := hw g.window (by cases g.window <;> decide)
  obtain ⟨_, hs, _⟩ := hr g.window (by cases g.window <;> decide) g (mem_regsOf g)
  unfold offOf
  omega

/-! ## Headers -/

@[simp] theorem headerOf_off {L : Layout} (h : Machine.layoutSound L) (i : Instr) :
    ((headerOf L i).extractLsb' 0 24).toNat = offOf L i.reg := by
  have h24 := offOf_lt h i.reg
  have e : (headerOf L i).extractLsb' 0 24 = BitVec.ofNat 24 (offOf L i.reg) := by
    unfold headerOf; exact BitVec.extractLsb'_append_eq_right
  rw [e, BitVec.toNat_ofNat, Nat.mod_eq_of_lt h24]

@[simp] theorem headerOf_dir (L : Layout) (i : Instr) : (headerOf L i).getLsbD 24 = i.isWrite := by
  unfold headerOf; rw [BitVec.getLsbD_append]; simp

/-- The default layout's headers are those of the opcode map. -/
theorem headerOf_default (i : Instr) : headerOf .bcm283x i = matchOf i :=
  (Laws.HeaderMatches.headerMatches i).2.2

/-! ## Requests as numbers -/

theorem requestOfTableWord_tableWordOf (i : Instr) :
    requestOfTableWord 64 (tableWordOf i) = some (encode .bcm283x i) := by
  have h1 := (matchOf i).isLt
  have h2 := (dataBeatOf i).isLt
  have e1 : tableWordOf i % 2 ^ 64 = tableWordOf i := Nat.mod_eq_of_lt (by unfold tableWordOf; omega)
  have e2 : tableWordOf i % 2 ^ 32 = (matchOf i).toNat := by unfold tableWordOf; omega
  have e3 : tableWordOf i / 2 ^ 32 = (dataBeatOf i).toNat := by unfold tableWordOf; omega
  simp only [requestOfTableWord, e1, e2, e3, encode, headerOf_default, toBus_default, BitVec.ofNat_toNat,
    BitVec.setWidth_eq, if_pos h1]

theorem layoutSound_default : Machine.layoutSound .bcm283x := by decide

end Sys2Proof
end

