-- ==== Sys2Proof/Laws/State.lean ====
section
/-! SUPPORT. One lemma for each field under each record update of State and under the reading and writing of a window's
value, so that no proof unfolds an update. -/

namespace Sys2Proof.Machine

/-! ### PerWindow -/

@[simp] theorem PerWindow.get_set_same {α : Type} (m : PerWindow α) (w : Window) (a : α) : (m.set w a).get w = a := by
  cases w <;> rfl

theorem PerWindow.get_set_ne {α : Type} (m : PerWindow α) {w w' : Window} (a : α) (h : w' ≠ w) :
    (m.set w a).get w' = m.get w' := by
  cases w <;> cases w' <;> first | rfl | exact absurd rfl h

namespace State

/-! ### setGpio -/

@[simp] theorem setGpio_soc (s : State) (g : Gpio) : (s.setGpio g).soc = s.soc := rfl
@[simp] theorem setGpio_gpio (s : State) (g : Gpio) : (s.setGpio g).gpio = g := rfl
@[simp] theorem setGpio_i2c (s : State) (g : Gpio) : (s.setGpio g).i2c = s.i2c := rfl
@[simp] theorem setGpio_spi (s : State) (g : Gpio) : (s.setGpio g).spi = s.spi := rfl
@[simp] theorem setGpio_mapped (s : State) (g : Gpio) : (s.setGpio g).mapped = s.mapped := rfl
@[simp] theorem setGpio_begun (s : State) (g : Gpio) : (s.setGpio g).begun = s.begun := rfl
@[simp] theorem setGpio_i2cTimeoutMs (s : State) (g : Gpio) : (s.setGpio g).i2cTimeoutMs = s.i2cTimeoutMs := rfl
@[simp] theorem setGpio_spiTimeoutMs (s : State) (g : Gpio) : (s.setGpio g).spiTimeoutMs = s.spiTimeoutMs := rfl
@[simp] theorem setGpio_now (s : State) (g : Gpio) : (s.setGpio g).now = s.now := rfl
@[simp] theorem setGpio_tasks (s : State) (g : Gpio) : (s.setGpio g).tasks = s.tasks := rfl
@[simp] theorem setGpio_result (s : State) (g : Gpio) : (s.setGpio g).result = s.result := rfl
@[simp] theorem setGpio_rdata (s : State) (g : Gpio) : (s.setGpio g).rdata = s.rdata := rfl
@[simp] theorem setGpio_draws (s : State) (g : Gpio) : (s.setGpio g).draws = s.draws := rfl
@[simp] theorem setGpio_issued (s : State) (g : Gpio) : (s.setGpio g).issued = s.issued := rfl

/-! ### setI2c -/

@[simp] theorem setI2c_soc (s : State) (c : I2c) : (s.setI2c c).soc = s.soc := rfl
@[simp] theorem setI2c_gpio (s : State) (c : I2c) : (s.setI2c c).gpio = s.gpio := rfl
@[simp] theorem setI2c_i2c (s : State) (c : I2c) : (s.setI2c c).i2c = c := rfl
@[simp] theorem setI2c_spi (s : State) (c : I2c) : (s.setI2c c).spi = s.spi := rfl
@[simp] theorem setI2c_mapped (s : State) (c : I2c) : (s.setI2c c).mapped = s.mapped := rfl
@[simp] theorem setI2c_begun (s : State) (c : I2c) : (s.setI2c c).begun = s.begun := rfl
@[simp] theorem setI2c_i2cTimeoutMs (s : State) (c : I2c) : (s.setI2c c).i2cTimeoutMs = s.i2cTimeoutMs := rfl
@[simp] theorem setI2c_spiTimeoutMs (s : State) (c : I2c) : (s.setI2c c).spiTimeoutMs = s.spiTimeoutMs := rfl
@[simp] theorem setI2c_now (s : State) (c : I2c) : (s.setI2c c).now = s.now := rfl
@[simp] theorem setI2c_tasks (s : State) (c : I2c) : (s.setI2c c).tasks = s.tasks := rfl
@[simp] theorem setI2c_result (s : State) (c : I2c) : (s.setI2c c).result = s.result := rfl
@[simp] theorem setI2c_rdata (s : State) (c : I2c) : (s.setI2c c).rdata = s.rdata := rfl
@[simp] theorem setI2c_draws (s : State) (c : I2c) : (s.setI2c c).draws = s.draws := rfl
@[simp] theorem setI2c_issued (s : State) (c : I2c) : (s.setI2c c).issued = s.issued := rfl

/-! ### setSpi -/

@[simp] theorem setSpi_soc (s : State) (c : Spi) : (s.setSpi c).soc = s.soc := rfl
@[simp] theorem setSpi_gpio (s : State) (c : Spi) : (s.setSpi c).gpio = s.gpio := rfl
@[simp] theorem setSpi_i2c (s : State) (c : Spi) : (s.setSpi c).i2c = s.i2c := rfl
@[simp] theorem setSpi_spi (s : State) (c : Spi) : (s.setSpi c).spi = c := rfl
@[simp] theorem setSpi_mapped (s : State) (c : Spi) : (s.setSpi c).mapped = s.mapped := rfl
@[simp] theorem setSpi_begun (s : State) (c : Spi) : (s.setSpi c).begun = s.begun := rfl
@[simp] theorem setSpi_i2cTimeoutMs (s : State) (c : Spi) : (s.setSpi c).i2cTimeoutMs = s.i2cTimeoutMs := rfl
@[simp] theorem setSpi_spiTimeoutMs (s : State) (c : Spi) : (s.setSpi c).spiTimeoutMs = s.spiTimeoutMs := rfl
@[simp] theorem setSpi_now (s : State) (c : Spi) : (s.setSpi c).now = s.now := rfl
@[simp] theorem setSpi_tasks (s : State) (c : Spi) : (s.setSpi c).tasks = s.tasks := rfl
@[simp] theorem setSpi_result (s : State) (c : Spi) : (s.setSpi c).result = s.result := rfl
@[simp] theorem setSpi_rdata (s : State) (c : Spi) : (s.setSpi c).rdata = s.rdata := rfl
@[simp] theorem setSpi_draws (s : State) (c : Spi) : (s.setSpi c).draws = s.draws := rfl
@[simp] theorem setSpi_issued (s : State) (c : Spi) : (s.setSpi c).issued = s.issued := rfl

/-! ### setMapped -/

@[simp] theorem setMapped_soc (s : State) (m : PerWindow Bool) : (s.setMapped m).soc = s.soc := rfl
@[simp] theorem setMapped_gpio (s : State) (m : PerWindow Bool) : (s.setMapped m).gpio = s.gpio := rfl
@[simp] theorem setMapped_i2c (s : State) (m : PerWindow Bool) : (s.setMapped m).i2c = s.i2c := rfl
@[simp] theorem setMapped_spi (s : State) (m : PerWindow Bool) : (s.setMapped m).spi = s.spi := rfl
@[simp] theorem setMapped_mapped (s : State) (m : PerWindow Bool) : (s.setMapped m).mapped = m := rfl
@[simp] theorem setMapped_begun (s : State) (m : PerWindow Bool) : (s.setMapped m).begun = s.begun := rfl
@[simp] theorem setMapped_i2cTimeoutMs (s : State) (m : PerWindow Bool) : (s.setMapped m).i2cTimeoutMs = s.i2cTimeoutMs := rfl
@[simp] theorem setMapped_spiTimeoutMs (s : State) (m : PerWindow Bool) : (s.setMapped m).spiTimeoutMs = s.spiTimeoutMs := rfl
@[simp] theorem setMapped_now (s : State) (m : PerWindow Bool) : (s.setMapped m).now = s.now := rfl
@[simp] theorem setMapped_tasks (s : State) (m : PerWindow Bool) : (s.setMapped m).tasks = s.tasks := rfl
@[simp] theorem setMapped_result (s : State) (m : PerWindow Bool) : (s.setMapped m).result = s.result := rfl
@[simp] theorem setMapped_rdata (s : State) (m : PerWindow Bool) : (s.setMapped m).rdata = s.rdata := rfl
@[simp] theorem setMapped_draws (s : State) (m : PerWindow Bool) : (s.setMapped m).draws = s.draws := rfl
@[simp] theorem setMapped_issued (s : State) (m : PerWindow Bool) : (s.setMapped m).issued = s.issued := rfl

/-! ### setBegun -/

@[simp] theorem setBegun_soc (s : State) (m : PerWindow Bool) : (s.setBegun m).soc = s.soc := rfl
@[simp] theorem setBegun_gpio (s : State) (m : PerWindow Bool) : (s.setBegun m).gpio = s.gpio := rfl
@[simp] theorem setBegun_i2c (s : State) (m : PerWindow Bool) : (s.setBegun m).i2c = s.i2c := rfl
@[simp] theorem setBegun_spi (s : State) (m : PerWindow Bool) : (s.setBegun m).spi = s.spi := rfl
@[simp] theorem setBegun_mapped (s : State) (m : PerWindow Bool) : (s.setBegun m).mapped = s.mapped := rfl
@[simp] theorem setBegun_begun (s : State) (m : PerWindow Bool) : (s.setBegun m).begun = m := rfl
@[simp] theorem setBegun_i2cTimeoutMs (s : State) (m : PerWindow Bool) : (s.setBegun m).i2cTimeoutMs = s.i2cTimeoutMs := rfl
@[simp] theorem setBegun_spiTimeoutMs (s : State) (m : PerWindow Bool) : (s.setBegun m).spiTimeoutMs = s.spiTimeoutMs := rfl
@[simp] theorem setBegun_now (s : State) (m : PerWindow Bool) : (s.setBegun m).now = s.now := rfl
@[simp] theorem setBegun_tasks (s : State) (m : PerWindow Bool) : (s.setBegun m).tasks = s.tasks := rfl
@[simp] theorem setBegun_result (s : State) (m : PerWindow Bool) : (s.setBegun m).result = s.result := rfl
@[simp] theorem setBegun_rdata (s : State) (m : PerWindow Bool) : (s.setBegun m).rdata = s.rdata := rfl
@[simp] theorem setBegun_draws (s : State) (m : PerWindow Bool) : (s.setBegun m).draws = s.draws := rfl
@[simp] theorem setBegun_issued (s : State) (m : PerWindow Bool) : (s.setBegun m).issued = s.issued := rfl

/-! ### setI2cTimeoutMs -/

@[simp] theorem setI2cTimeoutMs_soc (s : State) (n : Nat) : (s.setI2cTimeoutMs n).soc = s.soc := rfl
@[simp] theorem setI2cTimeoutMs_gpio (s : State) (n : Nat) : (s.setI2cTimeoutMs n).gpio = s.gpio := rfl
@[simp] theorem setI2cTimeoutMs_i2c (s : State) (n : Nat) : (s.setI2cTimeoutMs n).i2c = s.i2c := rfl
@[simp] theorem setI2cTimeoutMs_spi (s : State) (n : Nat) : (s.setI2cTimeoutMs n).spi = s.spi := rfl
@[simp] theorem setI2cTimeoutMs_mapped (s : State) (n : Nat) : (s.setI2cTimeoutMs n).mapped = s.mapped := rfl
@[simp] theorem setI2cTimeoutMs_begun (s : State) (n : Nat) : (s.setI2cTimeoutMs n).begun = s.begun := rfl
@[simp] theorem setI2cTimeoutMs_i2cTimeoutMs (s : State) (n : Nat) : (s.setI2cTimeoutMs n).i2cTimeoutMs = n := rfl
@[simp] theorem setI2cTimeoutMs_spiTimeoutMs (s : State) (n : Nat) : (s.setI2cTimeoutMs n).spiTimeoutMs = s.spiTimeoutMs := rfl
@[simp] theorem setI2cTimeoutMs_now (s : State) (n : Nat) : (s.setI2cTimeoutMs n).now = s.now := rfl
@[simp] theorem setI2cTimeoutMs_tasks (s : State) (n : Nat) : (s.setI2cTimeoutMs n).tasks = s.tasks := rfl
@[simp] theorem setI2cTimeoutMs_result (s : State) (n : Nat) : (s.setI2cTimeoutMs n).result = s.result := rfl
@[simp] theorem setI2cTimeoutMs_rdata (s : State) (n : Nat) : (s.setI2cTimeoutMs n).rdata = s.rdata := rfl
@[simp] theorem setI2cTimeoutMs_draws (s : State) (n : Nat) : (s.setI2cTimeoutMs n).draws = s.draws := rfl
@[simp] theorem setI2cTimeoutMs_issued (s : State) (n : Nat) : (s.setI2cTimeoutMs n).issued = s.issued := rfl

/-! ### setSpiTimeoutMs -/

@[simp] theorem setSpiTimeoutMs_soc (s : State) (n : Nat) : (s.setSpiTimeoutMs n).soc = s.soc := rfl
@[simp] theorem setSpiTimeoutMs_gpio (s : State) (n : Nat) : (s.setSpiTimeoutMs n).gpio = s.gpio := rfl
@[simp] theorem setSpiTimeoutMs_i2c (s : State) (n : Nat) : (s.setSpiTimeoutMs n).i2c = s.i2c := rfl
@[simp] theorem setSpiTimeoutMs_spi (s : State) (n : Nat) : (s.setSpiTimeoutMs n).spi = s.spi := rfl
@[simp] theorem setSpiTimeoutMs_mapped (s : State) (n : Nat) : (s.setSpiTimeoutMs n).mapped = s.mapped := rfl
@[simp] theorem setSpiTimeoutMs_begun (s : State) (n : Nat) : (s.setSpiTimeoutMs n).begun = s.begun := rfl
@[simp] theorem setSpiTimeoutMs_i2cTimeoutMs (s : State) (n : Nat) : (s.setSpiTimeoutMs n).i2cTimeoutMs = s.i2cTimeoutMs := rfl
@[simp] theorem setSpiTimeoutMs_spiTimeoutMs (s : State) (n : Nat) : (s.setSpiTimeoutMs n).spiTimeoutMs = n := rfl
@[simp] theorem setSpiTimeoutMs_now (s : State) (n : Nat) : (s.setSpiTimeoutMs n).now = s.now := rfl
@[simp] theorem setSpiTimeoutMs_tasks (s : State) (n : Nat) : (s.setSpiTimeoutMs n).tasks = s.tasks := rfl
@[simp] theorem setSpiTimeoutMs_result (s : State) (n : Nat) : (s.setSpiTimeoutMs n).result = s.result := rfl
@[simp] theorem setSpiTimeoutMs_rdata (s : State) (n : Nat) : (s.setSpiTimeoutMs n).rdata = s.rdata := rfl
@[simp] theorem setSpiTimeoutMs_draws (s : State) (n : Nat) : (s.setSpiTimeoutMs n).draws = s.draws := rfl
@[simp] theorem setSpiTimeoutMs_issued (s : State) (n : Nat) : (s.setSpiTimeoutMs n).issued = s.issued := rfl

/-! ### setNow -/

@[simp] theorem setNow_soc (s : State) (n : Nat) : (s.setNow n).soc = s.soc := rfl
@[simp] theorem setNow_gpio (s : State) (n : Nat) : (s.setNow n).gpio = s.gpio := rfl
@[simp] theorem setNow_i2c (s : State) (n : Nat) : (s.setNow n).i2c = s.i2c := rfl
@[simp] theorem setNow_spi (s : State) (n : Nat) : (s.setNow n).spi = s.spi := rfl
@[simp] theorem setNow_mapped (s : State) (n : Nat) : (s.setNow n).mapped = s.mapped := rfl
@[simp] theorem setNow_begun (s : State) (n : Nat) : (s.setNow n).begun = s.begun := rfl
@[simp] theorem setNow_i2cTimeoutMs (s : State) (n : Nat) : (s.setNow n).i2cTimeoutMs = s.i2cTimeoutMs := rfl
@[simp] theorem setNow_spiTimeoutMs (s : State) (n : Nat) : (s.setNow n).spiTimeoutMs = s.spiTimeoutMs := rfl
@[simp] theorem setNow_now (s : State) (n : Nat) : (s.setNow n).now = n := rfl
@[simp] theorem setNow_tasks (s : State) (n : Nat) : (s.setNow n).tasks = s.tasks := rfl
@[simp] theorem setNow_result (s : State) (n : Nat) : (s.setNow n).result = s.result := rfl
@[simp] theorem setNow_rdata (s : State) (n : Nat) : (s.setNow n).rdata = s.rdata := rfl
@[simp] theorem setNow_draws (s : State) (n : Nat) : (s.setNow n).draws = s.draws := rfl
@[simp] theorem setNow_issued (s : State) (n : Nat) : (s.setNow n).issued = s.issued := rfl

/-! ### setTasks -/

@[simp] theorem setTasks_soc (s : State) (l : List Task) : (s.setTasks l).soc = s.soc := rfl
@[simp] theorem setTasks_gpio (s : State) (l : List Task) : (s.setTasks l).gpio = s.gpio := rfl
@[simp] theorem setTasks_i2c (s : State) (l : List Task) : (s.setTasks l).i2c = s.i2c := rfl
@[simp] theorem setTasks_spi (s : State) (l : List Task) : (s.setTasks l).spi = s.spi := rfl
@[simp] theorem setTasks_mapped (s : State) (l : List Task) : (s.setTasks l).mapped = s.mapped := rfl
@[simp] theorem setTasks_begun (s : State) (l : List Task) : (s.setTasks l).begun = s.begun := rfl
@[simp] theorem setTasks_i2cTimeoutMs (s : State) (l : List Task) : (s.setTasks l).i2cTimeoutMs = s.i2cTimeoutMs := rfl
@[simp] theorem setTasks_spiTimeoutMs (s : State) (l : List Task) : (s.setTasks l).spiTimeoutMs = s.spiTimeoutMs := rfl
@[simp] theorem setTasks_now (s : State) (l : List Task) : (s.setTasks l).now = s.now := rfl
@[simp] theorem setTasks_tasks (s : State) (l : List Task) : (s.setTasks l).tasks = l := rfl
@[simp] theorem setTasks_result (s : State) (l : List Task) : (s.setTasks l).result = s.result := rfl
@[simp] theorem setTasks_rdata (s : State) (l : List Task) : (s.setTasks l).rdata = s.rdata := rfl
@[simp] theorem setTasks_draws (s : State) (l : List Task) : (s.setTasks l).draws = s.draws := rfl
@[simp] theorem setTasks_issued (s : State) (l : List Task) : (s.setTasks l).issued = s.issued := rfl

/-! ### setResult -/

@[simp] theorem setResult_soc (s : State) (r : Option DriverResult) : (s.setResult r).soc = s.soc := rfl
@[simp] theorem setResult_gpio (s : State) (r : Option DriverResult) : (s.setResult r).gpio = s.gpio := rfl
@[simp] theorem setResult_i2c (s : State) (r : Option DriverResult) : (s.setResult r).i2c = s.i2c := rfl
@[simp] theorem setResult_spi (s : State) (r : Option DriverResult) : (s.setResult r).spi = s.spi := rfl
@[simp] theorem setResult_mapped (s : State) (r : Option DriverResult) : (s.setResult r).mapped = s.mapped := rfl
@[simp] theorem setResult_begun (s : State) (r : Option DriverResult) : (s.setResult r).begun = s.begun := rfl
@[simp] theorem setResult_i2cTimeoutMs (s : State) (r : Option DriverResult) : (s.setResult r).i2cTimeoutMs = s.i2cTimeoutMs := rfl
@[simp] theorem setResult_spiTimeoutMs (s : State) (r : Option DriverResult) : (s.setResult r).spiTimeoutMs = s.spiTimeoutMs := rfl
@[simp] theorem setResult_now (s : State) (r : Option DriverResult) : (s.setResult r).now = s.now := rfl
@[simp] theorem setResult_tasks (s : State) (r : Option DriverResult) : (s.setResult r).tasks = s.tasks := rfl
@[simp] theorem setResult_result (s : State) (r : Option DriverResult) : (s.setResult r).result = r := rfl
@[simp] theorem setResult_rdata (s : State) (r : Option DriverResult) : (s.setResult r).rdata = s.rdata := rfl
@[simp] theorem setResult_draws (s : State) (r : Option DriverResult) : (s.setResult r).draws = s.draws := rfl
@[simp] theorem setResult_issued (s : State) (r : Option DriverResult) : (s.setResult r).issued = s.issued := rfl

/-! ### setRdata -/

@[simp] theorem setRdata_soc (s : State) (v : Word) : (s.setRdata v).soc = s.soc := rfl
@[simp] theorem setRdata_gpio (s : State) (v : Word) : (s.setRdata v).gpio = s.gpio := rfl
@[simp] theorem setRdata_i2c (s : State) (v : Word) : (s.setRdata v).i2c = s.i2c := rfl
@[simp] theorem setRdata_spi (s : State) (v : Word) : (s.setRdata v).spi = s.spi := rfl
@[simp] theorem setRdata_mapped (s : State) (v : Word) : (s.setRdata v).mapped = s.mapped := rfl
@[simp] theorem setRdata_begun (s : State) (v : Word) : (s.setRdata v).begun = s.begun := rfl
@[simp] theorem setRdata_i2cTimeoutMs (s : State) (v : Word) : (s.setRdata v).i2cTimeoutMs = s.i2cTimeoutMs := rfl
@[simp] theorem setRdata_spiTimeoutMs (s : State) (v : Word) : (s.setRdata v).spiTimeoutMs = s.spiTimeoutMs := rfl
@[simp] theorem setRdata_now (s : State) (v : Word) : (s.setRdata v).now = s.now := rfl
@[simp] theorem setRdata_tasks (s : State) (v : Word) : (s.setRdata v).tasks = s.tasks := rfl
@[simp] theorem setRdata_result (s : State) (v : Word) : (s.setRdata v).result = s.result := rfl
@[simp] theorem setRdata_rdata (s : State) (v : Word) : (s.setRdata v).rdata = v := rfl
@[simp] theorem setRdata_draws (s : State) (v : Word) : (s.setRdata v).draws = s.draws := rfl
@[simp] theorem setRdata_issued (s : State) (v : Word) : (s.setRdata v).issued = s.issued := rfl

/-! ### setIssued -/

@[simp] theorem setIssued_soc (s : State) (r : Option Request) : (s.setIssued r).soc = s.soc := rfl
@[simp] theorem setIssued_gpio (s : State) (r : Option Request) : (s.setIssued r).gpio = s.gpio := rfl
@[simp] theorem setIssued_i2c (s : State) (r : Option Request) : (s.setIssued r).i2c = s.i2c := rfl
@[simp] theorem setIssued_spi (s : State) (r : Option Request) : (s.setIssued r).spi = s.spi := rfl
@[simp] theorem setIssued_mapped (s : State) (r : Option Request) : (s.setIssued r).mapped = s.mapped := rfl
@[simp] theorem setIssued_begun (s : State) (r : Option Request) : (s.setIssued r).begun = s.begun := rfl
@[simp] theorem setIssued_i2cTimeoutMs (s : State) (r : Option Request) : (s.setIssued r).i2cTimeoutMs = s.i2cTimeoutMs := rfl
@[simp] theorem setIssued_spiTimeoutMs (s : State) (r : Option Request) : (s.setIssued r).spiTimeoutMs = s.spiTimeoutMs := rfl
@[simp] theorem setIssued_now (s : State) (r : Option Request) : (s.setIssued r).now = s.now := rfl
@[simp] theorem setIssued_tasks (s : State) (r : Option Request) : (s.setIssued r).tasks = s.tasks := rfl
@[simp] theorem setIssued_result (s : State) (r : Option Request) : (s.setIssued r).result = s.result := rfl
@[simp] theorem setIssued_rdata (s : State) (r : Option Request) : (s.setIssued r).rdata = s.rdata := rfl
@[simp] theorem setIssued_draws (s : State) (r : Option Request) : (s.setIssued r).draws = s.draws := rfl
@[simp] theorem setIssued_issued (s : State) (r : Option Request) : (s.setIssued r).issued = r := rfl

/-! ### drawn -/

@[simp] theorem drawn_soc (s : State) : s.drawn.soc = s.soc := rfl
@[simp] theorem drawn_gpio (s : State) : s.drawn.gpio = s.gpio := rfl
@[simp] theorem drawn_i2c (s : State) : s.drawn.i2c = s.i2c := rfl
@[simp] theorem drawn_spi (s : State) : s.drawn.spi = s.spi := rfl
@[simp] theorem drawn_mapped (s : State) : s.drawn.mapped = s.mapped := rfl
@[simp] theorem drawn_begun (s : State) : s.drawn.begun = s.begun := rfl
@[simp] theorem drawn_i2cTimeoutMs (s : State) : s.drawn.i2cTimeoutMs = s.i2cTimeoutMs := rfl
@[simp] theorem drawn_spiTimeoutMs (s : State) : s.drawn.spiTimeoutMs = s.spiTimeoutMs := rfl
@[simp] theorem drawn_now (s : State) : s.drawn.now = s.now := rfl
@[simp] theorem drawn_tasks (s : State) : s.drawn.tasks = s.tasks := rfl
@[simp] theorem drawn_result (s : State) : s.drawn.result = s.result := rfl
@[simp] theorem drawn_rdata (s : State) : s.drawn.rdata = s.rdata := rfl
@[simp] theorem drawn_draws (s : State) : s.drawn.draws = s.draws + 1 := rfl
@[simp] theorem drawn_issued (s : State) : s.drawn.issued = s.issued := rfl

end State

end Sys2Proof.Machine
end

