-- ==== Sys2Proof/Laws/Ops.lean ====
section
/-! SUPPORT. What each shared operation can do, said once: cite these, do not unfold the operations. -/

namespace Sys2Proof.Machine

/-! ## Outcomes -/

@[simp] theorem andThen_next (s : State) (f : State → Host.Outcome State Fault Refusal) :
    andThen (.next s) f = f s := rfl

@[simp] theorem andThen_refused (r : Refusal) (f : State → Host.Outcome State Fault Refusal) :
    andThen (.refused r) f = .refused r := rfl

/-- Two things done one after the other end in a next state only through one in the middle. -/
theorem andThen_eq_next {o : Host.Outcome State Fault Refusal} {f : State → Host.Outcome State Fault Refusal}
    {t : State} (h : andThen o f = .next t) : ∃ s, o = .next s ∧ f s = .next t := by
  cases o with
  | next s => exact ⟨s, rfl, h⟩
  | fault r => cases h
  | refused r => cases h

/-! ## GPIO register operations -/

theorem exec_readMode (i : Fin 6) (s : State) : exec (readInstr (.gpioMode i)) s = readMode i s := by
  match i with | 0 | 1 | 2 | 3 | 4 | 5 => rfl

theorem exec_writeMode (i : Fin 6) (w : Word) (s : State) :
    exec (writeInstr (.gpioMode i) w) s = writeMode i w s := by
  match i with | 0 | 1 | 2 | 3 | 4 | 5 => rfl

theorem exec_writeSet (j : Fin 2) (w : Word) (s : State) : exec (writeInstr (.gpioSet j) w) s = writeSet j w s := by
  match j with | 0 | 1 => rfl

theorem exec_writeClr (j : Fin 2) (w : Word) (s : State) : exec (writeInstr (.gpioClr j) w) s = writeClr j w s := by
  match j with | 0 | 1 => rfl

theorem exec_readLevel (j : Fin 2) (s : State) : exec (readInstr (.gpioLev j)) s = readLevel j s := by
  match j with | 0 | 1 => rfl

/-! ## I2C register operations -/

theorem configureI2c_next {f : I2c → I2c} {s t : State} (h : configureI2c f s = .next t) :
    s.i2c.fsm = .idle ∧ t = s.setI2c (f s.i2c) := by
  unfold configureI2c at h
  split at h
  · cases h
  · rename_i h1; cases h; exact ⟨not_not.1 h1, rfl⟩

theorem configureI2c_idle (f : I2c → I2c) {s : State} (h : s.i2c.fsm = .idle) :
    configureI2c f s = .next (s.setI2c (f s.i2c)) := by
  simp [configureI2c, h]

theorem configureI2c_busy (f : I2c → I2c) {s : State} (h : s.i2c.fsm ≠ .idle) :
    configureI2c f s = .refused .configChangeInFlight := by
  simp [configureI2c, h]

/-- A start request leaves the block as the write left it, but for the pending start of an enabled idle block. -/
theorem requestStart_next {c : I2c} {s t : State} (h : requestStart c s = .next t) :
    t = s.setI2c c ∨ (c.i2cen = true ∧ c.fsm = .idle ∧ t = s.setI2c { c with stPend := true }) := by
  unfold requestStart at h
  split at h
  · cases h; exact .inl rfl
  · rename_i h1
    split at h
    · cases h
    · rename_i h2; cases h; exact .inr ⟨by simpa using h1, not_not.1 h2, rfl⟩

/-- A write of `I2C.C` that is not refused: no interrupt bit, no change of direction and no clear in flight. -/
theorem execWrI2cC_next {w : Word} {s t : State} (h : execWrI2cC w s = .next t) :
    interruptBitsSet w = false ∧ (s.i2c.fsm = .idle ∨ (readOf w = s.i2c.read ∧ clearOf w = false)) ∧
    (t = s.setI2c (controlWritten w s.i2c) ∨
      ((controlWritten w s.i2c).i2cen = true ∧ (controlWritten w s.i2c).fsm = .idle ∧
        t = s.setI2c { controlWritten w s.i2c with stPend := true })) := by
  unfold execWrI2cC at h
  split at h
  · cases h
  · rename_i h1
    split at h
    · cases h
    · rename_i h2
      split at h
      · cases h
      · rename_i h3
        refine ⟨by simpa using h1, ?_, ?_⟩
        · by_cases hi : s.i2c.fsm = .idle
          · exact .inl hi
          · refine .inr ⟨?_, ?_⟩
            · by_contra hr; exact h2 ⟨hi, hr⟩
            · cases hc : clearOf w
              · rfl
              · exact absurd ⟨hi, hc⟩ h3
        · split at h
          · exact requestStart_next h
          · cases h; exact .inl rfl

/-- The fields of the block after the stored bits, the clear and the disable of a write of `I2C.C`. -/
theorem controlWritten_fields (w : Word) (c : I2c) :
    (controlWritten w c).i2cen = i2cenOf w ∧ (controlWritten w c).read = readOf w ∧
    (controlWritten w c).fsm = (if i2cenOf w then c.fsm else .idle) ∧
    (controlWritten w c).stPend = (i2cenOf w && c.stPend) ∧
    (controlWritten w c).txq = (if clearOf w then [] else c.txq) ∧
    (controlWritten w c).rxq = (if clearOf w then [] else c.rxq) ∧
    (controlWritten w c).mSda = (if i2cenOf w = false ∧ c.fsm ≠ .idle then true else c.mSda) ∧
    (controlWritten w c).mScl = (if i2cenOf w = false ∧ c.fsm ≠ .idle then true else c.mScl) ∧
    (controlWritten w c).done = c.done ∧ (controlWritten w c).err = c.err ∧ (controlWritten w c).clkt = c.clkt ∧
    (controlWritten w c).ph = c.ph ∧ (controlWritten w c).rem = c.rem ∧ (controlWritten w c).cell = c.cell ∧
    (controlWritten w c).rd = c.rd ∧ (controlWritten w c).dlen = c.dlen ∧ (controlWritten w c).addr = c.addr ∧
    (controlWritten w c).cdiv = c.cdiv ∧ (controlWritten w c).fedl = c.fedl ∧ (controlWritten w c).redl = c.redl ∧
    (controlWritten w c).tout = c.tout ∧ (controlWritten w c).sh = c.sh ∧ (controlWritten w c).nack = c.nack ∧
    (controlWritten w c).stretch = c.stretch := by
  unfold controlWritten disableEngine clearQueues
  cases hc : clearOf w <;> cases he : i2cenOf w <;> by_cases hf : c.fsm = .idle <;> simp [hf]

/-- A disable of the block. -/
theorem disableEngine_fields (c : I2c) :
    (disableEngine c).fsm = .idle ∧ (disableEngine c).stPend = false ∧ (disableEngine c).txq = c.txq ∧
    (disableEngine c).rxq = c.rxq ∧ (disableEngine c).done = c.done ∧ (disableEngine c).err = c.err ∧
    (disableEngine c).clkt = c.clkt ∧ (disableEngine c).rem = c.rem ∧ (disableEngine c).i2cen = c.i2cen ∧
    (disableEngine c).read = c.read := by
  unfold disableEngine; split <;> simp [*]

/-! ## SPI register operations -/

/-- A write of `SPI.CS` that is not refused. -/
theorem execWrSpiCs_next {w : Word} {s t : State} (h : execWrSpiCs w s = .next t) :
    outOfScopeBitsSet w = false ∧ (s.spi.sfsm = .idle ∨ configDiffers w s.spi = false) ∧
    t = s.setSpi (taWritten (taOf w) (clearsWritten w (configWritten w s.spi))) := by
  unfold execWrSpiCs at h
  split at h
  · cases h
  · rename_i h1
    split at h
    · cases h
    · rename_i h2
      cases h
      refine ⟨by simpa using h1, ?_, rfl⟩
      by_cases hi : s.spi.sfsm = .idle
      · exact .inl hi
      · right
        cases hc : configDiffers w s.spi
        · rfl
        · exact absurd ⟨hi, hc⟩ h2

/-- A written configuration equal to the stored one is the stored one. -/
theorem configDiffers_false {w : Word} {c : Spi} (h : configDiffers w c = false) :
    csOf w = c.cs ∧ cphaOf w = c.cpha ∧ cpolOf w = c.cpol ∧ renOf w = c.ren := by
  simp only [configDiffers, Bool.or_eq_false_iff, bne_eq_false_iff_eq] at h
  exact ⟨h.1.1.1, h.1.1.2, h.1.2, h.2⟩

/-! ## Arithmetic that does not wrap -/

theorem countDown_toNat (n : BitVec 16) : (countDown n).toNat = n.toNat - 1 := by
  unfold countDown
  split
  · simp_all
  · rename_i h
    have : n.toNat ≠ 0 := fun e => h (BitVec.eq_of_toNat_eq (by simpa using e))
    have := n.isLt
    rw [BitVec.toNat_sub_of_le (by rw [BitVec.le_def]; simp; omega)]
    simp

theorem countStretch_toNat (n : BitVec 16) : (countStretch n).toNat = min (n.toNat + 1) 65535 := by
  unfold countStretch
  have := n.isLt
  split
  · rename_i h; subst h; rfl
  · rename_i h
    have : n.toNat ≠ 65535 := fun e => h (BitVec.eq_of_toNat_eq (by simpa using e))
    rw [BitVec.toNat_add]
    simp
    omega

/-- A received bit shifted in: the seven lower bits move up, the bit comes lowest. -/
theorem shiftIn_eq (b : Byte) (x : Bool) : shiftIn b x = b <<< 1 ||| (BitVec.ofBool x).setWidth 8 := by
  revert b x; decide

end Sys2Proof.Machine
end

