-- ==== Sys2Proof/Laws/I2cEngine.lean ====
section
/-! SUPPORT. What the I2C engine can do, said once: which transition each place has, and for each transition all it
changes. -/

namespace Sys2Proof.Machine

/-! ## The transition of each place, on an enabled block -/

theorem i2cTransition_disabled {soc : Soc} {sda scl : Bool} {c : I2c} (h : c.i2cen = false) : i2cTransition soc sda scl c = none := by
  simp [i2cTransition, h]

theorem i2cTransition_idle {soc : Soc} {c : I2c} (he : c.i2cen = true) (h : c.fsm = .idle) (hp : c.stPend = true) :
    i2cTransition soc true true c = some (tStart soc.i2cDoneAutoclear c) := by
  simp [i2cTransition, he, h, hp]

theorem i2cTransition_idle_busy {soc : Soc} {sda scl : Bool} {c : I2c} (h : c.fsm = .idle) (hl : sda = false ∨ scl = false) :
    i2cTransition soc sda scl c = none := by
  unfold i2cTransition; rw [h]; rcases hl with hl | hl <;> simp [hl]

theorem i2cTransition_startHold {soc : Soc} {sda scl : Bool} {c : I2c} (he : c.i2cen = true) (h : c.fsm = .startHold) :
    i2cTransition soc sda scl c = some (tStartHold c) := by
  simp [i2cTransition, he, h]

theorem i2cTransition_cellDrive {soc : Soc} {sda scl : Bool} {c : I2c} (he : c.i2cen = true) (h : c.fsm = .cellDrive) :
    i2cTransition soc sda scl c = some (tDrive c) := by
  simp [i2cTransition, he, h]

theorem i2cTransition_cellRise {soc : Soc} {sda scl : Bool} {c : I2c} (he : c.i2cen = true) (h : c.fsm = .cellRise) :
    i2cTransition soc sda scl c = some (tRise c) := by
  simp [i2cTransition, he, h]

theorem i2cTransition_cellSample {soc : Soc} {sda : Bool} {c : I2c} (he : c.i2cen = true) (h : c.fsm = .cellSample) :
    i2cTransition soc sda true c = some (tSample sda c) := by
  simp [i2cTransition, he, h]

theorem i2cTransition_cellFall {soc : Soc} {sda scl : Bool} {c : I2c} (he : c.i2cen = true) (h : c.fsm = .cellFall) :
    i2cTransition soc sda scl c = some (tFall c) := by
  simp [i2cTransition, he, h]

theorem i2cTransition_byteNext {soc : Soc} {sda scl : Bool} {c : I2c} (he : c.i2cen = true) (h : c.fsm = .byteNext) :
    i2cTransition soc sda scl c = tNext soc.i2cFifoDepth c := by
  simp [i2cTransition, he, h]

theorem i2cTransition_stopDrive {soc : Soc} {sda scl : Bool} {c : I2c} (he : c.i2cen = true) (h : c.fsm = .stopDrive) :
    i2cTransition soc sda scl c = some (tStopDrive c) := by
  simp [i2cTransition, he, h]

theorem i2cTransition_stopRise {soc : Soc} {sda scl : Bool} {c : I2c} (he : c.i2cen = true) (h : c.fsm = .stopRise) :
    i2cTransition soc sda scl c = some (tStopRise c) := by
  simp [i2cTransition, he, h]

theorem i2cTransition_stopWait {soc : Soc} {sda : Bool} {c : I2c} (he : c.i2cen = true) (h : c.fsm = .stopWait) :
    i2cTransition soc sda true c = some (tStopRelease c) := by
  simp [i2cTransition, he, h]

theorem i2cTransition_stretch {soc : Soc} {sda : Bool} {c : I2c} (he : c.i2cen = true)
    (h : c.fsm = .cellSample ∨ c.fsm = .stopWait) : i2cTransition soc sda false c = some (tStretch c) := by
  rcases h with h | h <;> simp [i2cTransition, he, h]

/-! ## What a transition can be -/

/-- Everything a transition of the engine can be. -/
theorem i2cTransition_cases {soc : Soc} {sda scl : Bool} {c c' : I2c} (h : i2cTransition soc sda scl c = some c') :
    c.i2cen = true ∧
    ((c.fsm = .idle ∧ c.stPend = true ∧ sda = true ∧ scl = true ∧ c' = tStart soc.i2cDoneAutoclear c) ∨
     (c.fsm = .startHold ∧ c' = tStartHold c) ∨
     (c.fsm = .cellDrive ∧ c' = tDrive c) ∨
     (c.fsm = .cellRise ∧ c' = tRise c) ∨
     (c.fsm = .cellSample ∧ scl = true ∧ c' = tSample sda c) ∨
     (c.fsm = .cellFall ∧ c' = tFall c) ∨
     (c.fsm = .byteNext ∧ tNext soc.i2cFifoDepth c = some c') ∨
     (c.fsm = .stopDrive ∧ c' = tStopDrive c) ∨
     (c.fsm = .stopRise ∧ c' = tStopRise c) ∨
     (c.fsm = .stopWait ∧ scl = true ∧ c' = tStopRelease c) ∨
     ((c.fsm = .cellSample ∨ c.fsm = .stopWait) ∧ scl = false ∧ c' = tStretch c)) := by
  unfold i2cTransition at h
  split at h
  · cases h
  · rename_i he
    refine ⟨by simpa using he, ?_⟩
    split at h <;> rename_i hf <;> simp only [hf]
    · split at h
      · rename_i hg; cases h; simp [hg]
      · cases h
    · cases h; simp
    · cases h; simp
    · cases h; simp
    · split at h <;> cases h <;> rename_i hg <;> simp [hg]
    · cases h; simp
    · simp [h]
    · cases h; simp
    · cases h; simp
    · split at h <;> cases h <;> rename_i hg <;> simp [hg]

/-- Everything `T_NEXT` can do: the missing acknowledge, the end of the transfer, a byte to send, a byte to receive. -/
theorem tNext_cases {depth : Nat} {c c' : I2c} (h : tNext depth c = some c') :
    (c.ph ≠ .rx ∧ c.nack = true ∧ c' = raiseErr c) ∨
    (c.rem = 0 ∧ (c.ph = .rx ∨ c.nack = false) ∧ c' = { c with fsm := .stopDrive }) ∨
    (c.rem ≠ 0 ∧ (c.ph = .tx ∨ c.ph = .addr ∧ c.rd = false) ∧ c.nack = false ∧ ∃ b q, c.txq = b :: q ∧
      c' = { c with sh := b, txq := q, ph := .tx, cell := 0, fsm := .cellDrive }) ∨
    (c.rem ≠ 0 ∧ (c.ph = .rx ∨ c.ph = .addr ∧ c.rd = true ∧ c.nack = false) ∧
      c.rxq.length < depth ∧ c' = { c with sh := 0, ph := .rx, cell := 0, fsm := .cellDrive }) := by
  have hl : ∀ {c'}, loadByte c = some c' → ∃ b q, c.txq = b :: q ∧
      c' = { c with sh := b, txq := q, ph := .tx, cell := 0, fsm := .cellDrive } := by
    intro c' h; unfold loadByte at h; split at h
    · cases h
    · rename_i b q hq; cases h; exact ⟨b, q, hq, rfl⟩
  have ho : ∀ {c'}, openByte depth c = some c' → c.rxq.length < depth ∧
      c' = { c with sh := 0, ph := .rx, cell := 0, fsm := .cellDrive } := by
    intro c' h; unfold openByte at h; split at h
    · rename_i hq; cases h; exact ⟨hq, rfl⟩
    · cases h
  unfold tNext at h
  split at h <;> rename_i hp
  · split at h
    · rename_i hn; cases h; exact .inl ⟨by rw [hp]; decide, hn, rfl⟩
    · rename_i hn
      have hn' : c.nack = false := by simpa using hn
      split at h
      · rename_i hr; cases h; exact .inr (.inl ⟨hr, .inr hn', rfl⟩)
      · rename_i hr
        split at h
        · rename_i hd; exact .inr (.inr (.inr ⟨hr, .inr ⟨hp, hd, hn'⟩, ho h⟩))
        · rename_i hd; exact .inr (.inr (.inl ⟨hr, .inr ⟨hp, by simpa using hd⟩, hn', hl h⟩))
  · split at h
    · rename_i hn; cases h; exact .inl ⟨by rw [hp]; decide, hn, rfl⟩
    · rename_i hn
      have hn' : c.nack = false := by simpa using hn
      split at h
      · rename_i hr; cases h; exact .inr (.inl ⟨hr, .inr hn', rfl⟩)
      · rename_i hr; exact .inr (.inr (.inl ⟨hr, .inl hp, hn', hl h⟩))
  · split at h
    · rename_i hr; cases h; exact .inr (.inl ⟨hr, .inl hp, rfl⟩)
    · rename_i hr; exact .inr (.inr (.inr ⟨hr, .inl hp, ho h⟩))

/-- Everything `T_FALL` can do: the next bit, the end of a byte (a received one is pushed), the end of the acknowledge
(a byte sent is counted). -/
theorem tFall_cases (c : I2c) :
    (∃ k : Fin 9, c.cell.val < 7 ∧ k.val = c.cell.val + 1 ∧
      tFall c = { c with mScl := false, cell := k, fsm := .cellDrive }) ∨
    (c.cell.val = 7 ∧ c.ph = .rx ∧ tFall c =
      { c with mScl := false, rxq := c.rxq ++ [c.sh], rem := countDown c.rem, cell := 8, fsm := .cellDrive }) ∨
    (c.cell.val = 7 ∧ c.ph ≠ .rx ∧ tFall c = { c with mScl := false, cell := 8, fsm := .cellDrive }) ∨
    (c.cell.val = 8 ∧ c.ph = .tx ∧ c.nack = false ∧
      tFall c = { c with mScl := false, rem := countDown c.rem, fsm := .byteNext }) ∨
    (c.cell.val = 8 ∧ ¬ (c.ph = .tx ∧ c.nack = false) ∧ tFall c = { c with mScl := false, fsm := .byteNext }) := by
  have hc := c.cell.isLt
  unfold tFall
  split
  · rename_i h; exact .inl ⟨⟨c.cell.val + 1, by omega⟩, h, rfl, rfl⟩
  · split
    · rename_i h7
      split
      · rename_i hp; exact .inr (.inl ⟨h7, hp, rfl⟩)
      · rename_i hp; exact .inr (.inr (.inl ⟨h7, hp, rfl⟩))
    · rename_i h7
      have h8 : c.cell.val = 8 := by omega
      split
      · rename_i hp; exact .inr (.inr (.inr (.inl ⟨h8, hp.1, hp.2, rfl⟩)))
      · rename_i hp; exact .inr (.inr (.inr (.inr ⟨h8, hp, rfl⟩)))

/-- `T_SAMPLE` writes the byte being received or the acknowledge, and moves on. -/
theorem tSample_eq (b : Bool) (c : I2c) :
    tSample b c = { c with
      fsm := .cellFall
      sh := if c.ph = .rx ∧ c.cell.val < 8 then shiftIn c.sh b else c.sh
      nack := if c.ph ≠ .rx ∧ ¬ c.cell.val < 8 then b else c.nack } := by
  unfold tSample
  by_cases h8 : c.cell.val < 8 <;> cases hp : c.ph <;> simp [h8]

/-- Everything a stretched clock can do: count, or abort with the timeout. -/
theorem tStretch_cases (c : I2c) :
    tStretch c = { c with stretch := countStretch c.stretch } ∨
    (c.tout ≠ 0 ∧ c.tout ≤ countStretch c.stretch ∧ tStretch c =
      { c with stretch := countStretch c.stretch, clkt := true, mSda := true, mScl := true, fsm := .idle }) := by
  unfold tStretch
  by_cases h : c.tout ≠ 0 ∧ c.tout ≤ countStretch c.stretch
  · right; exact ⟨h.1, h.2, by simp only [if_pos h, raiseClkt]⟩
  · left; simp only [if_neg h]

/-- `T_START`: `DONE` is kept unless `I2C_DONE_AUTOCLEAR`. -/
theorem tStart_eq (autoclear : Bool) (c : I2c) :
    tStart autoclear c = { c with
      stPend := false, rd := c.read, rem := c.dlen, sh := c.addr.concat c.read, ph := .addr, cell := 0, nack := false,
      stretch := 0, done := if autoclear then false else c.done, mSda := false, fsm := .startHold } := by
  cases autoclear <;> simp [tStart]

/-! ## The engine's turn -/

/-- The engine's turn changes the block by its transition, or changes nothing; it is never refused. -/
theorem i2cEngineTurn_cases (s : State) :
    (∃ c, i2cTransition s.soc (sdaIn s) (sclIn s) s.i2c = some c ∧ i2cEngineTurn s = .next (s.setI2c c)) ∨
    (i2cTransition s.soc (sdaIn s) (sclIn s) s.i2c = none ∧ i2cEngineTurn s = .next s) := by
  unfold i2cEngineTurn
  cases h : i2cTransition s.soc (sdaIn s) (sclIn s) s.i2c with
  | none => exact .inr ⟨rfl, rfl⟩
  | some c => exact .inl ⟨c, rfl, rfl⟩

end Sys2Proof.Machine
end

