-- ==== Sys2Proof/Laws/Operands.lean ====
section
/-! SUPPORT. Which bits the fields, the masks and the assembled words have (Operands.lean, Flags.lean). -/

namespace Sys2Proof.Machine

/-! ## Building a beat -/

theorem getLsbD_bitAt (b : Bool) (n i : Nat) :
    (bitAt b n).getLsbD i = (b && decide (i = n) && decide (i < 32)) := by
  unfold bitAt
  by_cases hn : n ≤ i
  · obtain ⟨d, rfl⟩ := Nat.exists_eq_add_of_le hn
    cases b <;> by_cases hd : d = 0 <;> simp [BitVec.getLsbD_shiftLeft, BitVec.getLsbD_one, hd]
  · have h1 : i < n := by omega
    have h2 : ¬ i = n := by omega
    cases b <;> simp [BitVec.getLsbD_shiftLeft, h1, h2]

theorem getElem_bitAt (b : Bool) (n i : Nat) (h : i < 32) : (bitAt b n)[i] = (b && decide (i = n)) := by
  rw [← BitVec.getLsbD_eq_getElem h, getLsbD_bitAt]; simp [h]

theorem getLsbD_packBits (f : Nat → Bool) (n i : Nat) :
    (packBits f n).getLsbD i = (decide (i < n) && f i) := by
  induction n with
  | zero => simp [packBits]
  | succ n ih =>
    rw [packBits, BitVec.getLsbD_cons]
    by_cases h : i = n
    · subst h; simp
    · have h2 : i < n + 1 ↔ i < n := by omega
      simp [h, ih, h2]

/-! ## Pins -/

/-- Codes that differ name their modes. -/
theorem modeOfCode_modeCode {k : ModeCodes} (h : modeCodesSound k) (m : PinMode) : modeOfCode k (modeCode k m) = m := by
  simp only [modeCodesSound, List.nodup_cons, List.mem_cons, List.not_mem_nil, not_or, or_false] at h
  cases m <;> simp_all [modeOfCode, modeCode, eq_comm]

/-- The eight codes fill the field: each code is that of its mode. -/
theorem modeCode_modeOfCode {k : ModeCodes} (h : modeCodesSound k) (c : BitVec 3) : modeCode k (modeOfCode k c) = c := by
  by_contra hc
  have hm : ∀ m, c ≠ modeCode k m := by
    intro m e; exact hc (by rw [e, modeOfCode_modeCode h])
  have h9 : (c :: [k.input, k.output, k.alt0, k.alt1, k.alt2, k.alt3, k.alt4, k.alt5]).Nodup := by
    refine List.nodup_cons.2 ⟨?_, h⟩
    simp only [List.mem_cons, List.not_mem_nil, or_false, not_or]
    exact ⟨hm .input, hm .output, hm .alt0, hm .alt1, hm .alt2, hm .alt3, hm .alt4, hm .alt5⟩
  have := h9.map BitVec.toFin_injective
  have := this.length_le_card
  simp at this

theorem modeCode_inj {k : ModeCodes} (hk : modeCodesSound k) {m m' : PinMode} (h : modeCode k m = modeCode k m') :
    m = m' := by
  rw [← modeOfCode_modeCode hk m, h, modeOfCode_modeCode hk]

@[simp] theorem bankOf_val (p : Pin) : (bankOf p).val = p.val / 32 := rfl
@[simp] theorem mregOf_val (p : Pin) : (mregOf p).val = p.val / 10 := rfl

theorem pinOfArg_val {soc : Soc} (h : soc.npins ≤ maxPins) (h0 : 0 < soc.npins) (n : Nat) :
    (pinOfArg soc n).val = n % soc.npins := by
  have := Nat.mod_lt n h0
  exact Nat.mod_eq_of_lt (by omega)

theorem pinOfArg_lt {soc : Soc} (h : soc.npins ≤ maxPins) (h0 : 0 < soc.npins) (n : Nat) :
    (pinOfArg soc n).val < soc.npins := by
  rw [pinOfArg_val h h0]; exact Nat.mod_lt n h0

theorem getLsbD_existingPins (soc : Soc) (i : Nat) :
    (existingPins soc).getLsbD i = (decide (i < 60) && decide (i < soc.npins)) := by
  simp [existingPins, BitVec.getLsbD_ofNat]

/-- A pin's bank and bit position name it and no other pin. -/
theorem getLsbD_bankBits (soc : Soc) (j : Fin 2) (w : Word) (p : Pin) :
    (bankBits soc j w).getLsbD p.val =
      (decide (p.val / 32 = j.val) && w.getLsbD (p.val % 32) && decide (p.val < soc.npins)) := by
  obtain ⟨p, hp⟩ := p
  have main : (w.setWidth 60 <<< (32 * j.val)).getLsbD p = (decide (p / 32 = j.val) && w.getLsbD (p % 32)) := by
    fin_cases j
    · by_cases h : p < 32
      · have e1 : p / 32 = 0 := by omega
        have e2 : p % 32 = p := by omega
        simp [e1, e2, hp]
      · have e1 : p / 32 = 1 := by omega
        have e3 : w.getLsbD p = false := BitVec.getLsbD_of_ge _ _ (by omega)
        simp [e1, e3]
    · by_cases h : p < 32
      · have e1 : p / 32 = 0 := by omega
        simp [BitVec.getLsbD_shiftLeft, e1, h]
      · have e1 : p / 32 = 1 := by omega
        have e2 : p % 32 = p - 32 := by omega
        have e3 : p - 32 < 60 := by omega
        simp [e1, e2, h, hp]
  simp only [bankBits, BitVec.getLsbD_and, main, getLsbD_existingPins, hp, decide_true, Bool.true_and]

theorem getLsbD_modeFieldsMask (soc : Soc) (i : Fin 6) (b : Nat) :
    (modeFieldsMask soc i).getLsbD b = (decide (b < 30) && decide (10 * i.val + b / 3 < soc.npins)) := by
  have h1 : (modeFieldsMask soc i).getLsbD b =
      (decide (b < 32) && decide (b < 3 * min 10 (soc.npins - 10 * i.val))) := by
    simp [modeFieldsMask, BitVec.getLsbD_ofNat]
  rw [h1, Bool.eq_iff_iff]
  simp only [Bool.and_eq_true, decide_eq_true_eq]
  omega

/-- The masks of the mode registers keep the whole field of every pin that exists. -/
theorem extract_modeFields {soc : Soc} (w : Word) {p : Pin} (hp : p.val < soc.npins) :
    (w &&& modeFieldsMask soc (mregOf p)).extractLsb' (mshiftOf p) 3 = w.extractLsb' (mshiftOf p) 3 := by
  ext i hi
  have hm : (modeFieldsMask soc (mregOf p)).getLsbD (mshiftOf p + i) = true := by
    have h1 : 3 * (p.val % 10) + i < 30 := by omega
    have h2 : 10 * (p.val / 10) + (3 * (p.val % 10) + i) / 3 < soc.npins := by omega
    rw [getLsbD_modeFieldsMask, mregOf_val, mshiftOf, decide_eq_true h1, decide_eq_true h2, Bool.and_self]
  simp [BitVec.getLsbD_and, hm]

/-- Reserved bits of a masked word are 0. -/
theorem modeFields_reserved (soc : Soc) (i : Fin 6) (w : Word) :
    (w &&& modeFieldsMask soc i) &&& ~~~ modeFieldsMask soc i = 0 := by
  rw [BitVec.and_assoc]; simp

/-! ## Status words: one lemma for each flag that can be tested -/

theorem i2cStatusWord_getLsbD (soc : Soc) (c : I2c) (d : BitVec 64) :
    (i2cStatusWord soc c d).getLsbD 0 = i2cTa c ∧ (i2cStatusWord soc c d).getLsbD 1 = c.done ∧
    (i2cStatusWord soc c d).getLsbD 4 = i2cTxd soc c ∧ (i2cStatusWord soc c d).getLsbD 5 = i2cRxd c ∧
    (i2cStatusWord soc c d).getLsbD 6 = i2cTxe c ∧ (i2cStatusWord soc c d).getLsbD 7 = i2cRxf soc c ∧
    (i2cStatusWord soc c d).getLsbD 8 = c.err ∧ (i2cStatusWord soc c d).getLsbD 9 = c.clkt := by
  simp [i2cStatusWord, getElem_bitAt]

theorem i2cStatusWord_high (soc : Soc) (c : I2c) (d : BitVec 64) (b : Nat) (h : 10 ≤ b) :
    (i2cStatusWord soc c d).getLsbD b = false := by
  have : ∀ n, n < 10 → ¬ b = n := by omega
  simp [i2cStatusWord, BitVec.getLsbD_or, getLsbD_bitAt, this]

theorem spiStatusWord_getLsbD (soc : Soc) (c : Spi) (d : BitVec 64) :
    (spiStatusWord soc c d).getLsbD 2 = c.cpha ∧ (spiStatusWord soc c d).getLsbD 3 = c.cpol ∧
    (spiStatusWord soc c d).getLsbD 7 = c.ta ∧ (spiStatusWord soc c d).getLsbD 12 = c.ren ∧
    (spiStatusWord soc c d).getLsbD 16 = spiDone c ∧ (spiStatusWord soc c d).getLsbD 17 = spiRxd c ∧
    (spiStatusWord soc c d).getLsbD 18 = spiTxd soc c ∧ (spiStatusWord soc c d).getLsbD 20 = spiRxf soc c := by
  simp [spiStatusWord, getElem_bitAt]

theorem spiStatusWord_cs (soc : Soc) (c : Spi) (d : BitVec 64) : (spiStatusWord soc c d).extractLsb' 0 2 = c.cs := by
  ext i hi
  have h : ∀ n, 2 ≤ n → ¬ i = n := by omega
  have h32 : i < 32 := by omega
  simp [spiStatusWord, getElem_bitAt, h, h32, BitVec.getLsbD_eq_getElem hi]

/-! ## Masks and fields -/

theorem extractLsb'_eq_zero_iff (w : Word) (a n : Nat) :
    w.extractLsb' a n = 0 ↔ ∀ i, i < n → w.getLsbD (a + i) = false := by
  constructor
  · intro h i hi
    have := congrArg (fun x => BitVec.getLsbD x i) h
    simpa [hi] using this
  · intro h
    apply BitVec.eq_of_getLsbD_eq
    intro i hi
    simp [hi, h i hi]

theorem and_eq_zero_iff (w m : Word) :
    w &&& m = 0 ↔ ∀ i, i < 32 → m.getLsbD i = true → w.getLsbD i = false := by
  constructor
  · intro h i _ hm
    have := congrArg (fun x => BitVec.getLsbD x i) h
    simpa [hm] using this
  · intro h
    apply BitVec.eq_of_getLsbD_eq
    intro i hi
    cases hm : m.getLsbD i
    · simp [hm]
    · simp [hm, h i hi hm]

/-- A field is 0 exactly if the mask of its bits finds none. -/
theorem field_eq_zero_iff_mask (w m : Word) (a n : Nat)
    (hm : ∀ i, i < 32 → (m.getLsbD i = true ↔ a ≤ i ∧ i < a + n)) (hn : a + n ≤ 32) :
    w.extractLsb' a n = 0 ↔ w &&& m = 0 := by
  rw [extractLsb'_eq_zero_iff, and_eq_zero_iff]
  constructor
  · intro h i hi hi'
    obtain ⟨h1, h2⟩ := (hm i hi).1 hi'
    have := h (i - a) (by omega)
    rwa [Nat.add_sub_cancel' h1] at this
  · intro h i hi
    exact h (a + i) (by omega) ((hm _ (by omega)).2 ⟨by omega, by omega⟩)

theorem interruptBitsSet_eq (w : Word) : interruptBitsSet w = decide (w &&& 0x700 ≠ 0) := by
  rw [Bool.eq_iff_iff, decide_eq_true_iff]
  exact bne_iff_ne.trans (not_congr (field_eq_zero_iff_mask w 0x700 8 3 (by decide) (by decide)))

theorem clearOf_eq (w : Word) : clearOf w = decide (w &&& 0x30 ≠ 0) := by
  rw [Bool.eq_iff_iff, decide_eq_true_iff]
  exact bne_iff_ne.trans (not_congr (field_eq_zero_iff_mask w 0x30 4 2 (by decide) (by decide)))

theorem outOfScopeBitsSet_of_bit {w : Word} {n : Nat} (hn : n ∈ [6, 8, 9, 10, 11, 13, 14, 15, 21, 22, 23, 24, 25])
    (h : w.getLsbD n = true) : outOfScopeBitsSet w = true := by
  have hb : n < 32 ∧ (0x03E0EF40 : Word).getLsbD n = true := by
    have : ∀ n ∈ [6, 8, 9, 10, 11, 13, 14, 15, 21, 22, 23, 24, 25],
      n < 32 ∧ (0x03E0EF40 : Word).getLsbD n = true := by decide
    exact this n hn
  simp only [outOfScopeBitsSet, bne_iff_ne, ne_eq, and_eq_zero_iff]
  intro h0
  rw [h0 n hb.1 hb.2] at h
  cases h

/-- A single-bit mask tests that bit. -/
theorem and_twoPow_ne_zero (v : Word) (n : Nat) (h : n < 32) :
    (v &&& BitVec.twoPow 32 n != 0) = v.getLsbD n := by
  rw [BitVec.and_twoPow]
  cases hv : v.getLsbD n
  · simp
  · have : BitVec.twoPow 32 n ≠ 0#32 := by
      intro e
      have := congrArg (fun x => BitVec.getLsbD x n) e
      simp [h] at this
    simpa using this

end Sys2Proof.Machine
end

