-- ==== Sys2Proof/Laws/SpiEngine.lean ====
section
/-! SUPPORT. What the SPI engine can do, said once: which transition each place has, and all it changes. -/

namespace Sys2Proof.Machine

/-! ## The transition of each place -/

theorem spiTransition_idle {soc : Soc} {din : Bool} {c : Spi} (h : c.sfsm = .idle) : spiTransition soc din c = tLoad soc.spiFifoDepth c := by
  simp [spiTransition, h]

theorem spiTransition_setup {soc : Soc} {din : Bool} {c : Spi} (h : c.sfsm = .setup) : spiTransition soc din c = some (tSetup c) := by
  simp [spiTransition, h]

theorem spiTransition_lead {soc : Soc} {din : Bool} {c : Spi} (h : c.sfsm = .lead) : spiTransition soc din c = some (tLead din c) := by
  simp [spiTransition, h]

theorem spiTransition_trail {soc : Soc} {din : Bool} {c : Spi} (h : c.sfsm = .trail) :
    spiTransition soc din c = some (tTrail din c) := by
  simp [spiTransition, h]

theorem spiTransition_store {soc : Soc} {din : Bool} {c : Spi} (h : c.sfsm = .store) : spiTransition soc din c = some (tStore c) := by
  simp [spiTransition, h]

/-- Everything a transition of the engine can be. -/
theorem spiTransition_cases {soc : Soc} {din : Bool} {c c' : Spi} (h : spiTransition soc din c = some c') :
    (c.sfsm = .idle ∧ tLoad soc.spiFifoDepth c = some c') ∨ (c.sfsm = .setup ∧ c' = tSetup c) ∨
    (c.sfsm = .lead ∧ c' = tLead din c) ∨ (c.sfsm = .trail ∧ c' = tTrail din c) ∨
    (c.sfsm = .store ∧ c' = tStore c) := by
  unfold spiTransition at h
  split at h <;> rename_i hf <;> simp only [hf]
  · simp [h]
  all_goals (cases h; simp)

/-- `T_LOAD` takes the head of `txq`, with a transfer active and room for the answer. -/
theorem tLoad_cases {depth : Nat} {c c' : Spi} (h : tLoad depth c = some c') :
    c.ta = true ∧ c.rxq.length < depth ∧ ∃ b q, c.txq = b :: q ∧
      c' = { c with ssh := b, txq := q, srx := 0, sbit := 0, sfsm := .setup } := by
  unfold tLoad at h
  split at h
  · rename_i hg
    split at h
    · cases h
    · rename_i b q hq; cases h; exact ⟨hg.1, hg.2, b, q, hq, rfl⟩
  · cases h

theorem tSetup_eq (c : Spi) :
    tSetup c = { c with sfsm := .lead, mosi := if c.cpha then c.mosi else msbFirst c.ssh c.sbit.val } := by
  unfold tSetup; cases c.cpha <;> simp

theorem tLead_eq (din : Bool) (c : Spi) :
    tLead din c = { c with
      sfsm := .trail
      sclk := !c.cpol
      mosi := if c.cpha then msbFirst c.ssh c.sbit.val else c.mosi
      srx := if c.cpha then c.srx else shiftIn c.srx din } := by
  unfold tLead; cases c.cpha <;> simp

/-- `T_TRAIL`: the trailing edge, then the next bit or the end of the byte. -/
theorem tTrail_cases (din : Bool) (c : Spi) :
    (∃ k : Fin 8, c.sbit.val < 7 ∧ k.val = c.sbit.val + 1 ∧ tTrail din c = { c with
      sfsm := .setup, sbit := k, sclk := c.cpol, srx := if c.cpha then shiftIn c.srx din else c.srx }) ∨
    (c.sbit.val = 7 ∧ tTrail din c = { c with
      sfsm := .store, sclk := c.cpol, srx := if c.cpha then shiftIn c.srx din else c.srx }) := by
  have hb := c.sbit.isLt
  unfold tTrail nextBit
  by_cases h : c.sbit.val < 7
  · left
    refine ⟨⟨c.sbit.val + 1, by omega⟩, h, rfl, ?_⟩
    cases c.cpha <;> simp [h]
  · right
    refine ⟨by omega, ?_⟩
    cases c.cpha <;> simp [h]

theorem tStore_eq (c : Spi) : tStore c = { c with rxq := c.rxq ++ [c.srx], sbit := 0, sfsm := .idle } := rfl

/-! ## The engine's turn -/

/-- The engine's turn changes the block by its transition and takes a draw, or changes nothing; it is never refused. -/
theorem spiEngineTurn_cases (s : State) :
    (∃ c, spiTransition s.soc (dataIn s (drawOf s)) s.spi = some c ∧ spiEngineTurn s = .next (s.drawn.setSpi c)) ∨
    (spiTransition s.soc (dataIn s (drawOf s)) s.spi = none ∧ spiEngineTurn s = .next s) := by
  unfold spiEngineTurn
  cases h : spiTransition s.soc (dataIn s (drawOf s)) s.spi with
  | none => exact .inr ⟨rfl, rfl⟩
  | some c => exact .inl ⟨c, rfl, rfl⟩

end Sys2Proof.Machine
end

