-- ==== Sys2Proof/Laws/Step.lean ====
section
/-! SUPPORT. How a request comes to be run: placed, issued, dispatched, answered; and what the choice of a turn does to the
state around it. (Do not let a tactic evaluate `requestOfTableWord` on an operation that is a variable: cite these.) -/

namespace Sys2Proof.Machine

/-! ## The answer to a read -/

/-- Putting the data beat in the SoC's positions touches the data beat alone. -/
theorem deliver_eq (i : Instr) (s : State) : ∃ v, deliver i s = s.setRdata v := by
  unfold deliver; split
  · exact ⟨s.rdata, rfl⟩
  · exact ⟨_, rfl⟩

theorem deliver_write {i : Instr} (h : i.isWrite = true) (s : State) : deliver i s = s := by
  simp [deliver, h]

theorem deliver_read {i : Instr} (h : i.isWrite = false) (s : State) :
    deliver i s = s.setRdata (toBus s.soc.layout i.reg s.rdata) := by
  simp [deliver, h]

/-- In the default positions there is nothing to do. -/
theorem deliver_default {i : Instr} {s : State} (h : s.soc.layout = .bcm283x) : deliver i s = s := by
  unfold deliver; split
  · rfl
  · rw [h]; rfl

/-! ## An access of the bus -/

theorem busAccess_mapped {i : Instr} {s : State} (h : s.mapped.get i.reg.window = true) :
    busAccess i s = andThen (exec i s) fun t => .next (deliver i t) := by
  simp [busAccess, h]

theorem busAccess_unmapped {i : Instr} {s : State} (h : s.mapped.get i.reg.window = false) :
    busAccess i s = .refused .windowNotMapped := by
  simp [busAccess, h]

/-- A bus access that answers a next state ran its operation in a mapped window. -/
theorem busAccess_next {i : Instr} {s t : State} (h : busAccess i s = .next t) :
    s.mapped.get i.reg.window = true ∧ ∃ u, exec i s = .next u ∧ t = deliver i u := by
  unfold busAccess at h; split at h
  · rename_i hm
    obtain ⟨u, h1, h2⟩ := andThen_eq_next h
    cases h2
    exact ⟨hm, u, h1, rfl⟩
  · cases h

/-! ## Mapping -/

@[simp] theorem beginInit_mapped (w : Window) (s : State) : (beginInit w s).mapped = s.mapped := rfl
@[simp] theorem beginInit_begun (w : Window) (s : State) : (beginInit w s).begun = s.begun.set w true := rfl
@[simp] theorem mapWindow_mapped (w : Window) (s : State) : (mapWindow w s).mapped = s.mapped.set w true := rfl
@[simp] theorem mapWindow_begun (w : Window) (s : State) : (mapWindow w s).begun = s.begun.set w true := rfl
@[simp] theorem failMapping_mapped (w : Window) (s : State) : (failMapping w s).mapped = s.mapped.set w false := rfl
@[simp] theorem failMapping_begun (w : Window) (s : State) : (failMapping w s).begun = s.begun := rfl
@[simp] theorem unmapWindow_mapped (w : Window) (s : State) : (unmapWindow w s).mapped = s.mapped.set w false := rfl
@[simp] theorem unmapWindow_begun (w : Window) (s : State) : (unmapWindow w s).begun = s.begun.set w false := rfl

/-! ## A request of the host's own -/

theorem requestTurn_of_error {r : Request} {e : DecodeError} {s : State} (h : decode s.soc.layout r = .error e) :
    requestTurn r s = .refused (refusalOf e) := by
  simp [requestTurn, h]

theorem requestTurn_free {r : Request} {i : Instr} {s : State} (h : decode s.soc.layout r = .ok i)
    (hb : requestBlocked i s = false) : requestTurn r s = busAccess i s := by
  simp [requestTurn, h, hb]

theorem requestTurn_blocked {r : Request} {i : Instr} {s : State} (h : decode s.soc.layout r = .ok i)
    (hb : requestBlocked i s = true) : requestTurn r s = .refused .concurrentTransaction := by
  simp [requestTurn, h, hb]

/-- With no operation in progress nothing is in use. -/
theorem requestBlocked_idle {i : Instr} {s : State} (h : s.tasks = []) : requestBlocked i s = false := by
  simp [requestBlocked, inUse, h]

theorem requestTurn_next {r : Request} {s t : State} (h : requestTurn r s = .next t) :
    ∃ i, decode s.soc.layout r = .ok i ∧ requestBlocked i s = false ∧ busAccess i s = .next t := by
  unfold requestTurn at h
  split at h
  · cases h
  · rename_i i hd
    split at h
    · cases h
    · rename_i hb; exact ⟨i, hd, by simpa using hb, h⟩

/-! ## Whose turn it is -/

/-- A request that is issued is taken, on the state with the bus free again. -/
theorem step_of_issued {s : State} {r : Request} (h : s.issued = some r) :
    step s = requestTurn r (s.setIssued none) := by
  simp [step, nextTurn, turnTaken, h, takeTurn]

/-- With no request issued the free choice is taken. -/
theorem step_of_none {s : State} (h : s.issued = none) : step s = takeTurn (Config.freeTurn s.draws) s.drawn := by
  simp [step, nextTurn, turnTaken, h]

/-- Whatever turn comes next, the parameters, the three blocks and the host's values are those of the state before. -/
theorem turnTaken_frame (s : State) :
    (turnTaken s).soc = s.soc ∧ (turnTaken s).gpio = s.gpio ∧ (turnTaken s).i2c = s.i2c ∧
    (turnTaken s).spi = s.spi ∧ (turnTaken s).mapped = s.mapped ∧ (turnTaken s).begun = s.begun ∧
    (turnTaken s).i2cTimeoutMs = s.i2cTimeoutMs ∧ (turnTaken s).spiTimeoutMs = s.spiTimeoutMs ∧
    (turnTaken s).now = s.now ∧ (turnTaken s).tasks = s.tasks ∧ (turnTaken s).result = s.result ∧
    (turnTaken s).rdata = s.rdata := by
  unfold turnTaken; split <;> simp

/-- Placing a request by its number is placing it in the layout of the SoC. -/
theorem withFetchWord_of_request {n w : Nat} {r : Request} (h : requestOfTableWord n w = some r) (s : State) :
    s.withFetchWord n w = placeRequest (relaid s.soc.layout r) s := by
  simp only [State.withFetchWord, h]

end Sys2Proof.Machine
end

