-- ==== Sys2Proof/Laws/Driver.lean ====
section
/-! SUPPORT. What a step of a driver operation, and any turn, can do to the state, said once. -/

namespace Sys2Proof.Machine

/-! ## Going on, or returning -/

/-- What is left of the list of operations when the `n`-th goes on with `k`. -/
def tasksAfter (n : Nat) (k : Task) (l : List Task) : List Task := if k.cont = [] then l.eraseIdx n else l.set n k

/-- Going on with an operation, or returning from it, touches the operations in progress and the result alone. -/
theorem proceed_eq (n : Nat) (k : Task) (s : State) : ∃ r,
    proceed n k s = (s.setTasks (tasksAfter n k s.tasks)).setResult r := by
  unfold proceed tasksAfter
  split
  · rename_i h; exact ⟨_, by rw [if_pos h]⟩
  · rename_i h; exact ⟨s.result, by rw [if_neg (by rw [h]; exact List.cons_ne_nil _ _)]; rfl⟩

theorem proceed_done {k : Task} (h : k.cont = []) (n : Nat) (s : State) :
    proceed n k s = (s.setTasks (s.tasks.eraseIdx n)).setResult (some (resultOf s.soc k)) := by
  unfold proceed; rw [h]

theorem proceed_more {k : Task} (h : k.cont ≠ []) (n : Nat) (s : State) :
    proceed n k s = s.setTasks (s.tasks.set n k) := by
  unfold proceed
  split
  · rename_i h'; exact absurd h' h
  · rfl

/-- Going on keeps the operations sound: the one that goes on is still the same operation. -/
theorem tasksAfter_sound {soc : Soc} {n : Nat} {k k' : Task} {l : List Task} (h : tasksSound soc l)
    (hn : l[n]? = some k) (hop : k'.op = k.op) : tasksSound soc (tasksAfter n k' l) := by
  obtain ⟨hne, hp⟩ := h
  unfold tasksAfter
  split
  · exact ⟨fun x hx => hne x (List.mem_of_mem_eraseIdx hx), hp.sublist (List.eraseIdx_sublist _ _)⟩
  · rename_i hc
    refine ⟨fun x hx => ?_, ?_⟩
    · rcases List.mem_or_eq_of_mem_set hx with hx | rfl
      · exact hne x hx
      · exact hc
    · have hmap : (l.set n k').map Task.op = l.map Task.op := by
        have hn' : (l.map Task.op)[n]? = some k.op := by rw [List.getElem?_map, hn]; rfl
        obtain ⟨hlt, hv⟩ := List.getElem?_eq_some_iff.1 hn'
        rw [List.map_set, hop, ← hv, List.set_getElem_self]
      have e : ∀ l : List Task,
          (l.Pairwise fun k k' => clash (claimsOf soc k'.op) (claimsOf soc k.op) = false) ↔
          (l.map Task.op).Pairwise fun o o' => clash (claimsOf soc o') (claimsOf soc o) = false := by
        intro l; rw [List.pairwise_map]
      rw [e, hmap, ← e]
      exact hp

/-! ## One access of a program -/

theorem access_next {n : Nat} {i : Instr} {f : Word → Task} {s t : State} (h : access n i f s = .next t) :
    s.mapped.get i.reg.window = true ∧ ∃ u, exec i s = .next u ∧
      t = proceed n (f (fromBus (deliver i u).soc.layout i.reg (deliver i u).rdata)) (deliver i u) := by
  obtain ⟨s₁, h1, h2⟩ := andThen_eq_next h
  obtain ⟨hm, u, h3, rfl⟩ := busAccess_next h1
  cases h2
  exact ⟨hm, u, h3, rfl⟩

theorem access_mapped {n : Nat} {i : Instr} {f : Word → Task} {s u : State}
    (hm : s.mapped.get i.reg.window = true) (h : exec i s = .next u) :
    access n i f s =
      .next (proceed n (f (fromBus (deliver i u).soc.layout i.reg (deliver i u).rdata)) (deliver i u)) := by
  unfold access; rw [busAccess_mapped hm, h]; rfl

/-- A read of a program gets the word in the positions of the tables. -/
theorem access_read {n : Nat} {i : Instr} {f : Word → Task} {s u : State} (hr : i.isWrite = false)
    (hm : s.mapped.get i.reg.window = true) (h : exec i s = .next u) :
    access n i f s = .next (proceed n (f u.rdata) (deliver i u)) := by
  rw [access_mapped hm h, deliver_read hr]; simp

theorem access_write {n : Nat} {i : Instr} {k : Task} {s u : State} (hw : i.isWrite = true)
    (hm : s.mapped.get i.reg.window = true) (h : exec i s = .next u) :
    access n i (fun _ => k) s = .next (proceed n k u) := by
  rw [access_mapped hm h, deliver_write hw]

/-- Everything a command of a program can do: one register operation, or the bookkeeping of the host. The operation is
the same after it. -/
theorem runCmd_next {n : Nat} {c : HostCmd} {k : Task} {s t : State} (h : runCmd n c k s = .next t) :
    (∃ i u k', exec i s = .next u ∧ k'.op = k.op ∧ t = proceed n k' (deliver i u)) ∨
    (∃ k', k'.op = k.op ∧ t = proceed n k' s) ∨
    (∃ w, c = .begin w ∧ initRefusal s w = none ∧ t = proceed n k (beginInit w s)) ∨
    (∃ w, c = .unmap w ∧ t = proceed n k (unmapWindow w s)) ∨
    (∃ w, c = .map w ∧ t = s) := by
  have acc : ∀ {i f}, access n i f s = .next t → (∀ v, (f v).op = k.op) →
      ∃ i u k', exec i s = .next u ∧ k'.op = k.op ∧ t = proceed n k' (deliver i u) := by
    intro i f h hf; obtain ⟨_, u, h1, h2⟩ := access_next h; exact ⟨i, u, _, h1, hf _, h2⟩
  have abort : ∀ b e, (abortTask b e k).op = k.op := by intro b e; cases b <;> rfl
  have judge : ∀ b f v, (judgePoll b f v k).op = k.op := by
    intro b f v; unfold judgePoll; cases b <;> simp only <;> split_ifs <;> rfl
  cases c with
  | rd r => rw [runCmd] at h; exact .inl (acc h (fun _ => rfl))
  | wr r v => rw [runCmd] at h; exact .inl (acc h (fun _ => rfl))
  | wrSet r f => rw [runCmd] at h; exact .inl (acc h (fun _ => rfl))
  | wrClr r f => rw [runCmd] at h; exact .inl (acc h (fun _ => rfl))
  | begin w =>
    rw [runCmd] at h
    split at h
    · cases h
    · rename_i hr; cases h; exact .inr (.inr (.inl ⟨w, rfl, hr, rfl⟩))
  | map w => cases h; exact .inr (.inr (.inr (.inr ⟨w, rfl, rfl⟩)))
  | unmap w => cases h; exact .inr (.inr (.inr (.inl ⟨w, rfl, rfl⟩)))
  | await b f => cases h; exact .inr (.inl ⟨_, by rfl, rfl⟩)
  | poll b f => rw [runCmd] at h; exact .inl (acc h (fun v => judge b f v))
  | expire b f =>
    cases h
    refine .inr (.inl ⟨_, ?_, rfl⟩)
    split
    · exact abort _ _
    · rfl
  | i2cReadTest m => rw [runCmd] at h; exact .inl (acc h (fun v => by split <;> rfl))
  | i2cReadByte m => rw [runCmd] at h; exact .inl (acc h (fun _ => rfl))
  | i2cWriteTest d => rw [runCmd] at h; exact .inl (acc h (fun v => by split <;> rfl))
  | i2cWriteByte d =>
    cases d with
    | nil => cases h; exact .inr (.inl ⟨_, by rfl, rfl⟩)
    | cons b ds => rw [runCmd] at h; exact .inl (acc h (fun _ => rfl))
  | spiReadByte m => rw [runCmd] at h; exact .inl (acc h (fun _ => rfl))
  | spiWriteByte d =>
    cases d with
    | nil => cases h; exact .inr (.inl ⟨_, by rfl, rfl⟩)
    | cons b ds => rw [runCmd] at h; exact .inl (acc h (fun _ => rfl))

/-! ## What a poll sees -/

/-- Each mask the host tests finds its flag in what a read of `I2C.S` returns. -/
theorem anySet_i2cStatusWord (soc : Soc) (c : I2c) (d : BitVec 64) :
    anySet (i2cStatusWord soc c d) maskI2cTa = i2cTa c ∧ anySet (i2cStatusWord soc c d) maskI2cDone = c.done ∧
    anySet (i2cStatusWord soc c d) maskI2cTxd = i2cTxd soc c ∧ anySet (i2cStatusWord soc c d) maskI2cRxd = i2cRxd c ∧
    anySet (i2cStatusWord soc c d) maskI2cErr = c.err ∧ anySet (i2cStatusWord soc c d) maskI2cClkt = c.clkt := by
  obtain ⟨h0, h1, h4, h5, _, _, h8, h9⟩ := i2cStatusWord_getLsbD soc c d
  exact ⟨(and_twoPow_ne_zero _ 0 (by decide)).trans h0, (and_twoPow_ne_zero _ 1 (by decide)).trans h1,
    (and_twoPow_ne_zero _ 4 (by decide)).trans h4, (and_twoPow_ne_zero _ 5 (by decide)).trans h5,
    (and_twoPow_ne_zero _ 8 (by decide)).trans h8, (and_twoPow_ne_zero _ 9 (by decide)).trans h9⟩

/-- Each mask the host tests finds its flag in what a read of `SPI.CS` returns. -/
theorem anySet_spiStatusWord (soc : Soc) (c : Spi) (d : BitVec 64) :
    anySet (spiStatusWord soc c d) maskSpiDone = spiDone c ∧ anySet (spiStatusWord soc c d) maskSpiRxd = spiRxd c ∧
    anySet (spiStatusWord soc c d) maskSpiTxd = spiTxd soc c := by
  obtain ⟨_, _, _, _, h16, h17, h18, _⟩ := spiStatusWord_getLsbD soc c d
  exact ⟨(and_twoPow_ne_zero _ 16 (by decide)).trans h16, (and_twoPow_ne_zero _ 17 (by decide)).trans h17,
    (and_twoPow_ne_zero _ 18 (by decide)).trans h18⟩

/-! ## Runs of given turns -/

@[simp] theorem runTurns_nil (s : State) : runTurns [] s = .next s := rfl

theorem runTurns_cons {τ : Turn} {l : List Turn} {s t : State} (h : takeTurn τ s = .next t) :
    runTurns (τ :: l) s = runTurns l t := by
  simp [runTurns, h]

theorem runTurns_host {n : Nat} {l : List Turn} {s t : State} (h : hostTurn n s = .next t) :
    runTurns (.host n :: l) s = runTurns l t := runTurns_cons (τ := .host n) h

theorem runTurns_call {op : DriverOp} {l : List Turn} {s t : State} (h : callTurn op s = .next t) :
    runTurns (.call op :: l) s = runTurns l t := runTurns_cons (τ := .call op) h

theorem runTurns_osMap {n : Nat} {ok : Bool} {l : List Turn} {s t : State} (h : osMapTurn n ok s = .next t) :
    runTurns (.osMap n ok :: l) s = runTurns l t := runTurns_cons (τ := .osMap n ok) h

/-! ## Calls -/

/-- Everything a call does at once: nothing, or the beginning of an `init`, or an unmapping. -/
theorem called_cases (op : DriverOp) (s : State) :
    called op s = s ∨ (∃ w, called op s = beginInit w s) ∨ ∃ w, called op s = unmapWindow w s := by
  unfold called
  split <;> first | exact .inl rfl | exact .inr (.inl ⟨_, rfl⟩) | exact .inr (.inr ⟨_, rfl⟩)

@[simp] theorem called_soc (op : DriverOp) (s : State) : (called op s).soc = s.soc := by
  rcases called_cases op s with h | ⟨w, h⟩ | ⟨w, h⟩ <;> rw [h] <;> rfl
@[simp] theorem called_gpio (op : DriverOp) (s : State) : (called op s).gpio = s.gpio := by
  rcases called_cases op s with h | ⟨w, h⟩ | ⟨w, h⟩ <;> rw [h] <;> rfl
@[simp] theorem called_i2c (op : DriverOp) (s : State) : (called op s).i2c = s.i2c := by
  rcases called_cases op s with h | ⟨w, h⟩ | ⟨w, h⟩ <;> rw [h] <;> rfl
@[simp] theorem called_spi (op : DriverOp) (s : State) : (called op s).spi = s.spi := by
  rcases called_cases op s with h | ⟨w, h⟩ | ⟨w, h⟩ <;> rw [h] <;> rfl
@[simp] theorem called_tasks (op : DriverOp) (s : State) : (called op s).tasks = s.tasks := by
  rcases called_cases op s with h | ⟨w, h⟩ | ⟨w, h⟩ <;> rw [h] <;> rfl

/-- A call that uses nothing in use, whose precondition holds and whose program is `cmds`, begins that program, unless it
falls between the halves of an update. -/
theorem callTurn_ok {op : DriverOp} {cmds : List HostCmd} {s : State} (hk : inUse s (claimsOf s.soc op) = false)
    (hp : preconditionBroken s op = none) (he : expansion s.soc op = .ok cmds) (hu : s.tasks.any midUpdate = false) :
    callTurn op s =
      .next (proceed s.tasks.length (newTask op cmds) ((called op s).setTasks (s.tasks ++ [newTask op cmds]))) := by
  simp [callTurn, hk, hp, he, hu]

theorem callTurn_broken {op : DriverOp} {r : Refusal} {s : State} (hk : inUse s (claimsOf s.soc op) = false)
    (hp : preconditionBroken s op = some r) : callTurn op s = .refused r := by
  simp [callTurn, hk, hp]

/-- Between the two halves of an update a call changes nothing: it is refused, or not taken up (40_regaccess.md R143). -/
theorem callTurn_midUpdate {op : DriverOp} {s t : State} (hu : s.tasks.any midUpdate = true)
    (h : callTurn op s = .next t) : t = s := by
  unfold callTurn at h
  split at h
  · cases h
  · split at h
    · cases h
    · split at h
      · cases h
      · cases h; rfl

theorem callTurn_inUse {op : DriverOp} {s : State} (hk : inUse s (claimsOf s.soc op) = true) :
    callTurn op s = .refused .concurrentTransaction := by
  simp [callTurn, hk]

theorem inUse_idle {s : State} (h : s.tasks = []) (l : List Claim) : inUse s l = false := by
  simp [inUse, h]

/-- A call that has something to do joins the operations in progress. -/
theorem callTurn_begins {op : DriverOp} {cmds : List HostCmd} {s : State} (hk : inUse s (claimsOf s.soc op) = false)
    (hp : preconditionBroken s op = none) (he : expansion s.soc op = .ok cmds) (hu : s.tasks.any midUpdate = false)
    (hc : cmds ≠ []) :
    callTurn op s = .next ((called op s).setTasks (s.tasks ++ [newTask op cmds])) := by
  rw [callTurn_ok hk hp he hu, proceed_more hc]
  simp [State.setTasks]

/-! ## The host's turn -/

/-- The host's turn runs the first command of the program, unless that waits for the operating system or another
operation is between the halves of an update. -/
theorem hostTurn_cmd {n : Nat} {k : Task} {c : HostCmd} {rest : List HostCmd} {s : State} (hk : s.tasks[n]? = some k)
    (hu : (s.tasks.eraseIdx n).any midUpdate = false) (hc : k.cont = c :: rest) (hm : ∀ w, c ≠ .map w) :
    hostTurn n s = runCmd n c { k with cont := rest } s := by
  unfold hostTurn
  rw [hk]
  simp only [hu, hc]
  rfl

/-- The same for the operation called last. -/
theorem hostTurn_last {l : List Task} {k : Task} {c : HostCmd} {rest : List HostCmd} {s : State}
    (hk : s.tasks = l ++ [k]) (hu : l.any midUpdate = false) (hc : k.cont = c :: rest) (hm : ∀ w, c ≠ .map w) :
    hostTurn l.length s = runCmd l.length c { k with cont := rest } s := by
  refine hostTurn_cmd (by rw [hk]; simp) ?_ hc hm
  rw [hk, List.eraseIdx_append_of_length_le (Nat.le_refl _)]
  simpa using hu

theorem proceed_last_done {l : List Task} {k k' : Task} {s : State} (hk : s.tasks = l ++ [k']) (h : k.cont = []) :
    proceed l.length k s = (s.setTasks l).setResult (some (resultOf s.soc k)) := by
  rw [proceed_done h, hk, List.eraseIdx_append_of_length_le (Nat.le_refl _)]
  simp

theorem proceed_last_more {l : List Task} {k k' : Task} {s : State} (hk : s.tasks = l ++ [k']) (h : k.cont ≠ []) :
    proceed l.length k s = s.setTasks (l ++ [k]) := by
  rw [proceed_more h, hk]; simp

/-! ## Single register accesses of the operation called last -/

section
variable {l : List Task} {k : Task} {r : Reg} {v : Word} {rest : List HostCmd} {s u : State}
  (hk : s.tasks = l ++ [k]) (hu : l.any midUpdate = false) (hm : s.mapped.get r.window = true)
include hk hu hm

theorem hostTurn_rd (hc : k.cont = .rd r :: rest) (h : exec (readInstr r) s = .next u) :
    hostTurn l.length s =
      .next (proceed l.length { k with cont := rest, t := u.rdata } (deliver (readInstr r) u)) := by
  rw [hostTurn_last hk hu hc (by intro w h; cases h), runCmd]
  exact access_read (isWrite_readInstr r) (by rw [reg_readInstr]; exact hm) h

theorem hostTurn_wr (hc : k.cont = .wr r v :: rest) (h : exec (writeInstr r v) s = .next u) :
    hostTurn l.length s = .next (proceed l.length { k with cont := rest } u) := by
  rw [hostTurn_last hk hu hc (by intro w h; cases h), runCmd]
  exact access_write (isWrite_writeInstr r v) (by rw [reg_writeInstr]; exact hm) h

theorem hostTurn_wrSet (hc : k.cont = .wrSet r v :: rest) (h : exec (writeInstr r (k.t ||| v)) s = .next u) :
    hostTurn l.length s = .next (proceed l.length { k with cont := rest } u) := by
  rw [hostTurn_last hk hu hc (by intro w h; cases h), runCmd]
  exact access_write (isWrite_writeInstr r _) (by rw [reg_writeInstr]; exact hm) h

theorem hostTurn_wrClr (hc : k.cont = .wrClr r v :: rest) (h : exec (writeInstr r (k.t &&& ~~~ v)) s = .next u) :
    hostTurn l.length s = .next (proceed l.length { k with cont := rest } u) := by
  rw [hostTurn_last hk hu hc (by intro w h; cases h), runCmd]
  exact access_write (isWrite_writeInstr r _) (by rw [reg_writeInstr]; exact hm) h

end

/-! ## The turns of the host -/

/-- A turn of the host that ended in a next state changed nothing; or ran one register operation, kept its books, began
an initialisation, mapped, failed to map or unmapped a window, the operation being the same after it; or took up a new operation that
uses nothing in use. -/
abbrev HostStep (s t : State) : Prop :=
  t = s ∨
  (∃ n k k' u, s.tasks[n]? = some k ∧ k'.op = k.op ∧ t = proceed n k' u ∧
    ((∃ i v, exec i s = .next v ∧ u = deliver i v) ∨ u = s ∨ (∃ w, u = beginInit w s) ∨
      (∃ w, u = mapWindow w s) ∨ (∃ w, u = failMapping w s) ∨ ∃ w, u = unmapWindow w s)) ∨
  (∃ op cmds, inUse s (claimsOf s.soc op) = false ∧
    t = proceed s.tasks.length (newTask op cmds) ((called op s).setTasks (s.tasks ++ [newTask op cmds])))

theorem hostTurn_next {n : Nat} {s t : State} (h : hostTurn n s = .next t) : HostStep s t := by
  unfold hostTurn at h
  split at h
  · cases h; exact .inl rfl
  · rename_i k hk
    split at h
    · cases h; exact .inl rfl
    · split at h
      · cases h; exact .inr (.inl ⟨n, k, k, s, hk, rfl, rfl, .inr (.inl rfl)⟩)
      · cases h; exact .inl rfl
      · rcases runCmd_next h with ⟨i, u, k', h1, h2, h3⟩ | ⟨k', h1, h2⟩ | ⟨w, _, _, h1⟩ | ⟨w, _, h1⟩ | ⟨w, _, h1⟩
        · exact .inr (.inl ⟨n, k, k', _, hk, h2, h3, .inl ⟨i, u, h1, rfl⟩⟩)
        · exact .inr (.inl ⟨n, k, k', s, hk, h1, h2, .inr (.inl rfl)⟩)
        · exact .inr (.inl ⟨n, k, _, _, hk, by rfl, h1, .inr (.inr (.inl ⟨w, rfl⟩))⟩)
        · exact .inr (.inl ⟨n, k, _, _, hk, by rfl, h1, .inr (.inr (.inr (.inr (.inr ⟨w, rfl⟩))))⟩)
        · exact .inl h1

theorem callTurn_next {op : DriverOp} {s t : State} (h : callTurn op s = .next t) : HostStep s t := by
  unfold callTurn at h
  split at h
  · cases h
  · rename_i hu
    split at h
    · cases h
    · split at h
      · cases h
      · rename_i cmds _
        split at h
        · cases h; exact .inl rfl
        · cases h; exact .inr (.inr ⟨op, cmds, by simpa using hu, rfl⟩)

theorem osMapTurn_next {n : Nat} {ok : Bool} {s t : State} (h : osMapTurn n ok s = .next t) : HostStep s t := by
  unfold osMapTurn at h
  split at h
  · cases h; exact .inl rfl
  · rename_i k hk
    split at h
    · rename_i w rest _
      split_ifs at h
      · cases h; exact .inl rfl
      · cases h; exact .inr (.inl ⟨n, k, _, _, hk, by rfl, rfl, .inr (.inr (.inr (.inl ⟨w, rfl⟩)))⟩)
      · cases h; exact .inr (.inl ⟨n, k, _, _, hk, by rfl, rfl, .inr (.inr (.inr (.inr (.inl ⟨w, rfl⟩))))⟩)
    · cases h; exact .inl rfl

/-! ## Any turn -/

/-- Everything a turn that ends in a next state can do. -/
theorem takeTurn_cases {τ : Turn} {s t : State} (h : takeTurn τ s = .next t) :
    (τ = .powerOn ∧ t = powerOnState s) ∨
    (∃ r i u, τ = .request r ∧ exec i s = .next u ∧ t = deliver i u) ∨
    (((∃ n, τ = .host n) ∨ (∃ op, τ = .call op) ∨ ∃ n ok, τ = .osMap n ok) ∧ HostStep s t) ∨
    (τ = .i2cEngine ∧ (t = s ∨ ∃ c, i2cTransition s.soc (sdaIn s) (sclIn s) s.i2c = some c ∧ t = s.setI2c c)) ∨
    (τ = .spiEngine ∧
      (t = s ∨ ∃ c, spiTransition s.soc (dataIn s (drawOf s)) s.spi = some c ∧ t = s.drawn.setSpi c)) ∨
    (∃ p high, τ = .env p high ∧ t = s.setGpio (applyLevel s.gpio p high)) ∨
    (∃ n, τ = .clock n ∧ t = s.setNow (s.now + n)) ∨
    (∃ b ms, τ = .tune b ms ∧ t = tuneState b ms s) := by
  cases τ with
  | powerOn => cases h; exact .inl ⟨rfl, rfl⟩
  | request r =>
    obtain ⟨i, _, _, h⟩ := requestTurn_next h
    obtain ⟨_, u, h1, h2⟩ := busAccess_next h
    exact .inr (.inl ⟨r, i, u, rfl, h1, h2⟩)
  | call op => exact .inr (.inr (.inl ⟨.inr (.inl ⟨op, rfl⟩), callTurn_next h⟩))
  | host n => exact .inr (.inr (.inl ⟨.inl ⟨n, rfl⟩, hostTurn_next h⟩))
  | osMap n ok => exact .inr (.inr (.inl ⟨.inr (.inr ⟨n, ok, rfl⟩), osMapTurn_next h⟩))
  | i2cEngine =>
    right; right; right; left
    refine ⟨rfl, ?_⟩
    change i2cEngineTurn s = .next t at h
    rcases i2cEngineTurn_cases s with ⟨c, hc, e⟩ | ⟨_, e⟩ <;> rw [e] at h <;> cases h
    · exact .inr ⟨c, hc, rfl⟩
    · exact .inl rfl
  | spiEngine =>
    right; right; right; right; left
    refine ⟨rfl, ?_⟩
    change spiEngineTurn s = .next t at h
    rcases spiEngineTurn_cases s with ⟨c, hc, e⟩ | ⟨_, e⟩ <;> rw [e] at h <;> cases h
    · exact .inr ⟨c, hc, rfl⟩
    · exact .inl rfl
  | env p b => cases h; exact .inr (.inr (.inr (.inr (.inr (.inl ⟨p, b, rfl, rfl⟩)))))
  | clock n => cases h; exact .inr (.inr (.inr (.inr (.inr (.inr (.inl ⟨n, rfl, rfl⟩))))))
  | tune b ms => cases h; exact .inr (.inr (.inr (.inr (.inr (.inr (.inr ⟨b, ms, rfl, rfl⟩))))))

end Sys2Proof.Machine
end

