-- ==== Sys2Proof/Laws/Runs.lean ====
section
/-! SUPPORT. Runs of the engines in pieces: a run of a joined list of levels is one run after the other, and a cell of a
byte the master sends is four transitions. -/

namespace Sys2Proof.Machine

variable {soc : Soc}

/-! ## Joining runs -/

@[simp] theorem i2cRun_nil (c : I2c) : i2cRun soc [] c = some c := rfl

theorem i2cRun_cons {sda scl : Bool} {l : List (Bool × Bool)} {c c' : I2c} (h : i2cTransition soc sda scl c = some c') :
    i2cRun soc ((sda, scl) :: l) c = i2cRun soc l c' := by
  simp [i2cRun, h]

theorem i2cRun_append (l m : List (Bool × Bool)) (c : I2c) :
    i2cRun soc (l ++ m) c = (i2cRun soc l c).bind (i2cRun soc m) := by
  induction l generalizing c with
  | nil => rfl
  | cons p l ih =>
    simp only [List.cons_append, i2cRun]
    cases i2cTransition soc p.1 p.2 c with
    | none => rfl
    | some c' => exact ih c'

@[simp] theorem spiRun_nil (c : Spi) : spiRun soc [] c = some c := rfl

theorem spiRun_cons {din : Bool} {l : List Bool} {c c' : Spi} (h : spiTransition soc din c = some c') :
    spiRun soc (din :: l) c = spiRun soc l c' := by
  simp [spiRun, h]

theorem spiRun_append (l m : List Bool) (c : Spi) : spiRun soc (l ++ m) c = (spiRun soc l c).bind (spiRun soc m) := by
  induction l generalizing c with
  | nil => rfl
  | cons d l ih =>
    simp only [List.cons_append, spiRun]
    cases spiTransition soc d c with
    | none => rfl
    | some c' => exact ih c'

/-! ## One cell of a byte the master sends, the clock never stretched -/

/-- A data cell: the bit is driven and the next cell is reached, the clock low again. -/
theorem i2cRun_dataCell (a b d e : Bool) (x y z : Bool) (c : I2c) (he : c.i2cen = true) (hf : c.fsm = .cellDrive)
    (hp : c.ph ≠ .rx) (k : Fin 9) (hk : c.cell.val < 8) (hk' : k.val = c.cell.val + 1) :
    i2cRun soc [(a, x), (b, y), (d, true), (e, z)] c =
      some { c with mSda := msbFirst c.sh c.cell.val, mScl := false, stretch := 0, cell := k, fsm := .cellDrive } := by
  have hd : driveLevel c = msbFirst c.sh c.cell.val := by
    unfold driveLevel; cases h : c.ph <;> simp_all
  rw [i2cRun_cons (i2cTransition_cellDrive he hf), i2cRun_cons (i2cTransition_cellRise (by exact he) rfl),
    i2cRun_cons (i2cTransition_cellSample (by exact he) rfl), i2cRun_cons (i2cTransition_cellFall (by rw [tSample_eq]; exact he) (by rw [tSample_eq])), i2cRun_nil]
  congr 1
  have hk8 : k = ⟨c.cell.val + 1, by omega⟩ := Fin.ext hk'
  rcases tFall_cases (tSample d (tRise (tDrive c))) with ⟨k', _, hk2, h⟩ | ⟨_, h, _⟩ | ⟨h7, _, h⟩ | ⟨h8, _⟩ | ⟨h8, _⟩
  · rw [h]; rw [tSample_eq] at hk2 ⊢
    have : k' = k := Fin.ext (by rw [hk2, hk']; rfl)
    simp [tRise, tDrive, hp, hk, hd, this]
  · rw [tSample_eq] at h; exact absurd h hp
  · rw [h]; rw [tSample_eq] at h7 ⊢
    have : k = 8 := Fin.ext (by rw [hk']; change c.cell.val = 7 at h7; rw [h7]; rfl)
    simp [tRise, tDrive, hp, hk, hd, this]
  · rw [tSample_eq] at h8; change c.cell.val = 8 at h8; omega
  · rw [tSample_eq] at h8; change c.cell.val = 8 at h8; omega

/-- The acknowledge cell of a byte sent: the line is released and the acknowledge sampled. -/
theorem i2cRun_ackCell (a b d e : Bool) (x y z : Bool) (c : I2c) (he : c.i2cen = true) (hf : c.fsm = .cellDrive)
    (hp : c.ph ≠ .rx) (hk : c.cell.val = 8) :
    i2cRun soc [(a, x), (b, y), (d, true), (e, z)] c =
      some { c with
        mSda := true, mScl := false, stretch := 0, nack := d, fsm := .byteNext
        rem := if c.ph = .tx ∧ d = false then countDown c.rem else c.rem } := by
  have hd : driveLevel c = true := by
    unfold driveLevel; cases h : c.ph <;> simp_all
  rw [i2cRun_cons (i2cTransition_cellDrive he hf), i2cRun_cons (i2cTransition_cellRise (by exact he) rfl),
    i2cRun_cons (i2cTransition_cellSample (by exact he) rfl), i2cRun_cons (i2cTransition_cellFall (by rw [tSample_eq]; exact he) (by rw [tSample_eq])), i2cRun_nil]
  congr 1
  rcases tFall_cases (tSample d (tRise (tDrive c))) with ⟨k', h7, _⟩ | ⟨h7, _⟩ | ⟨h7, _⟩ | ⟨_, ht, hn, h⟩ | ⟨_, hn, h⟩
  · rw [tSample_eq] at h7; change c.cell.val < 7 at h7; omega
  · rw [tSample_eq] at h7; change c.cell.val = 7 at h7; omega
  · rw [tSample_eq] at h7; change c.cell.val = 7 at h7; omega
  · rw [h]; rw [tSample_eq] at ht hn ⊢
    change c.ph = .tx at ht
    simp [tRise, tDrive, hp, hk] at hn
    simp [tRise, tDrive, ht, hk, hd, hn]
  · rw [h]; rw [tSample_eq] at hn ⊢
    have hn' : ¬ (c.ph = .tx ∧ d = false) := by
      intro ⟨h1, h2⟩; apply hn; refine ⟨h1, ?_⟩; simp [tRise, tDrive, hk, hp, h2]
    simp [tRise, tDrive, hp, hk, hd, hn']

/-- Two transitions into a cell of a byte the master sends: the level is driven and the clock released. -/
theorem i2cRun_toSample (a b x y : Bool) (c : I2c) (he : c.i2cen = true) (hf : c.fsm = .cellDrive) (hp : c.ph ≠ .rx) :
    i2cRun soc [(a, x), (b, y)] c = some { c with
      mSda := if c.cell.val < 8 then msbFirst c.sh c.cell.val else true
      mScl := true, stretch := 0, fsm := .cellSample } := by
  have hd : driveLevel c = if c.cell.val < 8 then msbFirst c.sh c.cell.val else true := by
    unfold driveLevel; cases h : c.ph <;> simp_all
  rw [i2cRun_cons (i2cTransition_cellDrive he hf), i2cRun_cons (i2cTransition_cellRise (by exact he) rfl), i2cRun_nil]
  simp [tRise, tDrive, hd]

/-- The four levels of cell `k` of a byte, of which only the sampled ones matter. -/
theorem take_cell {l : List (Bool × Bool)} {k : Nat} (h : 4 * k + 4 ≤ l.length) {sda scl : Bool}
    (hs : l[4 * k + 2]? = some (sda, scl)) : ∃ a x b y e z,
    l.take (4 * k + 2) = l.take (4 * k) ++ [(a, x), (b, y)] ∧
    l.take (4 * (k + 1)) = l.take (4 * k) ++ [(a, x), (b, y), (sda, scl), (e, z)] := by
  have ext : ∀ n, n < l.length → ∃ p, l[n]? = some p ∧ l.take (n + 1) = l.take n ++ [p] := by
    intro n hn
    refine ⟨l[n], List.getElem?_eq_getElem hn, ?_⟩
    rw [List.take_add_one, List.getElem?_eq_getElem hn]; rfl
  obtain ⟨⟨a, x⟩, _, h0⟩ := ext (4 * k) (by omega)
  obtain ⟨⟨b, y⟩, _, h1⟩ := ext (4 * k + 1) (by omega)
  obtain ⟨p, hp, h2⟩ := ext (4 * k + 2) (by omega)
  obtain ⟨⟨e, z⟩, _, h3⟩ := ext (4 * k + 3) (by omega)
  rw [hs] at hp
  cases hp
  refine ⟨a, x, b, y, e, z, ?_, ?_⟩
  · rw [h1, h0]; simp
  · rw [show 4 * (k + 1) = 4 * k + 3 + 1 by omega, h3, h2, h1, h0]; simp

/-- The data cells of a byte the master sends, the clock high at each sample. -/
theorem i2cRun_dataCells (l : List (Bool × Bool)) (c : I2c) (he : c.i2cen = true) (hf : c.fsm = .cellDrive)
    (hp : c.ph ≠ .rx) (hk : c.cell = 0) (hl : l.length = 36)
    (hs : ∀ k, k < 9 → ∃ sda, l[4 * k + 2]? = some (sda, true)) (n : Nat) (hn : n ≤ 8) (h0 : 0 < n) :
    i2cRun soc (l.take (4 * n)) c = some { c with
      mSda := msbFirst c.sh (n - 1), mScl := false, stretch := 0, cell := ⟨n, by omega⟩, fsm := .cellDrive } := by
  induction n with
  | zero => omega
  | succ n ih =>
    obtain ⟨sda, h⟩ := hs n (by omega)
    obtain ⟨a, x, b, y, e, z, _, h4⟩ := take_cell (by omega) h
    rw [h4, i2cRun_append]
    rcases Nat.eq_zero_or_pos n with rfl | hpos
    · have := i2cRun_dataCell (soc := soc) a b sda e x y z c he hf hp 1 (by rw [hk]; decide) (by rw [hk]; rfl)
      rw [hk] at this
      exact this
    · rw [ih (by omega) hpos]
      exact i2cRun_dataCell a b sda e x y z { c with
        mSda := msbFirst c.sh (n - 1), mScl := false, stretch := 0, cell := ⟨n, by omega⟩, fsm := .cellDrive }
        he rfl hp ⟨n + 1, by omega⟩ (by show n < 8; omega) rfl

/-- A whole byte the master sends: the level of the data line at the last sample is the acknowledge. -/
theorem i2cRun_sendByte (l : List (Bool × Bool)) (ack : Bool) (c : I2c) (he : c.i2cen = true) (hf : c.fsm = .cellDrive)
    (hp : c.ph ≠ .rx) (hk : c.cell = 0) (hl : l.length = 36)
    (hs : ∀ k, k < 9 → ∃ sda, l[4 * k + 2]? = some (sda, true)) (ha : l[34]? = some (ack, true)) :
    i2cRun soc l c = some { c with
      mSda := true, mScl := false, stretch := 0, nack := ack, cell := 8, fsm := .byteNext
      rem := if c.ph = .tx ∧ ack = false then countDown c.rem else c.rem } := by
  obtain ⟨a, x, b, y, e, z, _, h4⟩ := take_cell (k := 8) (by omega) ha
  rw [show 4 * (8 + 1) = l.length by omega, List.take_length] at h4
  rw [h4, i2cRun_append, i2cRun_dataCells l c he hf hp hk hl hs 8 (by omega) (by omega)]
  exact i2cRun_ackCell a b ack e x y z { c with
    mSda := msbFirst c.sh (8 - 1), mScl := false, stretch := 0, cell := ⟨8, by omega⟩, fsm := .cellDrive } he rfl hp rfl

/-- What the engine drives at the samples of a byte the master sends: its bits, most significant first, then the released
line. -/
theorem i2cRun_atSample (l : List (Bool × Bool)) (c : I2c) (he : c.i2cen = true) (hf : c.fsm = .cellDrive)
    (hp : c.ph ≠ .rx) (hk : c.cell = 0) (hl : l.length = 36)
    (hs : ∀ k, k < 9 → ∃ sda, l[4 * k + 2]? = some (sda, true)) (k : Nat) (h9 : k < 9) :
    ∃ c', i2cRun soc (l.take (4 * k + 2)) c = some c' ∧ c'.fsm = .cellSample ∧ c'.mScl = true ∧
      c'.mSda = if k < 8 then msbFirst c.sh k else true := by
  obtain ⟨sda, h⟩ := hs k h9
  obtain ⟨a, x, b, y, _, _, h4, _⟩ := take_cell (by omega) h
  rw [h4, i2cRun_append]
  rcases Nat.eq_zero_or_pos k with rfl | hpos
  · refine ⟨_, i2cRun_toSample a b x y c he hf hp, rfl, rfl, ?_⟩
    simp [hk]
  · rw [i2cRun_dataCells l c he hf hp hk hl hs k (by omega) hpos]
    exact ⟨_, i2cRun_toSample a b x y { c with
      mSda := msbFirst c.sh (k - 1), mScl := false, stretch := 0, cell := ⟨k, by omega⟩, fsm := .cellDrive }
      he rfl hp, rfl, rfl, rfl⟩

end Sys2Proof.Machine
end

