-- ==== Sys2Proof/Tests/Slice0.lean ====
section
/-! SUPPORT. Tests: the refusals of ill-formed terms, every operation's request written out from the opcode map, one or
two small steps for each operation with the values of the worked examples (95_test_vectors.md, V<n>), and for every
statement with hypotheses a state and operands that meet them. -/

namespace Sys2Proof.Tests

open Sys2Proof Sys2Proof.Machine

/-! ## Well-formedness -/

/-- `I2C.C` bit 10 must be written 0 (V19). -/
theorem test_wellFormed_refuses_interrupt_bit : (Instr.wrI2cC 0x8400).wellFormed = false := by decide

/-- `SPI.CS` bit 8 must be written 0 (V19). -/
theorem test_wellFormed_refuses_dma_enable : (Instr.wrSpiCs 0x100).wellFormed = false := by decide

/-- A start and a transfer-active write are well formed. -/
theorem test_wellFormed_accepts :
    (Instr.wrI2cC 0x8081).wellFormed = true ∧ (Instr.wrSpiCs 0x1F10BF).wellFormed = true := by
  decide

/-- At most 65535 bytes in one I2C write. -/
theorem test_wellFormed_refuses_long_write : (DriverOp.i2cWrite (List.replicate 65536 0)).wellFormed = false := by
  rw [DriverOp.wellFormed, List.length_replicate]; rfl

/-- The machine refuses the ill-formed writes by name (V19). -/
theorem test_exec_refuses_ill_formed (s : State) :
    exec (.wrI2cC 0x8400) s = .refused .interruptMode ∧ exec (.wrSpiCs 0x100) s = .refused .modeOutOfScope ∧
      exec (.wrSpiCs 0x40) s = .refused .modeOutOfScope := ⟨rfl, rfl, rfl⟩

/-! ## Decoding: the header words of 30_encoding.md R116, written out -/

theorem test_decode_gpio_mode_reads :
    decodeTableWord 32 0x0200000 = some .rdGpioMode0 ∧ decodeTableWord 32 0x0200004 = some .rdGpioMode1 ∧
    decodeTableWord 32 0x0200008 = some .rdGpioMode2 ∧ decodeTableWord 32 0x020000C = some .rdGpioMode3 ∧
    decodeTableWord 32 0x0200010 = some .rdGpioMode4 ∧ decodeTableWord 32 0x0200014 = some .rdGpioMode5 :=
  ⟨rfl, rfl, rfl, rfl, rfl, rfl⟩

theorem test_decode_gpio_mode_writes :
    decodeTableWord 64 0x00000900_01200000 = some (.wrGpioMode0 0x900) ∧
    decodeTableWord 64 0x000000A4_01200004 = some (.wrGpioMode1 0xA4) ∧
    decodeTableWord 64 0x00000001_01200008 = some (.wrGpioMode2 1) ∧
    decodeTableWord 64 0x80000000_0120000C = some (.wrGpioMode3 0x80000000) ∧
    decodeTableWord 64 0x00000003_01200010 = some (.wrGpioMode4 3) ∧
    decodeTableWord 64 0xFFFFFFFF_01200014 = some (.wrGpioMode5 0xFFFFFFFF) :=
  ⟨rfl, rfl, rfl, rfl, rfl, rfl⟩

theorem test_decode_gpio_triggers :
    decodeTableWord 64 0x00000005_0120001C = some (.wrGpioSet0 5) ∧
    decodeTableWord 64 0x00000001_01200020 = some (.wrGpioSet1 1) ∧
    decodeTableWord 64 0x00000004_01200028 = some (.wrGpioClr0 4) ∧
    decodeTableWord 64 0x00000001_0120002C = some (.wrGpioClr1 1) ∧
    decodeTableWord 32 0x020001C = some .rdGpioSet0 ∧ decodeTableWord 32 0x0200020 = some .rdGpioSet1 ∧
    decodeTableWord 32 0x0200028 = some .rdGpioClr0 ∧ decodeTableWord 32 0x020002C = some .rdGpioClr1 :=
  ⟨rfl, rfl, rfl, rfl, rfl, rfl, rfl, rfl⟩

theorem test_decode_gpio_levels :
    decodeTableWord 32 0x0200034 = some .rdGpioLev0 ∧ decodeTableWord 32 0x0200038 = some .rdGpioLev1 ∧
    decodeTableWord 64 0xFFFFFFFF_01200034 = some (.wrGpioLev0 0xFFFFFFFF) ∧
    decodeTableWord 64 0x00000002_01200038 = some (.wrGpioLev1 2) :=
  ⟨rfl, rfl, rfl, rfl⟩

theorem test_decode_i2c_reads :
    decodeTableWord 32 0x0804000 = some .rdI2cC ∧ decodeTableWord 32 0x0804004 = some .rdI2cS ∧
    decodeTableWord 32 0x0804008 = some .rdI2cDlen ∧ decodeTableWord 32 0x080400C = some .rdI2cA ∧
    decodeTableWord 32 0x0804010 = some .rdI2cFifo ∧ decodeTableWord 32 0x0804014 = some .rdI2cDiv ∧
    decodeTableWord 32 0x0804018 = some .rdI2cDel ∧ decodeTableWord 32 0x080401C = some .rdI2cClkt :=
  ⟨rfl, rfl, rfl, rfl, rfl, rfl, rfl, rfl⟩

theorem test_decode_i2c_writes :
    decodeTableWord 64 0x00008080_01804000 = some (.wrI2cC 0x8080) ∧
    decodeTableWord 64 0x00000302_01804004 = some (.wrI2cS 0x302) ∧
    decodeTableWord 64 0x00000002_01804008 = some (.wrI2cDlen 2) ∧
    decodeTableWord 64 0x00000050_0180400C = some (.wrI2cA 0x50) ∧
    decodeTableWord 64 0x00000012_01804010 = some (.wrI2cFifo 0x12) ∧
    decodeTableWord 64 0x000005DC_01804014 = some (.wrI2cDiv 0x5DC) ∧
    decodeTableWord 64 0x005D0177_01804018 = some (.wrI2cDel 0x5D0177) ∧
    decodeTableWord 64 0x00000040_0180401C = some (.wrI2cClkt 0x40) :=
  ⟨rfl, rfl, rfl, rfl, rfl, rfl, rfl, rfl⟩

theorem test_decode_spi :
    decodeTableWord 32 0x0204000 = some .rdSpiCs ∧ decodeTableWord 64 0x000400B0_01204000 = some (.wrSpiCs 0x400B0) ∧
    decodeTableWord 32 0x0204004 = some .rdSpiFifo ∧ decodeTableWord 64 0x0000009F_01204004 = some (.wrSpiFifo 0x9F) ∧
    decodeTableWord 32 0x0204008 = some .rdSpiClk ∧ decodeTableWord 64 0x00000040_01204008 = some (.wrSpiClk 0x40) :=
  ⟨rfl, rfl, rfl, rfl, rfl, rfl⟩

/-- Headers that match no row (V19): outside, just past the I2C window, unnamed words, an odd halfword; and a set bit
above the header. -/
theorem test_decode_refuses :
    decode .bcm283x ⟨.w32, 0x0000000, 0⟩ = .error .outsideMappedWindows ∧
    decode .bcm283x ⟨.w32, 0x0804020, 0⟩ = .error .outsideMappedWindows ∧
    decode .bcm283x ⟨.w32, 0x0200018, 0⟩ = .error .unmappedOffset ∧ decode .bcm283x ⟨.w32, 0x120400C, 0⟩ = .error .unmappedOffset ∧
    decode .bcm283x ⟨.w32, 0x0804002, 0⟩ = .error .accessWidth ∧ decode .bcm283x ⟨.w8, 0x0804000, 0⟩ = .error .accessWidth ∧
    decodeTableWord 32 0x2200000 = none :=
  ⟨rfl, rfl, rfl, rfl, rfl, rfl, rfl⟩

/-! ## Small steps -/

/-- Reset with all three windows mapped. -/
abbrev ready : State := { State.reset with mapped := ⟨true, true, true⟩, begun := ⟨true, true, true⟩ }

/-- `ready` with its I2C block changed. -/
abbrev i2cAt (f : I2c → I2c) : State := { ready with i2c := f I2c.reset }

/-- `ready` with its SPI block changed. -/
abbrev spiAt (f : Spi → Spi) : State := { ready with spi := f Spi.reset }

/-- `ready` with its GPIO block changed. -/
abbrev gpioAt (f : Gpio → Gpio) : State := { ready with gpio := f Gpio.reset }

/-- `ready` with a driver operation in progress. -/
abbrev taskAt (op : DriverOp) (cont : List HostCmd) : State := { ready with tasks := [newTask op cont] }

/-- The state of a step's outcome; `ready` where there is none. -/
abbrev stateOf (o : Host.Outcome State Fault Refusal) : State :=
  match o with
  | .next s => s
  | _ => ready

/-- What an access returns, and what it does to GPIO, I2C and SPI. -/
abbrev beat (i : Instr) (s : State) : Word := (stateOf (exec i s)).rdata
abbrev gpioAfter (i : Instr) (s : State) : Gpio := (stateOf (exec i s)).gpio
abbrev i2cAfter (i : Instr) (s : State) : I2c := (stateOf (exec i s)).i2c
abbrev spiAfter (i : Instr) (s : State) : Spi := (stateOf (exec i s)).spi

/-- The windows are checked at the bus: before `i2c.init` a read of `I2C.S` is refused (V19). -/
theorem test_unmapped_window :
    step { State.reset with issued := some ⟨.w32, 0x0804004, 0⟩ } = .refused .windowNotMapped := rfl

/-- A placed request is the one that runs, with all its bits. -/
theorem test_placed_request_runs :
    step (State.reset.withFetchWord 64 0x000400B0_01204000) =
      exec (.wrSpiCs 0x400B0) { State.reset with mapped := ⟨false, true, false⟩, begun := ⟨false, true, false⟩ } := rfl

/-- Another SoC: the I2C window elsewhere, `I2C.C.READ` at bit 1, `DONE` cleared by a start. -/
abbrev otherSoc : Soc := { Soc.bcm283x with
  layout := { Layout.bcm283x with i2cWindow := ⟨0x205000, 0x20⟩, moves := [(.i2cC, 0, 1)] }
  i2cDoneAutoclear := true }

/-- There the start word has the direction at bit 1, and the word of the opcode table is placed in that layout. -/
theorem test_other_layout :
    decode otherSoc.layout ⟨.w32, 0x1205000, 0x8082⟩ = .ok (.wrI2cC 0x8081) ∧
      decode otherSoc.layout ⟨.w32, 0x1804000, 0x8081⟩ = .error .outsideMappedWindows ∧
      step ({ State.reset with soc := otherSoc }.withFetchWord 64 0x00008081_01804000) =
        exec (.wrI2cC 0x8081) { State.reset with
          soc := otherSoc, mapped := ⟨false, false, true⟩, begun := ⟨false, false, true⟩ } :=
  ⟨rfl, rfl, rfl⟩

/-- There a start clears `DONE` (43_i2c_engine.md R222). -/
theorem test_other_autoclear :
    let c : I2c := { I2c.reset with i2cen := true, stPend := true, done := true }
    (i2cTransition otherSoc true true c).map (fun c' => c'.done) = some false ∧
      (i2cTransition .bcm283x true true c).map (fun c' => c'.done) = some true := by decide

/-- V11: reserved fields are dropped. -/
theorem test_mode_writes_drop_reserved :
    (gpioAfter (.wrGpioMode0 0xFFFFFFFF) ready).mode = #v[0x3FFFFFFF, 0, 0, 0, 0, 0] ∧
    (gpioAfter (.wrGpioMode1 0xFFFFFFFF) ready).mode = #v[0, 0x3FFFFFFF, 0, 0, 0, 0] ∧
    (gpioAfter (.wrGpioMode2 0xFFFFFFFF) ready).mode = #v[0, 0, 0x3FFFFFFF, 0, 0, 0] ∧
    (gpioAfter (.wrGpioMode3 0xFFFFFFFF) ready).mode = #v[0, 0, 0, 0x3FFFFFFF, 0, 0] ∧
    (gpioAfter (.wrGpioMode4 0xFFFFFFFF) ready).mode = #v[0, 0, 0, 0, 0x3FFFFFFF, 0] ∧
    (gpioAfter (.wrGpioMode5 0xFFFFFFFF) ready).mode = #v[0, 0, 0, 0, 0, 0xFFF] := by decide

/-- Each mode register reads back its own fields (R156). -/
theorem test_mode_reads :
    let s := gpioAt fun g => { g with mode := #v[0x24800900, 0x24, 3, 4, 5, 0xFFF] }
    beat .rdGpioMode0 s = 0x24800900 ∧ beat .rdGpioMode1 s = 0x24 ∧ beat .rdGpioMode2 s = 3 ∧
      beat .rdGpioMode3 s = 4 ∧ beat .rdGpioMode4 s = 5 ∧ beat .rdGpioMode5 s = 0xFFF := by decide

/-- V12: `SET0` 5 then `CLR0` 4 leaves pin 0 high; `SET1` names pins 32 to 53 only. -/
theorem test_triggers :
    (gpioAfter (.wrGpioSet0 5) ready).out = 5 ∧
    (gpioAfter (.wrGpioClr0 4) (gpioAt fun g => { g with out := 5 })).out = 1 ∧
    (gpioAfter (.wrGpioSet1 0xFFFFFFFF) ready).out = 0x3FFFFF_00000000 ∧
    (gpioAfter (.wrGpioClr1 1) (gpioAt fun g => { g with out := 0x3_00000001 })).out = 0x2_00000001 := by decide

/-- V15: reads of the triggers and writes of the levels change no latch. -/
theorem test_triggers_hold_nothing :
    let s := gpioAt fun g => { g with out := 5 }
    (gpioAfter .rdGpioSet0 s).out = 5 ∧ (gpioAfter .rdGpioSet1 s).out = 5 ∧ (gpioAfter .rdGpioClr0 s).out = 5 ∧
      (gpioAfter .rdGpioClr1 s).out = 5 ∧ exec (.wrGpioLev0 0xFFFFFFFF) s = .next s ∧
      exec (.wrGpioLev1 0xFFFFFFFF) s = .next s :=
  ⟨rfl, rfl, rfl, rfl, rfl, rfl⟩

/-- V13, V14: an output pad shows its latch, an input pad the environment. -/
theorem test_level_reads :
    let output := gpioAt fun g => { g with mode := #v[0, 0x200000, 0, 0, 0, 0x200], out := 0x200000_00020000 }
    let input := gpioAt fun g => { g with out := 0x20000, envIn := 0x100000_00000000 }
    (levelWord output 0 0).getLsbD 17 = true ∧ (levelWord output 0 1).getLsbD 21 = true ∧
      (levelWord input 0 0).getLsbD 17 = false ∧ (levelWord input 0 1).getLsbD 20 = true := by decide

/-- The levels a read returns are those of `levelWord`, up to the draw. -/
theorem test_level_reads_return_the_pads :
    beat .rdGpioLev0 ready = levelWord ready (Config.draw 0) 0 ∧
      beat .rdGpioLev1 ready = levelWord ready (Config.draw 0) 1 := ⟨rfl, rfl⟩

/-- V22, V23: a start with the bus enabled is pending, with the bus disabled it is lost. -/
theorem test_control_write :
    (i2cAfter (.wrI2cC 0x8081) ready).stPend = true ∧ (i2cAfter (.wrI2cC 0x8081) ready).read = true ∧
      (i2cAfter (.wrI2cC 0x0080) ready).stPend = false := by decide

/-- V24, V19: a clear empties both queues at rest and is refused in flight. -/
theorem test_control_clear :
    i2cAfter (.wrI2cC 0x8020) (i2cAt fun c => { c with txq := [1, 2], rxq := [3] }) =
        { I2c.reset with i2cen := true } ∧
      exec (.wrI2cC 0x8010) (i2cAt fun c => { c with i2cen := true, fsm := .cellDrive }) = .refused .clearInFlight ∧
      exec (.wrI2cC 0x8080) (i2cAt fun c => { c with i2cen := true, fsm := .cellDrive }) = .refused .startWhileActive :=
  ⟨by decide, rfl, rfl⟩

/-- V17, V22: `ST` and `CLEAR` read 0. -/
theorem test_control_read :
    beat .rdI2cC (i2cAt fun c => { c with i2cen := true, read := true, stPend := true }) = 0x8001 := by
  decide

/-- V25, V26: the status word, draw bits apart. -/
theorem test_status_words :
    i2cStatusWord .bcm283x I2c.reset 0 = 0x050 ∧ i2cStatusWord .bcm283x { I2c.reset with done := true, err := true } 0 = 0x152 ∧
      i2cStatusWord .bcm283x { I2c.reset with rxq := List.replicate 16 0 } 0 = 0x0F0 ∧
      i2cStatusWord .bcm283x { I2c.reset with txq := List.replicate 16 0, clkt := true, fsm := .cellFall } 0 = 0x201 := by decide

/-- A status read returns that word. -/
theorem test_status_read : beat .rdI2cS ready = i2cStatusWord .bcm283x I2c.reset (Config.draw 0) := rfl

/-- V26: write one to clear, `TA` not writable. -/
theorem test_status_write :
    let s := i2cAt fun c => { c with done := true, err := true }
    i2cAfter (.wrI2cS 0x002) s = { I2c.reset with err := true } ∧ i2cAfter (.wrI2cS 0x302) s = I2c.reset ∧
      i2cAfter (.wrI2cS 0x001) s = s.i2c := by decide

/-- V21, V28, V20: the stored fields, reserved bits ignored. -/
theorem test_i2c_configuration_writes :
    i2cAfter (.wrI2cA 0xD0) ready = { I2c.reset with addr := 0x50 } ∧
      i2cAfter (.wrI2cDlen 0x12345) ready = { I2c.reset with dlen := 0x2345 } ∧
      i2cAfter (.wrI2cClkt 0x10040) ready = { I2c.reset with tout := 0x40 } ∧
      i2cAfter (.wrI2cDiv 0xFFFF0000) ready = { I2c.reset with cdiv := 0 } ∧
      i2cAfter (.wrI2cDel 0x005D0177) ready = { I2c.reset with fedl := 0x5D, redl := 0x177 } := by decide

/-- V19: a configuration write in flight is refused. -/
theorem test_i2c_configuration_in_flight :
    exec (.wrI2cA 0x51) (i2cAt fun c => { c with i2cen := true, fsm := .byteNext }) =
      .refused .configChangeInFlight := rfl

/-- V20, V28 and the reset table (10_state.md R70): the words read back. -/
theorem test_i2c_configuration_reads :
    beat .rdI2cDel (i2cAt fun c => { c with fedl := 0x5D, redl := 0x177 }) = 0x005D0177 ∧
      beat .rdI2cDlen (i2cAt fun c => { c with dlen := 0x2345 }) = 0x2345 ∧
      beat .rdI2cA (i2cAt fun c => { c with addr := 0x50 }) = 0x50 ∧
      beat .rdI2cDiv ready = 0x5DC ∧ beat .rdI2cClkt ready = 0x40 ∧ beat .rdI2cDel ready = 0x00300030 := by decide

/-- V29, V19: a FIFO write pushes the low byte; with 16 bytes queued it is refused. -/
theorem test_i2c_fifo_write :
    i2cAfter (.wrI2cFifo 0x1FF) (i2cAt fun c => { c with txq := [1] }) = { I2c.reset with txq := [1, 0xFF] } ∧
      exec (.wrI2cFifo 1) (i2cAt fun c => { c with txq := List.replicate 16 0 }) = .refused .fifoFull :=
  ⟨by decide, rfl⟩

/-- V29: a FIFO read takes the head; an empty queue stays empty. -/
theorem test_i2c_fifo_read :
    let s := i2cAt fun c => { c with rxq := [0xAB, 0xCD] }
    beat .rdI2cFifo s = 0xAB ∧ (i2cAfter .rdI2cFifo s).rxq = [0xCD] ∧ (i2cAfter .rdI2cFifo ready).rxq = [] :=
  ⟨rfl, rfl, rfl⟩

/-- V50, V51, V60: status words, draw bit apart. -/
theorem test_spi_status_words :
    spiStatusWord .bcm283x Spi.reset 0 = 0x00041000 ∧
      spiStatusWord .bcm283x { Spi.reset with cs := 3, cpha := true, cpol := true, ta := true } 0 = 0x0005108F ∧
      spiStatusWord .bcm283x { Spi.reset with ren := false, ta := true, txq := [0], rxq := List.replicate 16 0 } 0 =
        0x00160080 := by decide

/-- A status read returns that word. -/
theorem test_spi_status_read : beat .rdSpiCs ready = spiStatusWord .bcm283x Spi.reset (Config.draw 0) := rfl

/-- V51, V52, V56: the six stored bits, the queue clears, the resting clock line. -/
theorem test_spi_control_write :
    spiAfter (.wrSpiCs 0x001F108F) ready =
        { Spi.reset with cs := 3, cpha := true, cpol := true, ta := true, ren := true, sclk := true } ∧
      spiAfter (.wrSpiCs 0x000600B0) (spiAt fun c => { c with ren := false, rxq := [0x77] }) =
        { Spi.reset with ren := false, ta := true } := by decide

/-- V61: clearing `TA` in mid byte drops the byte; changing the mode in mid byte is refused. -/
theorem test_spi_control_write_in_flight :
    let busy : Spi → Spi := fun c => { c with ren := false, ta := true, sfsm := .trail, sbit := 3, sclk := true }
    spiAfter (.wrSpiCs 0) (spiAt busy) = { Spi.reset with ren := false } ∧
      exec (.wrSpiCs 0x84) (spiAt busy) = .refused .configChangeInFlight ∧
      exec (.wrSpiClk 4) (spiAt busy) = .refused .configChangeInFlight := ⟨by decide, rfl, rfl⟩

/-- V62, V66: a FIFO write queues the byte. -/
theorem test_spi_fifo_write :
    spiAfter (.wrSpiFifo 0x19F) (spiAt fun c => { c with txq := [1] }) = { Spi.reset with txq := [1, 0x9F] } ∧
      exec (.wrSpiFifo 1) (spiAt fun c => { c with txq := List.replicate 16 0 }) = .refused .fifoFull :=
  ⟨by decide, rfl⟩

/-- R307: a FIFO read takes the head. -/
theorem test_spi_fifo_read :
    let s := spiAt fun c => { c with rxq := [0xC2, 1] }
    beat .rdSpiFifo s = 0xC2 ∧ (spiAfter .rdSpiFifo s).rxq = [1] := ⟨rfl, rfl⟩

/-- V65. -/
theorem test_spi_clock :
    spiAfter (.wrSpiClk 0x12345) ready = { Spi.reset with cdiv := 0x2345 } ∧
      beat .rdSpiClk (spiAt fun c => { c with cdiv := 0x2345 }) = 0x2345 := by decide

/-- V21, V30: the address byte for 0x50 is 0xA0 in a write frame and 0xA1 in a read frame. -/
theorem test_address_byte :
    (tStart false { I2c.reset with addr := 0x50 }).sh = 0xA0 ∧
      (tStart false { I2c.reset with addr := 0x50, read := true }).sh = 0xA1 := by decide

/-- V36: with `TOUT` 1 the first stretch aborts, with `DONE` and `ERR` clear. -/
theorem test_stretch_abort :
    tStretch { I2c.reset with i2cen := true, tout := 1, fsm := .cellSample } =
      { I2c.reset with i2cen := true, tout := 1, stretch := 1, clkt := true } := by decide

/-- V58: in mode 3 the byte is driven at the leading edge and sampled at the trailing edge. -/
theorem test_mode_three_bit :
    let c := { Spi.reset with cpol := true, cpha := true, ta := true, sclk := true, ssh := 0xA5, sfsm := .lead }
    (tLead false c).mosi = true ∧ (tLead false c).sclk = false ∧ (tTrail true (tLead false c)).srx = 1 := by decide

/-- `gpio.init` comes first in the coordinator's init, so its failed mapping is what is returned, whatever the other
components are (70_reset_and_hazards.md R410). -/
theorem test_coordinator_map_failed :
    ∃ t, runTurns [.call .coordinatorInit, .host 0, .osMap 0 false]
        { State.reset with mapped := ⟨false, true, false⟩, begun := ⟨false, true, false⟩ } = .next t ∧
      t.result = some (.error .mapFailed) ∧ t.tasks = [] := ⟨_, rfl, rfl, rfl⟩

/-- A second `init` with no teardown between (41_gpio.md R165): at once, while the first one's mapping is awaited, and after
the first one failed. -/
theorem test_second_init :
    runTurns [.call .gpioInit, .call .gpioInit] State.reset = .refused .initTwice ∧
      runTurns [.call .gpioInit, .osMap 0 false, .call .gpioInit] State.reset = .refused .initTwice := ⟨rfl, rfl⟩

/-- With a teardown between, the second `init` maps the window again (41_gpio.md R165, R166). -/
theorem test_init_after_teardown :
    ∃ t, runTurns [.call .gpioInit, .osMap 0 true, .call .gpioTeardown, .call .gpioInit, .osMap 0 true] State.reset =
        .next t ∧ t.result = some .ok ∧ t.tasks = [] ∧ t.mapped = ⟨true, false, false⟩ := ⟨_, rfl, rfl, rfl, rfl⟩

/-- After `MapFailed` the handle is null, also where an earlier mapping had succeeded (60_exceptions.md R374). -/
theorem test_map_failed_unmaps :
    let l := [Turn.call .gpioInit, .call .gpioTeardown, .call .gpioInit, .osMap 0 true, .osMap 0 false]
    (∃ t, runTurns l State.reset = .next t ∧ t.result = some (.error .mapFailed) ∧ t.mapped.gpio = false) ∧
      runTurns (l ++ [.call (.getPinLevel 3)]) State.reset = .refused .outsideInitWindow := ⟨⟨_, rfl, rfl, rfl⟩, rfl⟩

/-- A bus teardown unmaps the bus first and needs the GPIO window for the pins (44_i2c_host.md R290). -/
theorem test_bus_teardown :
    ∃ t, runTurns [.call .i2cTeardown, .call .i2cInit] ready = .refused .concurrentTransaction ∧
      runTurns (.call .i2cTeardown :: List.replicate 8 (.host 0)) ready = .next t ∧
      t.result = some .ok ∧ t.tasks = [] ∧ t.mapped = ⟨true, true, false⟩ ∧ t.begun = ⟨true, true, false⟩ :=
  ⟨_, rfl, rfl, rfl, rfl, rfl, rfl⟩

/-- An SPI operation runs beside an I2C one (46_spi_host.md R350); a second I2C one does not (44_i2c_host.md R280). -/
theorem test_operations_side_by_side :
    let s := taskAt (.i2cRead 1) [.await .i2c 0x20]
    callTurn .spiEndTransfer s = .next { s with
      tasks := s.tasks ++ [newTask .spiEndTransfer (clearFlags .spiCs 0x80)] } ∧
    callTurn (.i2cWrite [1]) s = .refused .concurrentTransaction := ⟨rfl, rfl⟩

/-- Between the two halves of an update nothing of the host's falls: a `gpio.teardown` called there does not unmap, once the
update is done it does (40_regaccess.md R143). -/
theorem test_no_call_inside_an_update :
    let s := taskAt (.setPinMode 3 .input) [.wrClr (.gpioMode 0) 0xE00]
    callTurn .gpioTeardown s = .next s ∧
      ∃ t, runTurns [.host 0, .call .gpioTeardown] s = .next t ∧ t.mapped.gpio = false := ⟨rfl, _, rfl, rfl⟩

/-- V20: the delay word of a divider. -/
theorem test_delay_words :
    delayWord 0 = 0x00010001 ∧ delayWord 15 = 0x00010003 ∧ delayWord 1500 = 0x005D0177 ∧
      delayWord 0xFFFF = 0x0FFF3FFF := by decide

/-! ## The hypotheses of the statements can be met -/

/-- The post-init pin modes (V72): pins 2, 3, 7, 8, 9, 10, 11 in ALT0. -/
abbrev multiplexed : Gpio := { Gpio.reset with mode := #v[0x24800900, 0x24, 0, 0, 0, 0] }

/-- An enabled I2C block in a given place. -/
abbrev busy (fsm : I2cFsm) (ph : Phase) : I2c := { I2c.reset with i2cen := true, fsm := fsm, ph := ph }

theorem default_layout_sound : layoutSound Layout.bcm283x := by decide

theorem default_soc_sound : socSound Soc.bcm283x :=
  ⟨default_layout_sound, by decide, by decide, by decide, by decide, by decide, by decide⟩

/-- Another sound layout. -/
theorem witness_DecodeOfEncode : layoutSound Layout.bcm283x ∧ layoutSound otherSoc.layout :=
  ⟨default_layout_sound, by decide⟩

theorem witness_PlacedRequestRunsNext : layoutSound State.reset.soc.layout := default_layout_sound

theorem witness_DecodedHeaderIsTheTableHeader : decode .bcm283x ⟨.w32, 0x180400C, 0x50⟩ = .ok (.wrI2cA 0x50) := rfl

/-- One request for each clause, at the edges of the windows. -/
theorem witness_UnmatchedRequestsAreRefused :
    layoutSound ready.soc.layout ∧
      requestTurn ⟨.w8, 0x0200000, 0⟩ ready = .refused .accessWidth ∧
      requestTurn ⟨.w32, 0x01FFFFF, 0⟩ ready = .refused .outsideMappedWindows ∧
      requestTurn ⟨.w32, 0x020003C, 0⟩ ready = .refused .outsideMappedWindows ∧
      requestTurn ⟨.w32, 0x0204018, 0⟩ ready = .refused .outsideMappedWindows ∧
      requestTurn ⟨.w32, 0x1804020, 0⟩ ready = .refused .outsideMappedWindows ∧
      requestTurn ⟨.w32, 0x020003B, 0⟩ ready = .refused .accessWidth ∧
      requestTurn ⟨.w32, 0x080401F, 0⟩ ready = .refused .accessWidth ∧
      requestTurn ⟨.w32, 0x0204014, 0⟩ ready = .refused .unmappedOffset :=
  ⟨default_layout_sound, rfl, rfl, rfl, rfl, rfl, rfl, rfl, rfl⟩

/-- A request to a mapped window, to one not mapped, and one that an operation in progress stands against. -/
theorem witness_StepRunsTheDecodedRequest :
    let i : Instr := .wrSpiCs 0xB0
    let blocked := taskAt .spiReadByte [.await .spi 0x20000]
    decode .bcm283x ⟨.w32, 0x1204000, 0xB0⟩ = .ok i ∧ requestBlocked i ready = false ∧
      ready.mapped.get i.reg.window = true ∧ requestBlocked i State.reset = false ∧
      State.reset.mapped.get i.reg.window = false ∧ requestBlocked i blocked = true ∧ ready.issued = none :=
  ⟨rfl, rfl, rfl, rfl, rfl, rfl, rfl⟩

theorem witness_RequestTouchesOnlyItsBlock :
    exec (.wrSpiClk 5) ready = .next (ready.setSpi { Spi.reset with cdiv := 5 }) ∧
      exec (.wrI2cA 5) ready = .next (ready.setI2c { I2c.reset with addr := 5 }) ∧
      exec (.wrGpioSet0 5) ready = .next (ready.setGpio { Gpio.reset with out := 5 }) := ⟨rfl, rfl, rfl⟩

theorem witness_ReadsHaveNoSideEffect :
    Instr.rdI2cS.isWrite = false ∧ Instr.rdI2cS.reg ≠ .i2cFifo ∧ Instr.rdI2cS.reg ≠ .spiFifo := by decide

/-- The pin written and the pin kept, at the ends of register 5. -/
theorem witness_ModeWriteGivesEachPinItsField :
    exec (writeInstr (.gpioMode 5) 0xFFFFFFFF) ready =
        .next (ready.setGpio { Gpio.reset with mode := #v[0, 0, 0, 0, 0, 0xFFF] }) ∧
      (53 : Pin).val / 10 = 5 ∧ (49 : Pin).val / 10 ≠ 5 := ⟨rfl, rfl, by decide⟩

/-- An input pin, an output pin, and each bus pin in ALT0. -/
theorem witness_LevelReadsShowThePads : socSound ready.soc ∧
    pinModeCode Gpio.reset 0 = 0 ∧ pinModeCode { Gpio.reset with mode := #v[0, 0, 0, 0, 0, 0x200] } 53 = 1 ∧
      (∀ p ∈ ([2, 3, 7, 8, 9, 10, 11] : List Pin), pinModeCode multiplexed p = 4) := ⟨default_soc_sound, by decide⟩

/-- SPI multiplexed with `REN` 0 and with `REN` 1, and not multiplexed. -/
theorem witness_BusInputsFollowTheMultiplexer :
    pinModeCode multiplexed 9 = 4 ∧ pinModeCode multiplexed 10 = 4 ∧ Spi.reset.ren = true ∧
      ({ Spi.reset with ren := false } : Spi).ren = false ∧ pinModeCode Gpio.reset 9 ≠ 4 ∧
      pinModeCode Gpio.reset 10 ≠ 4 := by decide

theorem witness_I2cConfigurationWritesAtIdle : ready.i2c.fsm = .idle := rfl

/-- Both engines busy; a write that turns the direction round; one that changes each SPI bit group. -/
theorem witness_ConfigurationChangeInFlightIsRefused :
    ((busy .cellFall .tx).fsm ≠ .idle ∧ (0x8001 : Word) &&& 0x700 = 0 ∧
      (0x8001 : Word).getLsbD 0 ≠ (busy .cellFall .tx).read ∧
      ({ Spi.reset with ta := true, sfsm := .lead } : Spi).sfsm ≠ .idle) ∧
    ((0x1081 : Word) &&& 0x03E0EF40 = 0 ∧ (0x1081 : Word).extractLsb' 0 2 ≠ Spi.reset.cs) ∧
    ((0x1084 : Word) &&& 0x03E0EF40 = 0 ∧ (0x1084 : Word).getLsbD 2 ≠ Spi.reset.cpha) ∧
    ((0x1088 : Word) &&& 0x03E0EF40 = 0 ∧ (0x1088 : Word).getLsbD 3 ≠ Spi.reset.cpol) ∧
    ((0x0080 : Word) &&& 0x03E0EF40 = 0 ∧ (0x0080 : Word).getLsbD 12 ≠ Spi.reset.ren) :=
  ⟨by decide, by decide, by decide, by decide, by decide⟩

theorem witness_I2cControlWriteAtIdle : ready.i2c.fsm = .idle ∧ (0xF0B1 : Word).extractLsb' 8 3 = 0 := by decide

/-- The enable cleared, and the enable kept with no start. -/
theorem witness_I2cControlWriteInFlight :
    let c := busy .cellSample .addr
    let meets (w : Word) : Prop := w.extractLsb' 8 3 = 0 ∧ w.extractLsb' 4 2 = 0 ∧ w.getLsbD 0 = c.read
    c.fsm ≠ .idle ∧ (meets 0x80 ∧ (0x80 : Word).getLsbD 15 = false) ∧
      (meets 0x8000 ∧ (0x8000 : Word).getLsbD 15 = true ∧ c.i2cen = true ∧ (0x8000 : Word).getLsbD 7 = false) := by
  decide

/-- One write for each refusal. -/
theorem witness_I2cControlWriteRefusals :
    (0x100 : Word) &&& 0x700 ≠ 0 ∧ (0x400 : Word) &&& 0x700 ≠ 0 ∧ (busy .byteNext .tx).fsm ≠ .idle ∧
      (0x8010 : Word) &&& 0x700 = 0 ∧ (0x8010 : Word).getLsbD 0 = (busy .byteNext .tx).read ∧
      (0x8010 : Word) &&& 0x30 ≠ 0 ∧ (0x8080 : Word) &&& 0x700 = 0 ∧
      (0x8080 : Word).getLsbD 0 = (busy .byteNext .tx).read ∧ (0x8080 : Word) &&& 0x30 = 0 ∧
      (0x8080 : Word).getLsbD 15 = true ∧ (0x8080 : Word).getLsbD 7 = true := by decide

/-- A queue with room for one, and a full one. -/
theorem witness_FifoWritesPushOneByte :
    (List.replicate 15 (0 : Byte)).length ≠ 16 ∧ (List.replicate 16 (0 : Byte)).length = 16 := by decide

theorem witness_FifoReadsPopOneByte :
    (i2cAt fun c => { c with rxq := [7] }).i2c.rxq = 7 :: [] ∧ ready.i2c.rxq = [] ∧
      (spiAt fun c => { c with rxq := [7] }).spi.rxq = 7 :: [] ∧ ready.spi.rxq = [] := ⟨rfl, rfl, rfl, rfl⟩

theorem witness_SpiControlWriteAtRest :
    ready.spi.sfsm = .idle ∧ (0xFC1F10BF : Word) &&& 0x03E0EF40 = 0 := by decide

/-- `TA` kept, and `TA` cleared. -/
theorem witness_SpiControlWriteInFlight :
    let c : Spi := { Spi.reset with ta := true, sfsm := .trail }
    let keeps (w : Word) : Prop := w &&& 0x03E0EF40 = 0 ∧ w.extractLsb' 0 2 = c.cs ∧ w.getLsbD 2 = c.cpha ∧
      w.getLsbD 3 = c.cpol ∧ w.getLsbD 12 = c.ren
    (c.sfsm ≠ .idle ∧ c.ta = true) ∧ (keeps 0x10B0 ∧ (0x10B0 : Word).getLsbD 7 = true) ∧
      (keeps 0x1010 ∧ (0x1010 : Word).getLsbD 7 = false) :=
  ⟨by decide, by decide, by decide⟩

theorem witness_SpiOutOfScopeModesAreRefused :
    (∀ n ∈ [6, 8, 9, 10, 11, 13, 14, 15, 21, 22, 23, 24, 25], (0x03E0EF40 : Word).getLsbD n = true) := by decide

theorem witness_SpiClockRegister : ready.spi.sfsm = .idle := rfl

/-- Lines free (pins not multiplexed), and a line held low by the environment. -/
theorem witness_StartLatchesTheTransfer :
    let free := i2cAt fun c => { c with i2cen := true, stPend := true }
    let held : State := { free with gpio := { multiplexed with envIn := 0x8 } }
    free.i2c.fsm = .idle ∧ free.i2c.i2cen = true ∧ free.i2c.stPend = true ∧ sdaIn free = true ∧ sclIn free = true ∧
      sdaIn held = false ∧ (i2cAt fun _ => busy .startHold .addr).i2c.fsm = .startHold := by decide

/-- Every place of a cell, with the first, seventh, eighth and acknowledge cells and both data phases. -/
theorem witness_OneCell :
    (busy .cellDrive .tx).i2cen = true ∧ (busy .cellDrive .tx).fsm = .cellDrive ∧
      (busy .cellRise .rx).fsm = .cellRise ∧ (busy .cellSample .rx).fsm = .cellSample ∧
      (busy .cellFall .tx).cell.val < 7 ∧ ({ busy .cellFall .addr with cell := 7 } : I2c).cell.val = 7 ∧
      ({ busy .cellFall .rx with cell := 7, rem := 1 } : I2c).rem ≠ 0 ∧
      ({ busy .cellFall .tx with cell := 8, rem := 1 } : I2c).nack = false ∧
      ({ busy .cellFall .tx with cell := 8, rem := 1 } : I2c).rem ≠ 0 ∧
      ¬ (({ busy .cellFall .rx with cell := 8 } : I2c).ph = .tx ∧ (busy .cellFall .rx).nack = false) := by decide

/-- Every way on from a byte boundary. -/
theorem witness_BetweenBytes :
    (busy .byteNext .addr).i2cen = true ∧ (busy .byteNext .addr).fsm = .byteNext ∧
      ({ busy .byteNext .addr with nack := true } : I2c).nack = true ∧ (busy .byteNext .tx).nack = false ∧
      (busy .byteNext .tx).rem = 0 ∧ (busy .byteNext .rx).rem = 0 ∧
      ({ busy .byteNext .tx with rem := 1, txq := [5] } : I2c).txq = 5 :: [] ∧ (busy .byteNext .tx).txq = [] ∧
      ({ busy .byteNext .addr with rem := 1, rd := true } : I2c).rd = true ∧
      ({ busy .byteNext .rx with rxq := List.replicate 15 0 } : I2c).rxq.length < 16 ∧
      16 ≤ ({ busy .byteNext .rx with rxq := List.replicate 16 0 } : I2c).rxq.length := by decide

/-- A send stall and a receive stall. -/
theorem witness_FifoAccessLiftsTheStall :
    let send : I2c := { busy .byteNext .tx with rem := 1 }
    let receive : I2c := { busy .byteNext .rx with rem := 1, rxq := List.replicate 16 0 }
    0 < Soc.bcm283x.i2cFifoDepth ∧ send.i2cen = true ∧ send.rem ≠ 0 ∧ i2cTransition .bcm283x true true send = none ∧ i2cQueuesFit .bcm283x send ∧
      receive.i2cen = true ∧ receive.rem ≠ 0 ∧ i2cTransition .bcm283x true true receive = none ∧
      i2cQueuesFit .bcm283x receive := by decide

theorem witness_StopSequence :
    (busy .stopDrive .tx).i2cen = true ∧ (busy .stopDrive .tx).fsm = .stopDrive ∧
      (busy .stopRise .tx).fsm = .stopRise ∧ (busy .stopWait .tx).fsm = .stopWait := by decide

/-- Counting on with the timeout off, just below the bound, and reaching it; and at the top of the counter. -/
theorem witness_StretchCountsAndTimesOut :
    (busy .cellSample .tx).i2cen = true ∧ (busy .cellSample .tx).fsm = .cellSample ∧
      tStretch { busy .stopWait .tx with tout := 0, stretch := 65535 } =
        { busy .stopWait .tx with tout := 0, stretch := 65535 } ∧
      tStretch { busy .stopWait .tx with tout := 3, stretch := 1 } =
        { busy .stopWait .tx with tout := 3, stretch := 2 } ∧
      (tStretch { busy .stopWait .tx with tout := 3, stretch := 2 }).clkt = true := by decide

theorem witness_I2cTransitionTable :
    i2cTransition .bcm283x true true (busy .stopDrive .tx) = some { busy .stopRise .tx with mSda := false } := by decide

theorem witness_I2cEngineFrame :
    i2cEngineTurn (i2cAt fun _ => busy .cellRise .tx) = .next (i2cAt fun _ => busy .cellSample .tx) := rfl

theorem witness_DoneIsSetOnlyByTheStopRelease :
    let s := i2cAt fun _ => busy .stopWait .tx
    takeTurn .i2cEngine s = .next (i2cAt fun _ => { busy .idle .tx with done := true }) ∧
      s.soc.resetI2c.done = false ∧ s.i2c.done = false := ⟨rfl, rfl, rfl⟩

theorem witness_ErrIsSetOnlyByAMissingAcknowledge :
    let s := i2cAt fun _ => { busy .byteNext .addr with nack := true }
    takeTurn .i2cEngine s = .next (i2cAt fun _ => { busy .stopDrive .addr with nack := true, err := true }) ∧
      s.soc.resetI2c.err = false ∧ s.i2c.err = false := ⟨rfl, rfl, rfl⟩

theorem witness_ClktIsSetOnlyByTheClockTimeout :
    let g : Gpio := { multiplexed with envIn := 0 }
    let c : I2c := { busy .cellSample .addr with tout := 1 }
    takeTurn .i2cEngine { ready with gpio := g, i2c := c } =
        .next { ready with gpio := g, i2c := { c with fsm := .idle, stretch := 1, clkt := true } } ∧
      ready.soc.resetI2c.clkt = false ∧ c.clkt = false := ⟨rfl, rfl, rfl⟩

theorem witness_MissingAcknowledgeEndsWithStop :
    let c : I2c := { busy .byteNext .tx with nack := true, rem := 2, txq := [3] }
    c.i2cen = true ∧ c.fsm = .byteNext ∧ c.ph ≠ .rx ∧ c.nack = true := by decide

/-- V30's start: two bytes queued, `DLEN` 2. The clock is seen high only at the start, at the samples and at the STOP, the
data line only at the start. -/
theorem witness_WriteFrameRunsToItsEnd :
    let c : I2c := { busy .idle .addr with stPend := true, dlen := 2, txq := [0x12, 0x34], addr := 0x50 }
    let sample (n : Nat) : Bool := decide (4 ≤ n ∧ n < 113 ∧ (n - 2) % 37 < 36 ∧ (n - 2) % 37 % 4 = 2)
    let l := (List.range 116).map fun n => (n == 0, n == 0 || sample n || n == 115)
    (c.fsm = .idle ∧ c.i2cen = true ∧ c.stPend = true ∧ c.read = false ∧ c.dlen.toNat = c.txq.length) ∧
      l.length = 5 + 37 * (c.txq.length + 1) ∧ l[0]? = some (true, true) ∧
      (∀ j, j ≤ 2 → ∀ k, k < 9 → l[2 + 37 * j + 4 * k + 2]? = some (false, true)) ∧
      l[4 + 37 * 3]? = some (false, true) := by decide

/-- The data line high at the acknowledge alone. -/
theorem witness_AbsentSlaveFrame :
    let c : I2c := { busy .idle .addr with stPend := true, dlen := 1, txq := [0x55] }
    let l := (List.range 42).map fun n => (n == 0 || n == 36, n == 0 || n % 4 == 0 || n == 41)
    (c.fsm = .idle ∧ c.i2cen = true ∧ c.stPend = true) ∧ l.length = 42 ∧ l[0]? = some (true, true) ∧
      (∀ k, k < 9 → l[2 + 4 * k + 2]? = some (decide (k = 8), true)) ∧ l[41]? = some (false, true) := by decide

/-- The gate open with 15 bytes received, and closed in each of its three ways. -/
theorem witness_SpiLoadGate :
    let c : Spi := { Spi.reset with ta := true, txq := [5], rxq := List.replicate 15 0 }
    c.sfsm = .idle ∧ c.ta = true ∧ c.txq = 5 :: [] ∧ c.rxq.length < 16 ∧ Spi.reset.ta = false ∧ Spi.reset.txq = [] ∧
      16 ≤ ({ c with rxq := List.replicate 16 0 } : Spi).rxq.length := by decide

/-- Every place of the shifter, with the last bit. -/
theorem witness_SpiOneBit :
    ({ Spi.reset with sfsm := .setup } : Spi).sfsm = .setup ∧ ({ Spi.reset with sfsm := .lead } : Spi).sfsm = .lead ∧
      ({ Spi.reset with sfsm := .trail, sbit := 7 } : Spi).sfsm = .trail ∧
      ({ Spi.reset with sfsm := .store } : Spi).sfsm = .store := by decide

/-- V57's answer 0xC2 in mode 0, and V58's 0x3C in mode 3. -/
theorem witness_SpiByteExchange :
    let c : Spi := { Spi.reset with ta := true, txq := [0x9F] }
    let bits (a : Byte) (from_ : Nat) : List Bool :=
      (List.range 26).map fun n => decide (from_ ≤ n) && a.getLsbD (7 - (n - from_) / 3)
    c.sfsm = .idle ∧ c.ta = true ∧ c.txq = 0x9F :: [] ∧ c.rxq.length < 16 ∧ (bits 0xC2 2).length = 26 ∧
      (∀ k, k < 8 → (bits 0xC2 2)[3 * k + 2]? = some ((0xC2 : Byte).getLsbD (7 - k))) ∧
      (∀ k, k < 8 → (bits 0x3C 3)[3 * k + 3]? = some ((0x3C : Byte).getLsbD (7 - k))) := by decide

theorem witness_SpiEngineFrame :
    spiEngineTurn (spiAt fun c => { c with sfsm := .store, sbit := 7, srx := 5 }) =
      .next ((spiAt fun c => { c with rxq := [5], srx := 5 }).drawn) := rfl

/-- A sound state in mid frame with an operation in progress, and a step of the engine from it; and a placed request, which
the very next step takes. -/
theorem witness_EveryStepKeepsSoundness :
    let c : I2c := { busy .cellRise .addr with mScl := false, sh := 0xA0 }
    let s : State := { taskAt (.i2cRead 1) [.await .i2c 0x20] with i2c := c }
    stateSound s ∧ takeTurn .i2cEngine s = .next { s with i2c := { c with mScl := true, fsm := .cellSample } } ∧
      stateSound { ready with issued := some ⟨.w32, 0x1204008, 5⟩ } ∧
      step { ready with issued := some ⟨.w32, 0x1204008, 5⟩ } = .next (ready.setSpi { Spi.reset with cdiv := 5 }) :=
  ⟨⟨default_soc_sound, by decide, by decide, by decide, by decide, by decide⟩, rfl,
    ⟨default_soc_sound, by decide, by decide, by decide, by decide, by decide⟩, rfl⟩

/-- The four flags an await waits for, and each value of the two error flags; another operation beside. -/
theorem witness_I2cAwaitTestsInOrder :
    let k := newTask (.i2cRead 1) (.poll .i2c 0x020 :: disableBus)
    let s : State := { ready with tasks := [newTask .spiReadByte [.await .spi 0x20000], k] }
    s.mapped.i2c = true ∧ s.tasks[1]? = some k ∧ (s.tasks.eraseIdx 1).any midUpdate = false ∧ disableBus ≠ [] ∧
      I2c.reset.err = false ∧ I2c.reset.clkt = false ∧ ({ I2c.reset with err := true } : I2c).err = true ∧
      ({ I2c.reset with clkt := true } : I2c).clkt = true := by decide

/-- The start of an await, and a deadline met and passed by one tick, on each bus. -/
theorem witness_AwaitDeadline :
    (taskAt .spiReadByte [.await .spi 0x20000]).tasks[0]? = some (newTask .spiReadByte [.await .spi 0x20000]) ∧
      ((taskAt .spiReadByte [.await .spi 0x20000]).tasks.eraseIdx 0).any midUpdate = false ∧
      (taskAt .spiReadByte [.expire .spi 0x20000]).now ≤ (newTask .spiReadByte [.expire .spi 0x20000]).deadline ∧
      (newTask (.i2cRead 1) [.expire .i2c 0x20]).deadline < { ready with now := 1 }.now ∧
      (newTask (.spiRead 1) [.expire .spi 0x20000]).deadline < { ready with now := 1 }.now := by decide

theorem witness_I2cErrorsDisableTheBus :
    let k : Task := { newTask (.i2cRead 1) disableBus with failed := some .noResponse }
    { ready with tasks := [k] }.tasks[0]? = some k ∧ ([k].eraseIdx 0).any midUpdate = false ∧ ready.mapped.i2c = true ∧
      k.cont = disableBus ∧ k.failed = some .noResponse ∧ (∀ n, k.op ≠ .spiRead n) ∧
      (∀ data, k.op ≠ .spiWrite data) ∧ i2cLinesFollow I2c.reset :=
  ⟨rfl, rfl, rfl, rfl, rfl, fun _ => nofun, fun _ => nofun, by decide⟩

/-- A pin of register 5 while an I2C read is in progress; the pin itself and its neighbour. -/
theorem witness_SetPinModeSetsOneField :
    let s := taskAt (.i2cRead 1) [.await .i2c 0x20]
    socSound s.soc ∧ s.mapped.gpio = true ∧ inUse s (claimsOf s.soc (.setPinMode 107 .output)) = false ∧
      s.tasks.any midUpdate = false ∧ (53 : Pin).val = 107 % s.soc.npins ∧ (52 : Pin).val ≠ 107 % s.soc.npins :=
  ⟨default_soc_sound, rfl, rfl, rfl, rfl, by decide⟩

/-- A pin in OUTPUT mode and one in INPUT mode, named by arguments past the pin count. -/
theorem witness_PinLevelReadsBackOnOutputs :
    socSound ready.soc ∧ ready.mapped.gpio = true ∧ ready.tasks.any midUpdate = false ∧
      pinInMode (gpioAt fun g => { g with mode := #v[0, 0, 0, 0, 0, 0x200] }) (pinOfArg .bcm283x 107) .output = true ∧
      pinInMode ready (pinOfArg .bcm283x 54) .input = true :=
  ⟨default_soc_sound, rfl, rfl, by decide, by decide⟩

theorem witness_ClockDividerSetsTheDelays :
    let s := taskAt .spiReadByte [.await .spi 0x20000]
    s.mapped.gpio = true ∧ s.mapped.i2c = true ∧ s.i2c.fsm = .idle ∧
      inUse s (claimsOf s.soc (.i2cSetClockDivider 1500)) = false ∧ s.tasks.any midUpdate = false :=
  ⟨rfl, rfl, rfl, rfl, rfl⟩

theorem witness_FailedI2cInitLeavesThePinsMultiplexed :
    let s : State := { State.reset with mapped := ⟨true, false, false⟩, begun := ⟨true, false, false⟩ }
    socSound s.soc ∧ s.mapped.gpio = true ∧ s.begun.i2c = false ∧ inUse s (claimsOf s.soc .i2cInit) = false ∧
      s.tasks.any midUpdate = false :=
  ⟨default_soc_sound, rfl, rfl, rfl, rfl⟩

theorem witness_BeginTransferStartsClean :
    let s := taskAt (.i2cRead 1) [.await .i2c 0x20]
    s.mapped.gpio = true ∧ s.mapped.spi = true ∧ spiSound s.soc s.spi ∧
      inUse s (claimsOf s.soc .spiBeginTransfer) = false ∧ s.tasks.any midUpdate = false ∧ s.spi.sfsm = .idle :=
  ⟨rfl, rfl, by decide, rfl, rfl, rfl⟩

/-- Operations in progress; nothing mapped; everything mapped; and operations that nothing in progress stands against. -/
theorem witness_CallsOutsideTheContractAreRefused :
    let k := newTask .spiReadByte [.await .spi 0x20000]
    let m := newTask (.setPinMode 52 .output) [.rd (.gpioMode 5)]
    (busOperation k.op = some .spi ∧ busOperation (.spiWrite []) = some .spi) ∧
      (m.op = .setPinMode 52 .output ∧ mregOf (pinOfArg .bcm283x 52) = mregOf (pinOfArg .bcm283x 107)) ∧
      (∀ op ∈ [DriverOp.i2cRead 1, .setPinMode 107 .input, .i2cInit, .gpioInit, .coordinatorInit],
        inUse State.reset (claimsOf .bcm283x op) = false ∧ inUse ready (claimsOf .bcm283x op) = false) ∧
      inUse { ready with tasks := [k] } (claimsOf .bcm283x (.i2cRead 1)) = false ∧
      (State.reset.mapped = ⟨false, false, false⟩ ∧ ready.mapped = ⟨true, true, true⟩ ∧
        ready.begun = ⟨true, true, true⟩ ∧ ready.tasks.any midUpdate = false) :=
  ⟨⟨rfl, rfl⟩, ⟨rfl, rfl⟩, by decide, rfl, rfl, rfl, rfl, rfl⟩

end Sys2Proof.Tests
end

section
/-! The encoder and the decoder agree (30_encoding.md R111 to R113, R116). -/

namespace Sys2Proof

@[simp] theorem encode_width (L : Layout) (i : Instr) : (encode L i).width = .w32 := rfl
@[simp] theorem encode_header (L : Layout) (i : Instr) : (encode L i).header = headerOf L i := rfl
@[simp] theorem encode_wdata (L : Layout) (i : Instr) : (encode L i).wdata = toBus L i.reg (dataBeatOf i) := rfl

/-- The header of an operation names its register by the offset and its direction by bit 24, and its data beat comes back
from the SoC's bit positions; an operation is given by these three. -/
theorem decode_encode {L : Layout} (h : Machine.layoutSound L) (i : Instr) : decode L (encode L i) = .ok i := by
  rw [decode_ok_iff]
  refine ⟨encode_width L i, i.reg, ?offset, ?operation⟩
  case offset => rw [encode_header, headerOf_off h, decodeOffset_offOf h]
  case operation =>
    rw [encode_header, headerOf_dir, encode_wdata, fromBus_toBus]
    exact instr_eq i

theorem decodeTableWord_tableWordOf (i : Instr) : decodeTableWord 64 (tableWordOf i) = some i := by
  rw [decodeTableWord, requestOfTableWord_tableWordOf]
  exact congrArg Except.toOption (decode_encode layoutSound_default i)

/-- Settles O1, from the round trip in any sound layout, the default layout's headers, and the numbers of the opcode table
as requests of the default layout. -/
theorem decodeOfEncode : Obligations.DecodeOfEncode := by
  intro i
  exact ⟨fun _ h => decode_encode h i, headerOf_default i, decodeTableWord_tableWordOf i⟩

end Sys2Proof
end

section
/-! What a step does with an issued request, and which requests leave the block alone (20_memory.md sections 2 to 4). -/

namespace Sys2Proof.Machine

/-! ## The request a step takes (20_memory.md R83, R92) -/

/-- Whether an operation in progress stands against a request does not depend on what is issued. -/
@[simp] theorem requestBlocked_setIssued (i : Instr) (s : State) (r : Option Request) :
    requestBlocked i (s.setIssued r) = requestBlocked i s := rfl

theorem step_of_issued_free {s : State} {r : Request} {i : Instr} (hr : s.issued = some r)
    (hd : decode s.soc.layout r = .ok i) (hb : requestBlocked i s = false) :
    step s = busAccess i (s.setIssued none) := by
  rw [step_of_issued hr, requestTurn_free (by simpa using hd) (by simpa using hb)]

theorem step_of_issued_blocked {s : State} {r : Request} {i : Instr} (hr : s.issued = some r)
    (hd : decode s.soc.layout r = .ok i) (hb : requestBlocked i s = true) :
    step s = .refused .concurrentTransaction := by
  rw [step_of_issued hr, requestTurn_blocked (by simpa using hd) (by simpa using hb)]

/-- Settles O5, from the two outcomes of an issued request and the bus access of the free one; with none issued, the turn
is the free choice. -/
theorem stepRunsTheDecodedRequest : Obligations.StepRunsTheDecodedRequest := by
  refine ⟨fun s r i hr hd => ⟨fun hb hm => ?mapped, fun hb hm => ?unmapped, fun hb => ?blocked⟩, fun s hn => ?free⟩
  case mapped =>
    rw [step_of_issued_free hr hd hb, busAccess_mapped (by simpa using hm)]
    rfl
  case unmapped => rw [step_of_issued_free hr hd hb, busAccess_unmapped (by simpa using hm)]
  case blocked => exact step_of_issued_blocked hr hd hb
  case free => exact ⟨Config.freeTurn s.draws, step_of_none hn⟩

/-! ## Reads (20_memory.md R86) -/

/-- The outcome is a next state that differs from `s` in the data beat and the count of free values alone. -/
def OnlyAnswers (s : State) (o : Host.Outcome State Fault Refusal) : Prop :=
  ∃ (v : Word) (n : Nat), o = .next { s with rdata := v, draws := n }

theorem answer_onlyAnswers (v : Word) (s : State) : OnlyAnswers s (answer v s) := ⟨v, s.draws, rfl⟩

theorem answerDrawn_onlyAnswers (v : Word) (s : State) : OnlyAnswers s (answerDrawn v s) := ⟨v, s.draws + 1, rfl⟩

theorem exec_readSet (j : Fin 2) (s : State) : exec (readInstr (.gpioSet j)) s = readTrigger s := by
  match j with | 0 | 1 => rfl

theorem exec_readClr (j : Fin 2) (s : State) : exec (readInstr (.gpioClr j)) s = readTrigger s := by
  match j with | 0 | 1 => rfl

/-- The read of every register but the two FIFOs is an answer, with or without a free value in it. -/
theorem exec_readInstr_onlyAnswers {g : Reg} (hi : g ≠ .i2cFifo) (hs : g ≠ .spiFifo) (s : State) :
    OnlyAnswers s (exec (readInstr g) s) := by
  cases g with
  | gpioMode i => rw [exec_readMode]; exact answer_onlyAnswers _ s
  | gpioSet j => rw [exec_readSet]; exact answerDrawn_onlyAnswers _ s
  | gpioClr j => rw [exec_readClr]; exact answerDrawn_onlyAnswers _ s
  | gpioLev j => rw [exec_readLevel]; exact answerDrawn_onlyAnswers _ s
  | i2cS | spiCs => exact answerDrawn_onlyAnswers _ s
  | i2cC | i2cDlen | i2cA | i2cDiv | i2cDel | i2cClkt | spiClk => exact answer_onlyAnswers _ s
  | i2cFifo => exact absurd rfl hi
  | spiFifo => exact absurd rfl hs

/-- Settles O8: a read is the read of its register. -/
theorem readsHaveNoSideEffect : Obligations.ReadsHaveNoSideEffect := by
  intro i s hw hi hs
  have hread : i = readInstr i.reg := by simpa [hw] using instr_eq i
  rw [hread]
  exact exec_readInstr_onlyAnswers hi hs s

end Sys2Proof.Machine
end

section
/-! Which calls are outside the contract: what an operation uses, what it needs, and the coordinator's first component
(20_memory.md R92, 70_reset_and_hazards.md sections 2 and 3). -/

namespace Sys2Proof.Machine

/-! ## What is in use -/

theorem inUse_of_mem {s : State} {k : Task} {c : Claim} {claims : List Claim} (hk : k ∈ s.tasks) (hc : c ∈ claims)
    (hkc : c ∈ claimsOf s.soc k.op) : inUse s claims = true := by
  simp only [inUse, clash, List.any_eq_true, List.contains_iff_mem]
  exact ⟨k, hk, c, hc, hkc⟩

/-- A bus operation uses its bus and nothing else. -/
theorem claimsOf_busOperation {op : DriverOp} {b : Bus} (h : busOperation op = some b) (soc : Soc) :
    claimsOf soc op = [.bus b] := by
  cases op <;> cases h <;> rfl

/-- A call that shares a claim with an operation in progress is refused. -/
theorem callTurn_sharedClaim {s : State} {k : Task} {c : Claim} {op : DriverOp} (hk : k ∈ s.tasks)
    (hc : c ∈ claimsOf s.soc op) (hkc : c ∈ claimsOf s.soc k.op) : callTurn op s = .refused .concurrentTransaction :=
  callTurn_inUse (inUse_of_mem hk hc hkc)

theorem callTurn_secondBusOperation {s : State} {k : Task} {b : Bus} {op : DriverOp} (hk : k ∈ s.tasks)
    (hb : busOperation k.op = some b) (ho : busOperation op = some b) :
    callTurn op s = .refused .concurrentTransaction :=
  callTurn_sharedClaim (c := .bus b) hk (by simp [claimsOf_busOperation ho]) (by simp [claimsOf_busOperation hb])

theorem callTurn_secondSetPinMode {s : State} {k : Task} {p p' : Nat} {m m' : PinMode} (hk : k ∈ s.tasks)
    (hop : k.op = .setPinMode p m) (hreg : mregOf (pinOfArg s.soc p) = mregOf (pinOfArg s.soc p')) :
    callTurn (.setPinMode p' m') s = .refused .concurrentTransaction :=
  callTurn_sharedClaim (c := .mode (mregOf (pinOfArg s.soc p'))) hk (by simp [claimsOf])
    (by simp [hop, claimsOf, hreg])

/-! ## What an operation needs -/

theorem needsMapped_unmapped {s : State} {w : Window} (h : s.mapped.get w = false) :
    needsMapped s w = some .outsideInitWindow := by
  simp [needsMapped, h]

theorem needsMapped_mapped {s : State} {w : Window} (h : s.mapped.get w = true) : needsMapped s w = none := by
  simp [needsMapped, h]

/-- A bus operation needs both windows; without either the refusal is the same. -/
theorem needsBus_unmapped {s : State} {w : Window} (h : s.mapped.gpio = false ∨ s.mapped.get w = false) :
    needsBus s w = some .outsideInitWindow := by
  unfold needsBus
  cases hg : s.mapped.get .gpio with
  | false => rw [needsMapped_unmapped hg]; rfl
  | true =>
    have hw : s.mapped.get w = false := h.resolve_left (by simpa [PerWindow.get] using hg)
    rw [needsMapped_mapped hg, needsMapped_unmapped hw]; rfl

theorem preconditionBroken_busOperation {op : DriverOp} {b : Bus} (h : busOperation op = some b) (s : State) :
    preconditionBroken s op = needsBus s (busWindow b) := by
  cases op <;> cases h <;> rfl

/-- A bus `init` before `gpio.init` (70_reset_and_hazards.md R410). -/
theorem initRefusal_unmapped {s : State} {w : Window} (hw : w ≠ .gpio) (h : s.mapped.gpio = false) :
    initRefusal s w = some .outsideInitWindow := by
  rw [initRefusal, if_neg hw, needsMapped_unmapped (w := .gpio) h]; rfl

/-- A second `init` with no teardown between, where the pin controller is up or is the component itself
(41_gpio.md R165, 70_reset_and_hazards.md R434). -/
theorem initRefusal_begun {s : State} {w : Window} (hg : w = .gpio ∨ s.mapped.gpio = true)
    (h : s.begun.get w = true) : initRefusal s w = some .initTwice := by
  have hnone : (if w = .gpio then none else needsMapped s .gpio) = none := by
    rcases hg with rfl | hg
    · rfl
    · rw [needsMapped_mapped (w := .gpio) hg, ite_self]
  rw [initRefusal, hnone, if_pos h]; rfl

/-- The operations that need the GPIO window before any other: the pin operations, a bus's `init` and teardown, and the
coordinator's teardown (70_reset_and_hazards.md R410, R437). A bus operation needs two windows (`needsBus`). -/
def needsGpio : DriverOp → Bool
  | .setPinMode .. | .setPinLow .. | .setPinHigh .. | .getPinLevel .. => true
  | .i2cInit | .spiInit | .i2cTeardown | .spiTeardown | .coordinatorTeardown => true
  | _ => false

theorem preconditionBroken_needsGpio {op : DriverOp} {s : State} (hop : needsGpio op = true)
    (h : s.mapped.gpio = false) : preconditionBroken s op = some .outsideInitWindow := by
  cases op with
  | i2cInit | spiInit => exact initRefusal_unmapped (by decide) h
  | setPinMode | setPinLow | setPinHigh | getPinLevel | i2cTeardown | spiTeardown | coordinatorTeardown =>
    exact needsMapped_unmapped (w := .gpio) h
  | _ => cases hop

/-! ## The coordinator's initialisation -/

theorem runTurns_refused {τ : Turn} {s : State} {r : Refusal} (h : takeTurn τ s = .refused r) (l : List Turn) :
    runTurns (τ :: l) s = .refused r := by
  rw [runTurns, h, andThen_refused]

/-- The coordinator comes to a component that may not be initialised: its sequence is refused there. -/
theorem hostTurn_begin_refused {l : List Task} {k : Task} {w : Window} {rest : List HostCmd} {r : Refusal} {s : State}
    (hk : s.tasks = l ++ [k]) (hu : l.any midUpdate = false) (hc : k.cont = .begin w :: rest)
    (hr : initRefusal s w = some r) : hostTurn l.length s = .refused r := by
  rw [hostTurn_last hk hu hc (by rintro _ ⟨⟩), runCmd, hr]

/-- The coordinator's call is taken up whatever is initialised (log 22); its first command is the beginning of the GPIO
block's `init`, and is refused if that has begun. -/
theorem coordinatorInit_twice {s : State} (hk : inUse s (claimsOf s.soc .coordinatorInit) = false)
    (hu : s.tasks.any midUpdate = false) (hb : s.begun.gpio = true) :
    runTurns [.call .coordinatorInit, .host s.tasks.length] s = .refused .initTwice := by
  have hcall := callTurn_begins hk rfl rfl hu (cmds := coordinatorInitCmds s.soc) (List.cons_ne_nil _ _)
  have hturn := hostTurn_begin_refused
    (s := (called .coordinatorInit s).setTasks (s.tasks ++ [newTask .coordinatorInit (coordinatorInitCmds s.soc)]))
    rfl hu rfl (initRefusal_begun (.inl rfl) hb)
  rw [runTurns_call hcall]
  exact runTurns_refused (τ := .host s.tasks.length) hturn []

/-- Settles O60: a call that shares a claim is refused first, then one whose precondition is broken; the coordinator's
second `init` when it comes to its first component. -/
theorem callsOutsideTheContractAreRefused : Obligations.CallsOutsideTheContractAreRefused := by
  refine ⟨fun s k b op => callTurn_secondBusOperation, fun s k p p' m m' => callTurn_secondSetPinMode, fun s op hk =>
    ⟨fun b hb hm => ?bus, fun p m hop hg => ?pin, fun hop hg => ?initOrTeardown, ?gpio, ?i2c, ?spi, ?coordinator⟩⟩
  case bus =>
    refine callTurn_broken hk ?_
    rw [preconditionBroken_busOperation hb, needsBus_unmapped hm]
  case pin =>
    refine callTurn_broken hk (preconditionBroken_needsGpio ?_ hg)
    simp only [List.mem_cons, List.not_mem_nil, or_false] at hop
    rcases hop with rfl | rfl | rfl | rfl <;> rfl
  case initOrTeardown =>
    have hneeds : ∀ o ∈ [DriverOp.i2cInit, .spiInit, .i2cTeardown, .spiTeardown, .coordinatorTeardown],
        needsGpio o = true := by decide
    exact callTurn_broken hk (preconditionBroken_needsGpio (hneeds op hop) hg)
  case gpio =>
    rintro rfl hb
    exact callTurn_broken hk (initRefusal_begun (.inl rfl) hb)
  case i2c =>
    rintro rfl hg hb
    exact callTurn_broken hk (initRefusal_begun (w := .i2c) (.inr hg) hb)
  case spi =>
    rintro rfl hg hb
    exact callTurn_broken hk (initRefusal_begun (w := .spi) (.inr hg) hb)
  case coordinator =>
    rintro rfl hu hb
    exact coordinatorInit_twice hk hu hb

end Sys2Proof.Machine
end

section
/-! What a request that completes may have changed: the block its window belongs to, and for a read the data beat
(10_state.md R20, 40_regaccess.md R141). -/

namespace Sys2Proof.Machine

/-! ## The block of a window -/

/-- At most the block behind the window `w` has changed from the first state to the second, and not the levels the
environment applies to the pins. -/
inductive BlockWritten (w : Window) (s : State) : State → Prop
  | unchanged : BlockWritten w s s
  | gpio (hw : w = .gpio) (g : Gpio) (henv : g.envIn = s.gpio.envIn) : BlockWritten w s (s.setGpio g)
  | i2c (hw : w = .i2c) (c : I2c) : BlockWritten w s (s.setI2c c)
  | spi (hw : w = .spi) (c : Spi) : BlockWritten w s (s.setSpi c)

/-! ## Writes -/

theorem exec_writeLevel (j : Fin 2) (w : Word) (s : State) :
    exec (writeInstr (.gpioLev j) w) s = writeLevel j w s := by
  match j with | 0 | 1 => rfl

/-- A write of `I2C.FIFO` that is not refused found room and queued the byte (42_i2c_registers.md R192). -/
theorem execWrI2cFifo_next {w : Word} {s t : State} (h : execWrI2cFifo w s = .next t) :
    s.i2c.txq.length ≠ s.soc.i2cFifoDepth ∧
    t = s.setI2c { s.i2c with txq := pushByte s.i2c.txq (byteOf w) } := by
  unfold execWrI2cFifo at h
  split at h
  · cases h
  · rename_i hroom; cases h; exact ⟨hroom, rfl⟩

/-- A write of `SPI.FIFO` that is not refused found room and queued the byte (45_spi.md R306). -/
theorem execWrSpiFifo_next {w : Word} {s t : State} (h : execWrSpiFifo w s = .next t) :
    s.spi.txq.length ≠ s.soc.spiFifoDepth ∧
    t = s.setSpi { s.spi with txq := pushByte s.spi.txq (byteOf w) } := by
  unfold execWrSpiFifo at h
  split at h
  · cases h
  · rename_i hroom; cases h; exact ⟨hroom, rfl⟩

/-- A write of `SPI.CLK` that is not refused came to an engine at rest (45_spi.md R309). -/
theorem execWrSpiClk_next {w : Word} {s t : State} (h : execWrSpiClk w s = .next t) :
    s.spi.sfsm = .idle ∧ t = s.setSpi { s.spi with cdiv := low16Of w } := by
  unfold execWrSpiClk at h
  split at h
  · cases h
  · rename_i hidle; cases h; exact ⟨not_not.1 hidle, rfl⟩

theorem exec_writeInstr_blockWritten {g : Reg} {w : Word} {s t : State} (h : exec (writeInstr g w) s = .next t) :
    BlockWritten g.window s t := by
  cases g with
  | gpioMode i => rw [exec_writeMode] at h; cases h; exact .gpio rfl _ rfl
  | gpioSet j => rw [exec_writeSet] at h; cases h; exact .gpio rfl _ rfl
  | gpioClr j => rw [exec_writeClr] at h; cases h; exact .gpio rfl _ rfl
  | gpioLev j => rw [exec_writeLevel] at h; cases h; exact .unchanged
  | i2cC => obtain ⟨-, -, rfl | ⟨-, -, rfl⟩⟩ := execWrI2cC_next h <;> exact .i2c rfl _
  | i2cS => cases h; exact .i2c rfl _
  | i2cFifo => obtain ⟨-, rfl⟩ := execWrI2cFifo_next h; exact .i2c rfl _
  | i2cDlen | i2cA | i2cDiv | i2cDel | i2cClkt =>
    simp only [writeInstr, exec, execWrI2cDlen, execWrI2cA, execWrI2cDiv, execWrI2cDel, execWrI2cClkt] at h
    obtain ⟨-, rfl⟩ := configureI2c_next h
    exact .i2c rfl _
  | spiCs => obtain ⟨-, -, rfl⟩ := execWrSpiCs_next h; exact .spi rfl _
  | spiFifo => obtain ⟨-, rfl⟩ := execWrSpiFifo_next h; exact .spi rfl _
  | spiClk => obtain ⟨-, rfl⟩ := execWrSpiClk_next h; exact .spi rfl _

/-! ## Reads -/

/-- A read of `I2C.FIFO` completes and, but for its answer, can only take a byte out of the block's queue
(42_i2c_registers.md R193). -/
theorem execRdI2cFifo_onlyAnswers (s : State) :
    ∃ q : List Byte, OnlyAnswers (s.setI2c { s.i2c with rxq := q }) (execRdI2cFifo s) := by
  unfold execRdI2cFifo
  split
  · exact ⟨s.i2c.rxq, answerDrawn_onlyAnswers _ s⟩
  · exact ⟨_, answer_onlyAnswers _ _⟩

/-- A read of `SPI.FIFO` completes and, but for its answer, can only take a byte out of the block's queue
(45_spi.md R307). -/
theorem execRdSpiFifo_onlyAnswers (s : State) :
    ∃ q : List Byte, OnlyAnswers (s.setSpi { s.spi with rxq := q }) (execRdSpiFifo s) := by
  unfold execRdSpiFifo
  split
  · exact ⟨s.spi.rxq, answerDrawn_onlyAnswers _ s⟩
  · exact ⟨_, answer_onlyAnswers _ _⟩

/-- The two FIFOs are the registers whose read writes its block; every read then only answers. -/
theorem exec_readInstr_blockWritten (g : Reg) (s : State) :
    ∃ u, BlockWritten g.window s u ∧ OnlyAnswers u (exec (readInstr g) s) := by
  cases g with
  | i2cFifo =>
    obtain ⟨q, hq⟩ := execRdI2cFifo_onlyAnswers s
    exact ⟨_, .i2c rfl _, hq⟩
  | spiFifo =>
    obtain ⟨q, hq⟩ := execRdSpiFifo_onlyAnswers s
    exact ⟨_, .spi rfl _, hq⟩
  | _ => exact ⟨s, .unchanged, exec_readInstr_onlyAnswers (by simp) (by simp) s⟩

/-! ## Any request -/

/-- All a request that completes can do: write its block, and if it is a read, answer. -/
theorem exec_next {i : Instr} {s t : State} (h : exec i s = .next t) :
    ∃ (u : State) (v : Word) (n : Nat), BlockWritten i.reg.window s u ∧ t = { u with rdata := v, draws := n } ∧
      (i.isWrite = true → v = u.rdata ∧ n = u.draws) := by
  have hi := instr_eq i
  cases hw : i.isWrite with
  | true =>
    rw [hw, if_pos rfl] at hi
    rw [hi] at h
    exact ⟨t, t.rdata, t.draws, exec_writeInstr_blockWritten h, rfl, fun _ => ⟨rfl, rfl⟩⟩
  | false =>
    rw [hw, if_neg Bool.false_ne_true] at hi
    obtain ⟨u, hu, v, n, hv⟩ := exec_readInstr_blockWritten i.reg s
    rw [hi, hv] at h
    cases h
    exact ⟨u, v, n, hu, rfl, nofun⟩

/-- Settles O7: the request wrote its own block, and the rest of the state is as it was but for a read's answer. -/
theorem requestTouchesOnlyItsBlock : Obligations.RequestTouchesOnlyItsBlock := by
  intro i s t h
  obtain ⟨u, v, n, hu, rfl, hbeat⟩ := exec_next h
  have hv : i.isWrite = true → v = u.rdata := fun hw => (hbeat hw).1
  cases hu with
  | unchanged => simpa using hv
  | gpio hw g henv => simpa [hw, henv] using hv
  | i2c hw c => simpa [hw] using hv
  | spi hw c => simpa [hw] using hv

end Sys2Proof.Machine
end

section
/-! What the GPIO register operations do to each pin's latch and to each bit of a mode register (41_gpio.md R153, R154,
R156). -/

namespace Sys2Proof.Machine

/-! ## The latches (R153, R154) -/

/-- A beat written to `SET[j]` or `CLR[j]` names a pin: the pin is in bank `j`, it exists, and its bit of the beat is 1. -/
def namesPin (soc : Soc) (j : Nat) (w : Word) (p : Pin) : Bool :=
  decide (p.val / 32 = j ∧ p.val < soc.npins) && w.getLsbD (p.val % 32)

theorem getLsbD_bankBits_eq_namesPin (soc : Soc) (j : Fin 2) (w : Word) (p : Pin) :
    (bankBits soc j w).getLsbD p.val = namesPin soc j.val w p := by
  rw [getLsbD_bankBits, namesPin, Bool.decide_and, Bool.and_right_comm]

/-- Whatever its mode, a pin the beat names has its latch set, every other pin keeps it. -/
theorem exec_writeSet_latches (j : Fin 2) (w : Word) (s : State) :
    ∃ out : PinBits, exec (writeInstr (.gpioSet j) w) s = .next { s with gpio := { s.gpio with out := out } } ∧
      ∀ p : Pin, out.getLsbD p.val = (if namesPin s.soc j.val w p then true else s.gpio.out.getLsbD p.val) := by
  refine ⟨s.gpio.out ||| bankBits s.soc j w, exec_writeSet j w s, fun p => ?_⟩
  rw [BitVec.getLsbD_or, getLsbD_bankBits_eq_namesPin]
  cases namesPin s.soc j.val w p with
  | true | false => simp

/-- Whatever its mode, a pin the beat names has its latch cleared, every other pin keeps it. -/
theorem exec_writeClr_latches (j : Fin 2) (w : Word) (s : State) :
    ∃ out : PinBits, exec (writeInstr (.gpioClr j) w) s = .next { s with gpio := { s.gpio with out := out } } ∧
      ∀ p : Pin, out.getLsbD p.val = (if namesPin s.soc j.val w p then false else s.gpio.out.getLsbD p.val) := by
  refine ⟨s.gpio.out &&& ~~~ bankBits s.soc j w, exec_writeClr j w s, fun p => ?_⟩
  rw [BitVec.getLsbD_and, BitVec.getLsbD_not, getLsbD_bankBits_eq_namesPin]
  cases namesPin s.soc j.val w p with
  | true | false => simp

/-- Settles O12: each of the four writes is the write of `SET` or `CLR` for its bank. -/
theorem triggerWritesMoveTheLatches : Obligations.TriggerWritesMoveTheLatches := fun w s =>
  ⟨exec_writeSet_latches 0 w s, exec_writeSet_latches 1 w s, exec_writeClr_latches 0 w s, exec_writeClr_latches 1 w s⟩

/-! ## The mode registers (R156) -/

/-- The mask of a mode register keeps the bits of the fields of pins that exist and makes every other bit 0
(10_state.md R24). -/
theorem getLsbD_and_modeFieldsMask (soc : Soc) (i : Fin 6) (w : Word) (b : Nat) :
    (w &&& modeFieldsMask soc i).getLsbD b =
      (decide (b < 30 ∧ 10 * i.val + b / 3 < soc.npins) && w.getLsbD b) := by
  rw [BitVec.getLsbD_and, getLsbD_modeFieldsMask, Bool.decide_and, Bool.and_comm]

theorem exec_readMode_fields (i : Fin 6) (s : State) :
    ∃ v : Word, exec (readInstr (.gpioMode i)) s = .next { s with rdata := v } ∧ ∀ b : Nat,
      v.getLsbD b = (decide (b < 30 ∧ 10 * i.val + b / 3 < s.soc.npins) && s.gpio.mode[i].getLsbD b) :=
  ⟨s.gpio.mode[i] &&& modeFieldsMask s.soc i, exec_readMode i s,
    getLsbD_and_modeFieldsMask s.soc i s.gpio.mode[i]⟩

/-- Settles O9: each of the six reads is the read of its mode register, which masks the stored word. -/
theorem modeReadsReturnTheFields : Obligations.ModeReadsReturnTheFields := fun s =>
  ⟨exec_readMode_fields 0 s, exec_readMode_fields 1 s, exec_readMode_fields 2 s, exec_readMode_fields 3 s,
    exec_readMode_fields 4 s, exec_readMode_fields 5 s⟩

end Sys2Proof.Machine
end

section
/-! The reads of the I2C address, divider, delay and clock-timeout registers (42_i2c_registers.md R190, R194, R196,
R198). -/

namespace Sys2Proof.Machine

theorem answer_eq_next (v : Word) (s : State) : answer v s = .next { s with rdata := v } := rfl

/-- Two halves put side by side are the shifted sum in which the spec writes them (R196). -/
theorem append_eq_shiftLeft_or (hi lo : BitVec 16) : hi ++ lo = hi.setWidth 32 <<< 16 ||| lo.setWidth 32 := by
  rw [BitVec.append_def, BitVec.shiftLeftZeroExtend_eq, BitVec.setWidth'_eq]

/-- The model joins `FEDL` and `REDL`, where R196 shifts and ors them. -/
theorem exec_rdI2cDel (s : State) :
    exec .rdI2cDel s = .next { s with rdata := s.i2c.fedl.setWidth 32 <<< 16 ||| s.i2c.redl.setWidth 32 } :=
  calc exec .rdI2cDel s
    _ = answer (s.i2c.fedl ++ s.i2c.redl) s := rfl
    _ = answer (s.i2c.fedl.setWidth 32 <<< 16 ||| s.i2c.redl.setWidth 32) s := by rw [append_eq_shiftLeft_or]
    _ = .next { s with rdata := s.i2c.fedl.setWidth 32 <<< 16 ||| s.i2c.redl.setWidth 32 } := answer_eq_next _ s

/-- Settles O16: each of the four reads answers its stored field; the delay register has two, joined in one word. -/
theorem i2cRegisterReads : Obligations.I2cRegisterReads := fun s =>
  ⟨answer_eq_next _ s, answer_eq_next _ s, exec_rdI2cDel s, answer_eq_next _ s⟩

end Sys2Proof.Machine
end

section
/-! The `n`-th operation's reads and updates as turns of the host, and the end of an I2C operation that failed
(40_regaccess.md R144, 44_i2c_host.md R289, 60_exceptions.md R383). -/

namespace Sys2Proof.Machine

/-! ## An update by the `n`-th operation -/

section
variable {n : Nat} {k : Task} {r : Reg} {v : Word} {rest : List HostCmd} {s u : State}
  (hk : s.tasks[n]? = some k) (hu : (s.tasks.eraseIdx n).any midUpdate = false)
  (hm : s.mapped.get r.window = true)
include hk hu hm

/-- A read that is only answered keeps the answer for the operation's next command; of the rest of the state it changes
the data beat on the bus. -/
theorem hostTurn_answered (hc : k.cont = .rd r :: rest) (hrest : rest ≠ [])
    (h : exec (readInstr r) s = answer v s) :
    ∃ beat, hostTurn n s =
      .next ((s.setRdata beat).setTasks (s.tasks.set n { k with cont := rest, t := v })) := by
  obtain ⟨beat, hbeat⟩ := deliver_eq (readInstr r) (s.setRdata v)
  refine ⟨beat, ?_⟩
  rw [hostTurn_cmd hk hu hc (by rintro _ ⟨⟩), runCmd,
    access_read (isWrite_readInstr r) (by rwa [reg_readInstr]) h, proceed_more hrest, hbeat]
  rfl

theorem hostTurn_clearWritten (hc : k.cont = .wrClr r v :: rest)
    (h : exec (writeInstr r (k.t &&& ~~~ v)) s = .next u) :
    hostTurn n s = .next (proceed n { k with cont := rest } u) := by
  rw [hostTurn_cmd hk hu hc (by rintro _ ⟨⟩), runCmd]
  exact access_write (isWrite_writeInstr r _) (by rwa [reg_writeInstr]) h

end

/-! ## Clearing `I2CEN` (42_i2c_registers.md R182, R184) -/

/-- All a disable does: the pending start is dropped, and an engine in flight lets both lines go. -/
theorem disableEngine_eq (c : I2c) :
    disableEngine c = { c with
      stPend := false
      fsm := .idle
      mSda := if c.fsm = .idle then c.mSda else true
      mScl := if c.fsm = .idle then c.mScl else true } := by
  unfold disableEngine
  by_cases h : c.fsm = .idle
  · rw [if_pos h, if_pos h, if_pos h, ← h]
  · rw [if_neg h, if_neg h, if_neg h]

/-- An engine whose lines follow it has them released once it is disabled: if it was idle, they already were. -/
theorem disableEngine_lines_released {c : I2c} (h : i2cLinesFollow c) :
    (disableEngine c).mSda = true ∧ (disableEngine c).mScl = true := by
  obtain ⟨hsda, hscl, -⟩ := h
  rw [disableEngine_eq]
  by_cases hidle : c.fsm = .idle
  · have hreleased : c.mScl = true := by rw [hscl, hidle]; rfl
    exact ⟨(if_pos hidle).trans (hsda hidle), (if_pos hidle).trans hreleased⟩
  · exact ⟨if_neg hidle, if_neg hidle⟩

/-- The control word read back, with the enable taken out of it, is the direction bit alone. -/
theorem i2cControlWord_and_not_maskI2cen (c : I2c) : i2cControlWord c &&& ~~~ maskI2cen = bitAt c.read 0 := by
  rw [i2cControlWord]
  generalize c.i2cen = e
  generalize c.read = r
  revert e r
  decide

/-- A beat that carries the direction bit alone asks for no interrupt, start, clear or enable. -/
theorem fields_bitAt_zero (b : Bool) :
    interruptBitsSet (bitAt b 0) = false ∧ readOf (bitAt b 0) = b ∧ clearOf (bitAt b 0) = false ∧
    startOf (bitAt b 0) = false ∧ i2cenOf (bitAt b 0) = false := by
  revert b; decide

/-- The write of `I2C.C` that keeps the direction and clears all else is never refused: it disables the block. -/
theorem exec_wrI2cC_disable (s : State) :
    exec (writeInstr .i2cC (bitAt s.i2c.read 0)) s =
      .next (s.setI2c (disableEngine { s.i2c with i2cen := false })) := by
  obtain ⟨hintr, hread, hclear, hstart, hen⟩ := fields_bitAt_zero s.i2c.read
  have hwritten : controlWritten (bitAt s.i2c.read 0) s.i2c = disableEngine { s.i2c with i2cen := false } := by
    simp only [controlWritten, hen, hread, hclear, Bool.false_eq_true, if_false]
  show execWrI2cC (bitAt s.i2c.read 0) s = _
  simp only [execWrI2cC, hintr, hread, hclear, hstart, hwritten, ne_eq, not_true_eq_false, and_false,
    Bool.false_eq_true, if_false]

/-! ## The abort path -/

/-- The two host steps of `disableBus` at the end of the `n`-th operation's program: the operation returns, and the block
is as a disable leaves it. -/
theorem runTurns_disableBus {s : State} {n : Nat} {k : Task} (hm : s.mapped.i2c = true) (hk : s.tasks[n]? = some k)
    (hu : (s.tasks.eraseIdx n).any midUpdate = false) (hc : k.cont = disableBus) :
    ∃ beat, runTurns [.host n, .host n] s =
      .next ((((s.setRdata beat).setI2c (disableEngine { s.i2c with i2cen := false })).setTasks
        (s.tasks.eraseIdx n)).setResult
          (some (resultOf s.soc { k with cont := [], t := i2cControlWord s.i2c }))) := by
  obtain ⟨beat, hread⟩ := hostTurn_answered (r := .i2cC) (v := i2cControlWord s.i2c) hk hu hm hc
    (List.cons_ne_nil _ _) rfl
  rw [runTurns_host hread]
  have hexec (l : List Task) : exec (writeInstr .i2cC (i2cControlWord s.i2c &&& ~~~ maskI2cen))
      ((s.setRdata beat).setTasks l) =
      .next (((s.setRdata beat).setTasks l).setI2c (disableEngine { s.i2c with i2cen := false })) := by
    rw [i2cControlWord_and_not_maskI2cen]
    exact exec_wrI2cC_disable ((s.setRdata beat).setTasks l)
  refine ⟨beat, Eq.trans (runTurns_host (hostTurn_clearWritten (r := .i2cC) (rest := [])
    (List.getElem?_set_self (List.getElem?_eq_some_iff.1 hk).1) ?_ hm rfl (hexec _))) ?_⟩
  · simpa [List.eraseIdx_set_eq] using hu
  · rw [proceed_done rfl, runTurns_nil]
    simp [State.setTasks, State.setI2c, State.setResult, List.eraseIdx_set_eq]

theorem resultOf_failed {k : Task} {e : DriverError} (hf : k.failed = some e) (hr : ∀ n, k.op ≠ .spiRead n)
    (hw : ∀ data, k.op ≠ .spiWrite data) (soc : Soc) : resultOf soc k = .error e := by
  unfold resultOf
  rw [hf]
  dsimp only
  split
  · rename_i hop; exact absurd hop (hr _)
  · rename_i hop; exact absurd hop (hw _)
  · rfl

/-- Settles O54: the abort path is `disableBus` and then the return, and a disable keeps every field the statement names
but the enable, the pending start, the engine's place and the lines. -/
theorem i2cErrorsDisableTheBus : Obligations.I2cErrorsDisableTheBus := by
  intro s n k e hm hk hu hc hf hr hw
  obtain ⟨beat, hrun⟩ := runTurns_disableBus hm hk hu hc
  rw [resultOf_failed (k := { k with cont := [], t := i2cControlWord s.i2c }) hf hr hw] at hrun
  refine ⟨_, hrun, rfl, rfl, ?_⟩
  refine ⟨?_, ?_, ?_, fun hlines => disableEngine_lines_released (c := { s.i2c with i2cen := false }) hlines, ?_⟩
  all_goals simp [disableEngine_eq]

end Sys2Proof.Machine
end

section
/-! `i2c.set_clock_divider`: the two words its program writes, and its run (44_i2c_host.md R283). -/

namespace Sys2Proof.Machine

/-! ## The words written -/

theorem and_0xFFFF_eq_mod (div : Nat) : div &&& 0xFFFF = div % 65536 := Nat.and_two_pow_sub_one_eq_mod div 16

theorem low16Of_toNat (w : Word) : (low16Of w).toNat = w.toNat % 65536 := by
  rw [low16Of, BitVec.extractLsb'_toNat, Nat.shiftRight_zero]

theorem high16Of_toNat (w : Word) : (high16Of w).toNat = w.toNat / 65536 := by
  have := w.isLt
  rw [high16Of, BitVec.extractLsb'_toNat, Nat.shiftRight_eq_div_pow]
  omega

/-- The two delays of a divider of 16 bits do not overlap in the delay word. -/
theorem delayWord_toNat {d : Nat} (h : d < 65536) :
    (delayWord d).toNat = max (d / 16) 1 * 65536 + max (d / 4) 1 := by
  have hlow : max (d / 4) 1 < 2 ^ 16 := by omega
  rw [delayWord, Nat.shiftRight_eq_div_pow, Nat.shiftRight_eq_div_pow, ← Nat.shiftLeft_add_eq_or_of_lt hlow,
    Nat.shiftLeft_eq, BitVec.toNat_ofNat]
  omega

/-- What the two writes store, for a divider of any size. -/
theorem dividerFields_toNat (div : Nat) :
    (low16Of (BitVec.ofNat 32 (div &&& 0xFFFF))).toNat = div % 65536 ∧
    (high16Of (delayWord (div &&& 0xFFFF))).toNat = max (div % 65536 / 16) 1 ∧
    (low16Of (delayWord (div &&& 0xFFFF))).toNat = max (div % 65536 / 4) 1 := by
  have hd : div % 65536 < 65536 := Nat.mod_lt _ (by decide)
  rw [low16Of_toNat, high16Of_toNat, low16Of_toNat, and_0xFFFF_eq_mod, delayWord_toNat hd, BitVec.toNat_ofNat]
  refine ⟨?_, ?_, ?_⟩ <;> omega

/-! ## The run -/

theorem needsBus_mapped {s : State} {w : Window} (hg : s.mapped.gpio = true) (h : s.mapped.get w = true) :
    needsBus s w = none := by
  rw [needsBus, needsMapped_mapped (w := .gpio) hg, needsMapped_mapped h]; rfl

section
variable {l : List Task} {k : Task} {r : Reg} {v : Word} {rest : List HostCmd} {s : State} {c : I2c}
  (hk : s.tasks = l ++ [k]) (hu : l.any midUpdate = false) (hm : s.mapped.get r.window = true)
include hk hu hm

/-- A write of the I2C block by the operation called last, with more of its program to come. -/
theorem hostTurn_wrI2c_more (hc : k.cont = .wr r v :: rest) (hrest : rest ≠ [])
    (h : exec (writeInstr r v) s = .next (s.setI2c c)) :
    hostTurn l.length s = .next ((s.setI2c c).setTasks (l ++ [{ k with cont := rest }])) := by
  rw [hostTurn_wr hk hu hm hc h, proceed_last_more (s := s.setI2c c) hk hrest]

/-- A write of the I2C block that ends the operation called last. -/
theorem hostTurn_wrI2c_done (hc : k.cont = [.wr r v]) (h : exec (writeInstr r v) s = .next (s.setI2c c)) :
    hostTurn l.length s =
      .next (((s.setI2c c).setTasks l).setResult (some (resultOf s.soc { k with cont := [] }))) := by
  rw [hostTurn_wr hk hu hm hc h, proceed_last_done (s := s.setI2c c) hk rfl, State.setI2c_soc]

end

theorem exec_wrI2cDiv_idle {s : State} (h : s.i2c.fsm = .idle) (w : Word) :
    exec (writeInstr .i2cDiv w) s = .next (s.setI2c { s.i2c with cdiv := low16Of w }) :=
  configureI2c_idle (fun c => { c with cdiv := low16Of w }) h

theorem exec_wrI2cDel_idle {s : State} (h : s.i2c.fsm = .idle) (w : Word) :
    exec (writeInstr .i2cDel w) s = .next (s.setI2c { s.i2c with fedl := high16Of w, redl := low16Of w }) :=
  configureI2c_idle (fun c => { c with fedl := high16Of w, redl := low16Of w }) h

/-- The call, the write of `DIV` and the write of `DEL`: the fields of the two words are stored, and the operation
returns. -/
theorem runTurns_setClockDivider {s : State} {div : Nat} (hg : s.mapped.gpio = true) (hm : s.mapped.i2c = true)
    (hidle : s.i2c.fsm = .idle) (hk : inUse s (claimsOf s.soc (.i2cSetClockDivider div)) = false)
    (hu : s.tasks.any midUpdate = false) :
    runTurns [.call (.i2cSetClockDivider div), .host s.tasks.length, .host s.tasks.length] s =
      .next { s with
        result := some .ok
        i2c := { s.i2c with
          cdiv := low16Of (BitVec.ofNat 32 (div &&& 0xFFFF))
          fedl := high16Of (delayWord (div &&& 0xFFFF))
          redl := low16Of (delayWord (div &&& 0xFFFF)) } } := by
  have hcall := callTurn_begins hk (needsBus_mapped (w := .i2c) hg hm) rfl hu (List.cons_ne_nil _ _)
  have hdiv := hostTurn_wrI2c_more (r := .i2cDiv)
    (s := s.setTasks (s.tasks ++ [newTask (.i2cSetClockDivider div)
      [.wr .i2cDiv (BitVec.ofNat 32 (div &&& 0xFFFF)), .wr .i2cDel (delayWord (div &&& 0xFFFF))]]))
    rfl hu hm rfl (List.cons_ne_nil _ _) (exec_wrI2cDiv_idle (by exact hidle) _)
  have hdel := hostTurn_wrI2c_done (r := .i2cDel)
    (s := (s.setI2c { s.i2c with cdiv := low16Of (BitVec.ofNat 32 (div &&& 0xFFFF)) }).setTasks
      (s.tasks ++ [newTask (.i2cSetClockDivider div) [.wr .i2cDel (delayWord (div &&& 0xFFFF))]]))
    rfl hu hm rfl (exec_wrI2cDel_idle (by exact hidle) _)
  rw [runTurns_call hcall]
  exact (runTurns_host hdiv).trans (runTurns_host hdel)

/-- Settles O57: the run stores the divider and the delay word of its 16 low bits, whose fields are as R283 says. -/
theorem clockDividerSetsTheDelays : Obligations.ClockDividerSetsTheDelays := by
  intro s div hg hm hidle hk hu
  obtain ⟨hdiv, hfedl, hredl⟩ := dividerFields_toNat div
  exact ⟨_, runTurns_setClockDivider hg hm hidle hk hu, hdiv, hfedl, hredl, rfl⟩

end Sys2Proof.Machine
end

section
/-! The level of every pad and the words in which the reads of `LEV0` and `LEV1` show them (10_state.md R30, 41_gpio.md
R157, R160). -/

namespace Sys2Proof.Machine

/-! ## The level of a pad, by the mode of its pin (10_state.md R30) -/

section
variable {s : State} {p : Pin} (hk : modeCodesSound s.soc.modeCodes) (d : BitVec 64)
include hk

theorem padLevel_input (h : pinModeCode s.gpio p = modeCode s.soc.modeCodes .input) :
    padLevel s d p = envLevel s.gpio p := by
  rw [padLevel, h, modeOfCode_modeCode hk]

theorem padLevel_output (h : pinModeCode s.gpio p = modeCode s.soc.modeCodes .output) :
    padLevel s d p = outLatch s.gpio p := by
  rw [padLevel, h, modeOfCode_modeCode hk]

/-- Where the alternate function is modelled, the draw is not looked at. -/
theorem padLevel_altPad {m : PinMode} {v : Bool} (hin : m ≠ .input) (hout : m ≠ .output)
    (hv : altPad s p m = some v) (h : pinModeCode s.gpio p = modeCode s.soc.modeCodes m) : padLevel s d p = v := by
  rw [padLevel, h, modeOfCode_modeCode hk]
  cases m with
  | input => exact absurd rfl hin
  | output => exact absurd rfl hout
  | alt0 | alt1 | alt2 | alt3 | alt4 | alt5 => exact congrArg (Option.getD · (d.getLsbD p.val)) hv

end

/-! ## The lines of the two buses (41_gpio.md R160, 45_spi.md R312, R320) -/

/-- The seven bus pins are seven pins, so each has the line of its own function: no earlier entry of `ALTPAD` is for it. -/
theorem altPad_busPins {s : State} (hb : busPinsSound s.soc.npins s.soc.pins) :
    altPad s s.soc.pins.i2cSda s.soc.pins.i2cAlt = some (s.i2c.mSda && envLevel s.gpio s.soc.pins.i2cSda) ∧
    altPad s s.soc.pins.i2cScl s.soc.pins.i2cAlt = some (s.i2c.mScl && envLevel s.gpio s.soc.pins.i2cScl) ∧
    altPad s s.soc.pins.spiCe1 s.soc.pins.spiAlt = some (chipEnable s.spi 1) ∧
    altPad s s.soc.pins.spiCe0 s.soc.pins.spiAlt = some (chipEnable s.spi 0) ∧
    altPad s s.soc.pins.spiMiso s.soc.pins.spiAlt = some (envLevel s.gpio s.soc.pins.spiMiso) ∧
    altPad s s.soc.pins.spiMosi s.soc.pins.spiAlt =
      some (if s.spi.ren then envLevel s.gpio s.soc.pins.spiMosi else s.spi.mosi) ∧
    altPad s s.soc.pins.spiSclk s.soc.pins.spiAlt = some s.spi.sclk := by
  obtain ⟨-, hnodup, -⟩ := hb
  have hne := List.nodup_reverse.2 hnodup
  simp only [List.reverse_cons, List.reverse_nil, List.nil_append, List.cons_append, List.nodup_cons, List.mem_cons,
    List.not_mem_nil, or_false, not_or] at hne
  obtain ⟨hsclk, hmosi, hmiso, hce0, hce1, hscl, -⟩ := hne
  refine ⟨?sda, ?scl, ?ce1, ?ce0, ?miso, ?mosi, ?sclk⟩
  case sda => simp [altPad]
  case scl => simp [altPad, hscl]
  case ce1 => simp [altPad, hce1]
  case ce0 => simp [altPad, hce0]
  case miso => simp [altPad, hmiso]
  case mosi => cases hren : s.spi.ren <;> simp [altPad, hmosi, mosiOe, hren]
  case sclk => simp [altPad, hsclk]

/-! ## The words read (41_gpio.md R157) -/

/-- A bit of `LEV[j]` that names no existing pin is 0. -/
theorem getLsbD_levelWord_missing (s : State) (d : BitVec 64) {j : Fin 2} {b : Nat} (h : s.soc.npins ≤ 32 * j.val + b) :
    (levelWord s d j).getLsbD b = false := by
  rw [levelWord, getLsbD_packBits]
  simp [h.not_gt]

/-- The bit of `LEV[j]` that names an existing pin is the level of its pad. -/
theorem getLsbD_levelWord_pin (s : State) (d : BitVec 64) {j : Fin 2} {b : Nat} {p : Pin} (hb : b < 32)
    (hp : 32 * j.val + b = p.val) (hex : p.val < s.soc.npins) : (levelWord s d j).getLsbD b = padLevel s d p := by
  obtain ⟨p, hlt⟩ := p
  subst hp
  rw [levelWord, getLsbD_packBits, dif_pos hlt, decide_eq_true hb, decide_eq_true hex, Bool.true_and, Bool.true_and]

/-- The two words show every pad: pins below 32 in `LEV0`, the others in `LEV1`. -/
theorem levelWords_show_padLevel (s : State) (d : BitVec 64) {p : Pin} (hex : p.val < s.soc.npins) :
    (if p.val < 32 then (levelWord s d 0).getLsbD p.val else (levelWord s d 1).getLsbD (p.val - 32)) =
      padLevel s d p := by
  split
  case isTrue h => exact getLsbD_levelWord_pin s d h (by simp) hex
  case isFalse h => exact getLsbD_levelWord_pin s d (by omega) (by simp; omega) hex

/-- Settles O14: the words read show the level of every pad, which the mode of its pin gives. -/
theorem levelReadsShowThePads : Obligations.LevelReadsShowThePads := by
  intro s ⟨_, _, hk, hb, _⟩
  refine ⟨levelWord s (drawOf s) 0, levelWord s (drawOf s) 1, exec_readLevel 0 s, exec_readLevel 1 s,
    fun b hge => getLsbD_levelWord_missing s _ (by simpa using hge),
    fun b hge => getLsbD_levelWord_missing (j := 1) s _ hge, ?pads⟩
  case pads =>
    obtain ⟨hsda, hscl, hce1, hce0, hmiso, hmosi, hsclk⟩ := altPad_busPins hb
    obtain ⟨hexist, -, hi2cIn, hi2cOut, hspiIn, hspiOut⟩ := hb
    simp only [List.forall_mem_cons] at hexist
    obtain ⟨esda, escl, ece1, ece0, emiso, emosi, esclk, -⟩ := hexist
    have shown {p : Pin} (hex : p.val < s.soc.npins) := levelWords_show_padLevel s (drawOf s) hex
    exact ⟨fun p hex => ⟨fun h => (shown hex).trans (padLevel_input hk _ h),
        fun h => (shown hex).trans (padLevel_output hk _ h)⟩,
      fun h => (shown esda).trans (padLevel_altPad hk _ hi2cIn hi2cOut hsda h),
      fun h => (shown escl).trans (padLevel_altPad hk _ hi2cIn hi2cOut hscl h),
      fun h => (shown ece1).trans (padLevel_altPad hk _ hspiIn hspiOut hce1 h),
      fun h => (shown ece0).trans (padLevel_altPad hk _ hspiIn hspiOut hce0 h),
      fun h => (shown emiso).trans (padLevel_altPad hk _ hspiIn hspiOut hmiso h),
      fun h => (shown emosi).trans (padLevel_altPad hk _ hspiIn hspiOut hmosi h),
      fun h => (shown esclk).trans (padLevel_altPad hk _ hspiIn hspiOut hsclk h)⟩

end Sys2Proof.Machine
end

section
/-! The await's deadline: when it is set, when it is tested, and what an operation past it goes on with or returns
(44_i2c_host.md R281, 46_spi_host.md R359, R365, 60_exceptions.md R383, R384). -/

namespace Sys2Proof.Machine

/-! ## The abort path, by bus -/

/-- An I2C operation that failed still has the bus to disable (60_exceptions.md R383). -/
theorem proceed_abortTask_i2c (n : Nat) (e : DriverError) (k : Task) (s : State) :
    proceed n (abortTask .i2c e k) s =
      s.setTasks (s.tasks.set n { k with cont := disableBus, failed := some e }) :=
  proceed_more (List.cons_ne_nil _ _) n s

/-- An SPI operation that failed returns at once (60_exceptions.md R384). -/
theorem proceed_abortTask_spi (n : Nat) (e : DriverError) (k : Task) (s : State) :
    proceed n (abortTask .spi e k) s =
      (s.setTasks (s.tasks.eraseIdx n)).setResult (some (resultOf s.soc (abortTask .spi e k))) :=
  proceed_done rfl n s

/-! ## The turns of an await -/

section
variable {s : State} {n : Nat} {k : Task} {b : Bus} {flag : Word} {rest : List HostCmd}
  (hk : s.tasks[n]? = some k) (hu : (s.tasks.eraseIdx n).any midUpdate = false)
include hk hu

/-- The start of an await sets the deadline and polls. -/
theorem hostTurn_await (hc : k.cont = .await b flag :: rest) :
    hostTurn n s = .next (s.setTasks (s.tasks.set n
      { k with deadline := s.now + Config.ticks (timeoutMs b s), cont := .poll b flag :: rest })) := by
  rw [hostTurn_cmd hk hu hc (by rintro _ ⟨⟩), runCmd, proceed_more (List.cons_ne_nil _ _)]

/-- A deadline that is met, but not passed, lets the await poll again. -/
theorem hostTurn_expire_inTime (hc : k.cont = .expire b flag :: rest) (h : s.now ≤ k.deadline) :
    hostTurn n s = .next (s.setTasks (s.tasks.set n { k with cont := .poll b flag :: rest })) := by
  rw [hostTurn_cmd hk hu hc (by rintro _ ⟨⟩), runCmd, if_neg h.not_gt, proceed_more (List.cons_ne_nil _ _)]

/-- A deadline that is passed ends the await in the abort path of its bus. -/
theorem hostTurn_expire_passed (hc : k.cont = .expire b flag :: rest) (h : k.deadline < s.now) :
    hostTurn n s = .next (proceed n (abortTask b .hardwareTimeout { k with cont := rest }) s) := by
  rw [hostTurn_cmd hk hu hc (by rintro _ ⟨⟩), runCmd, if_pos h]

end

/-- Settles O53: the start sets the deadline, a test in time polls again, and one past it takes the abort path of the
bus, on which SPI's result is that of the operation. -/
theorem awaitDeadline : Obligations.AwaitDeadline := by
  intro s n k b flag rest hk hu
  refine ⟨fun hc => ?start, fun hc h => hostTurn_expire_inTime hk hu hc h, fun hc h => ?i2c, fun hc h => ?spi⟩
  case start =>
    rw [hostTurn_await hk hu hc]
    cases b <;> rfl
  case i2c =>
    rw [hostTurn_expire_passed hk hu hc h, proceed_abortTask_i2c]
    rfl
  case spi =>
    rw [hostTurn_expire_passed hk hu hc h, proceed_abortTask_spi]
    rfl

end Sys2Proof.Machine
end

section
/-! `spi.begin_transfer`: what a read of `SPI.CS` gives back, what the write of it with both clears and `TA` does, and
the run of the two (46_spi_host.md R357, 45_spi.md R301, R302, R305). -/

namespace Sys2Proof.Machine

/-! ## A write of `SPI.CS` that keeps the configuration (45_spi.md R302) -/

/-- The converse of `execWrSpiCs_next` for a write that changes no configuration bit, which may fall in flight. -/
theorem execWrSpiCs_sameConfig {w : Word} {s : State} (hscope : outOfScopeBitsSet w = false)
    (hsame : configDiffers w s.spi = false) :
    execWrSpiCs w s = .next (s.setSpi (taWritten (taOf w) (clearsWritten w (configWritten w s.spi)))) := by
  simp [execWrSpiCs, hscope, hsame]

/-- Writing the stored configuration leaves the block as it is: at rest the clock line already is where `CPOL`
puts it. -/
theorem configWritten_sameConfig {w : Word} {c : Spi} (hsame : configDiffers w c = false)
    (hrest : c.sfsm = .idle → c.sclk = c.cpol) : configWritten w c = c := by
  obtain ⟨hcs, hcpha, hcpol, hren⟩ := configDiffers_false hsame
  have hsclk : (if c.sfsm = .idle then c.cpol else c.sclk) = c.sclk := by
    split
    case isTrue hidle => exact (hrest hidle).symm
    case isFalse => rfl
  rw [configWritten, hcs, hcpha, hcpol, hren, hsclk]

theorem clearsWritten_both {w : Word} (htx : clearTxOf w = true) (hrx : clearRxOf w = true) (c : Spi) :
    clearsWritten w c = { c with txq := [], rxq := [] } := by
  rw [clearsWritten, if_pos htx, if_pos hrx]

/-- Setting `TA` abandons no byte. -/
theorem taWritten_true (c : Spi) : taWritten true c = { c with ta := true } :=
  if_neg (by rintro ⟨-, h, -⟩; cases h)

/-- A sound block at rest has its clock line at the idle level (45_spi.md R311). -/
theorem sclk_of_spiSound {soc : Soc} {c : Spi} (h : spiSound soc c) (hidle : c.sfsm = .idle) : c.sclk = c.cpol := by
  obtain ⟨-, hsclk, -⟩ := h
  rw [hsclk, sclkAt, hidle]

/-! ## The word written -/

/-- The flags of `spi.begin_transfer`: `CLEAR_TX`, `CLEAR_RX` and `TA` (46_spi_host.md R357). -/
abbrev beginFlags : Word := 0xB0

theorem expansion_spiBeginTransfer (soc : Soc) :
    expansion soc .spiBeginTransfer = .ok (setFlags .spiCs beginFlags) := rfl

/-- Or-ing the flags into a word changes no other field of it. -/
theorem fields_or_beginFlags (w : Word) :
    csOf (w ||| beginFlags) = csOf w ∧ cphaOf (w ||| beginFlags) = cphaOf w ∧
    cpolOf (w ||| beginFlags) = cpolOf w ∧ renOf (w ||| beginFlags) = renOf w ∧
    taOf (w ||| beginFlags) = true ∧ clearTxOf (w ||| beginFlags) = true ∧ clearRxOf (w ||| beginFlags) = true ∧
    outOfScopeBitsSet (w ||| beginFlags) = outOfScopeBitsSet w := by
  have hcs : beginFlags.extractLsb' 0 2 = 0#2 := rfl
  have hscope : beginFlags &&& 0x03E0EF40 = 0#32 := rfl
  refine ⟨?cs, ?_, ?_, ?_, ?_, ?_, ?_, ?scope⟩
  case cs => rw [csOf, BitVec.extractLsb'_or, hcs, BitVec.or_zero, csOf]
  case scope => rw [outOfScopeBitsSet, BitVec.and_or_distrib_right, hscope, BitVec.or_zero, outOfScopeBitsSet]
  all_goals simp [cphaOf, cpolOf, renOf, taOf, clearTxOf, clearRxOf]

/-- A bit that a mask does not have is not found by it. -/
theorem bitAt_and_eq_zero {m : Word} {n : Nat} (hm : m.getLsbD n = false) (b : Bool) : bitAt b n &&& m = 0#32 := by
  refine (and_eq_zero_iff _ _).2 fun i _ hi => ?_
  have hne : i ≠ n := by rintro rfl; rw [hm] at hi; cases hi
  simp [getLsbD_bitAt, hne]

/-- What a read of `SPI.CS` returns has no bit that must be written 0, so it may be written back (45_spi.md R303). -/
theorem outOfScopeBitsSet_spiStatusWord (soc : Soc) (c : Spi) (d : BitVec 64) :
    outOfScopeBitsSet (spiStatusWord soc c d) = false := by
  have hcs : ∀ cs : BitVec 2, cs.setWidth 32 &&& 0x03E0EF40 = 0#32 := by decide
  have hword : spiStatusWord soc c d &&& 0x03E0EF40 = 0#32 := by
    simp (disch := decide) only [spiStatusWord, BitVec.and_or_distrib_right, hcs, bitAt_and_eq_zero, BitVec.or_zero]
  rw [outOfScopeBitsSet, hword]
  rfl

/-- The stored configuration is read back. -/
theorem configDiffers_spiStatusWord_or_beginFlags (soc : Soc) (c : Spi) (d : BitVec 64) :
    configDiffers (spiStatusWord soc c d ||| beginFlags) c = false := by
  obtain ⟨hcs, hcpha, hcpol, hren, -⟩ := fields_or_beginFlags (spiStatusWord soc c d)
  obtain ⟨hpha, hpol, -, hen, -⟩ := spiStatusWord_getLsbD soc c d
  rw [configDiffers, hcs, hcpha, hcpol, hren, csOf, spiStatusWord_cs, cphaOf, hpha, cpolOf, hpol, renOf, hen]
  simp only [bne_self_eq_false, Bool.or_self]

/-- The write of `spi.begin_transfer`, on the word read: both queues emptied, `TA` set, all else kept. -/
theorem exec_wrSpiCs_beginTransfer {s : State} (hs : spiSound s.soc s.spi) (d : BitVec 64) :
    exec (writeInstr .spiCs (spiStatusWord s.soc s.spi d ||| beginFlags)) s =
      .next (s.setSpi { s.spi with ta := true, txq := [], rxq := [] }) := by
  have hsame := configDiffers_spiStatusWord_or_beginFlags s.soc s.spi d
  obtain ⟨-, -, -, -, hta, htx, hrx, hscope⟩ := fields_or_beginFlags (spiStatusWord s.soc s.spi d)
  rw [outOfScopeBitsSet_spiStatusWord] at hscope
  refine (execWrSpiCs_sameConfig hscope hsame).trans ?_
  rw [configWritten_sameConfig hsame (sclk_of_spiSound hs), clearsWritten_both htx hrx, hta, taWritten_true]

/-! ## The run -/

/-- The operation called last reads `SPI.CS` and has more to do: it keeps the status word; a free value is used up. -/
theorem hostTurn_rdSpiCs {l : List Task} {k : Task} {rest : List HostCmd} {s : State} (hk : s.tasks = l ++ [k])
    (hu : l.any midUpdate = false) (hm : s.mapped.spi = true) (hc : k.cont = .rd .spiCs :: rest) (hrest : rest ≠ []) :
    ∃ beat, hostTurn l.length s = .next ((s.drawn.setRdata beat).setTasks
      (l ++ [{ k with cont := rest, t := spiStatusWord s.soc s.spi (drawOf s) }])) := by
  have hturn := hostTurn_rd (r := .spiCs) hk hu hm hc rfl
  obtain ⟨beat, hbeat⟩ :=
    deliver_eq (readInstr .spiCs) (s.drawn.setRdata (spiStatusWord s.soc s.spi (drawOf s)))
  refine ⟨beat, hturn.trans ?_⟩
  rw [hbeat]
  exact congrArg _ (proceed_last_more (s := s.drawn.setRdata beat) hk hrest)

/-- The write that ends the operation called last, on the status word it has read. -/
theorem hostTurn_wrSetSpiCs_beginFlags {l : List Task} {k : Task} {d : BitVec 64} {s : State}
    (hk : s.tasks = l ++ [k]) (hu : l.any midUpdate = false) (hm : s.mapped.spi = true) (hs : spiSound s.soc s.spi)
    (hc : k.cont = [.wrSet .spiCs beginFlags]) (ht : k.t = spiStatusWord s.soc s.spi d) :
    hostTurn l.length s = .next (((s.setSpi { s.spi with ta := true, txq := [], rxq := [] }).setTasks l).setResult
      (some (resultOf s.soc { k with cont := [] }))) := by
  have hexec := exec_wrSpiCs_beginTransfer hs d
  rw [← ht] at hexec
  rw [hostTurn_wrSet (r := .spiCs) hk hu hm hc hexec, proceed_last_done (by exact hk) rfl, State.setSpi_soc]

/-- The call, the read and the write: from the word read the write makes the clean block, and the operation returns. -/
theorem runTurns_beginTransfer {s : State} (hg : s.mapped.gpio = true) (hm : s.mapped.spi = true)
    (hs : spiSound s.soc s.spi) (hk : inUse s (claimsOf s.soc .spiBeginTransfer) = false)
    (hu : s.tasks.any midUpdate = false) :
    ∃ beat, runTurns [.call .spiBeginTransfer, .host s.tasks.length, .host s.tasks.length] s =
      .next (((s.drawn.setRdata beat).setSpi { s.spi with ta := true, txq := [], rxq := [] }).setResult
        (some .ok)) := by
  have hcall := callTurn_begins hk (needsBus_mapped (w := .spi) hg hm) (expansion_spiBeginTransfer s.soc) hu
    (List.cons_ne_nil _ _)
  obtain ⟨beat, hread⟩ := hostTurn_rdSpiCs
    (s := s.setTasks (s.tasks ++ [newTask .spiBeginTransfer (setFlags .spiCs beginFlags)]))
    rfl hu hm rfl (List.cons_ne_nil _ _)
  have hwrite := hostTurn_wrSetSpiCs_beginFlags (d := drawOf s)
    (s := (s.drawn.setRdata beat).setTasks
      (s.tasks ++ [{ newTask .spiBeginTransfer [.wrSet .spiCs beginFlags] with
        t := spiStatusWord s.soc s.spi (drawOf s) }]))
    rfl hu hm hs rfl rfl
  rw [runTurns_call hcall]
  exact ⟨beat, (runTurns_host hread).trans (runTurns_host hwrite)⟩

/-- Settles O59: the run's write empties both queues and sets `TA`, so the selected line is active, and `DONE` reads 1
if the engine is idle. -/
theorem beginTransferStartsClean : Obligations.BeginTransferStartsClean := by
  intro s hg hm hs hk hu
  obtain ⟨beat, hrun⟩ := runTurns_beginTransfer hg hm hs hk hu
  refine ⟨_, hrun, rfl, rfl, rfl, rfl, rfl, ?_, fun hidle => ?_⟩
  · simp [chipEnable]
  · simp [spiDone, hidle]

end Sys2Proof.Machine
end

section
/-! `set_pin_mode` inside a program, and `i2c.init` up to a mapping that fails: two pins switched to their alternate
function, the window left unmapped, the `init` counted all the same (41_gpio.md R165, R167, 44_i2c_host.md R282,
60_exceptions.md R374). -/

namespace Sys2Proof.Machine

/-! ## The two updates of `set_pin_mode` (41_gpio.md R167) -/

/-- What `SETF` and `CLRF` of a mode register do to the block: reserved bits read 0 and are dropped when written
(10_state.md R24). -/
def modeUpdated (soc : Soc) (i : Fin 6) (f : Word → Word) (g : Gpio) : Gpio :=
  { g with mode := g.mode.set i (f (g.mode[i] &&& modeFieldsMask soc i) &&& modeFieldsMask soc i) }

/-- The pin's field is cleared. -/
def modeFieldCleared (soc : Soc) (p : Pin) (g : Gpio) : Gpio :=
  modeUpdated soc (mregOf p) (· &&& ~~~ (7#32 <<< mshiftOf p)) g

/-- A code is or-ed into the pin's field. -/
def modeFieldJoined (soc : Soc) (p : Pin) (m : PinMode) (g : Gpio) : Gpio :=
  modeUpdated soc (mregOf p) (· ||| (modeCode soc.modeCodes m).setWidth 32 <<< mshiftOf p) g

/-- The block after `set_pin_mode`. -/
def pinModeWritten (soc : Soc) (p : Pin) (m : PinMode) (g : Gpio) : Gpio :=
  modeFieldJoined soc p m (modeFieldCleared soc p g)

/-- Two pins of one register have fields that do not overlap. -/
theorem extract_placedField {p p' : Pin} (hreg : mregOf p' = mregOf p) (c : BitVec 3) :
    (c.setWidth 32 <<< mshiftOf p).extractLsb' (mshiftOf p') 3 = if p' = p then c else 0#3 := by
  have hlt : mshiftOf p < 30 := by unfold mshiftOf; omega
  ext i hi
  rw [BitVec.getElem_extractLsb', BitVec.getLsbD_shiftLeft]
  by_cases h : p' = p
  · subst h
    have h32 : mshiftOf p' + i < 32 := by omega
    have hge : ¬ mshiftOf p' + i < mshiftOf p' := by omega
    have hi32 : i < 32 := by omega
    simp [h32, hge, hi, hi32]
  · have hdiv : p'.val / 10 = p.val / 10 := congrArg Fin.val hreg
    have hne : p'.val ≠ p.val := fun e => h (Fin.ext e)
    have hout : mshiftOf p' + i < mshiftOf p ∨ mshiftOf p + 3 ≤ mshiftOf p' + i := by unfold mshiftOf; omega
    rw [if_neg h, BitVec.getElem_zero]
    rcases hout with hlow | hhigh
    · simp [hlow]
    · have hbit : (c.setWidth 32).getLsbD (mshiftOf p' + i - mshiftOf p) = false := by
        rw [BitVec.getLsbD_setWidth, BitVec.getLsbD_of_ge c _ (by omega), Bool.and_false]
      rw [hbit, Bool.and_false]

/-- An update of a mode register is seen by the pins of that register alone. -/
theorem pinModeCode_modeUpdated (soc : Soc) (i : Fin 6) (f : Word → Word) (g : Gpio) {p : Pin}
    (hp : p.val < soc.npins) :
    pinModeCode (modeUpdated soc i f g) p =
      if mregOf p = i then (f (g.mode[i] &&& modeFieldsMask soc i)).extractLsb' (mshiftOf p) 3
      else pinModeCode g p := by
  unfold pinModeCode modeUpdated
  split
  case isTrue h => subst h; simp [extract_modeFields _ hp]
  case isFalse h =>
    have hne : i.val ≠ (mregOf p).val := fun e => h (Fin.ext e.symm)
    have hkept (w : Word) : (g.mode.set i w)[mregOf p] = g.mode[mregOf p] :=
      Vector.getElem_set_ne i.isLt (mregOf p).isLt hne
    rw [hkept]

theorem pinModeCode_modeFieldCleared (soc : Soc) (p : Pin) (g : Gpio) {p' : Pin} (hp : p'.val < soc.npins) :
    pinModeCode (modeFieldCleared soc p g) p' = if p' = p then 0#3 else pinModeCode g p' := by
  have hmask : (7#32 <<< mshiftOf p) = (7#3).setWidth 32 <<< mshiftOf p := rfl
  have hlt : mshiftOf p' + 3 < 32 := by unfold mshiftOf; omega
  rw [modeFieldCleared, pinModeCode_modeUpdated _ _ _ _ hp]
  by_cases hreg : mregOf p' = mregOf p
  · rw [if_pos hreg, hmask, BitVec.extractLsb'_and, BitVec.extractLsb'_not_of_lt hlt, extract_placedField hreg,
      ← hreg, extract_modeFields _ hp]
    split
    case isTrue => rw [show ~~~ 7#3 = 0#3 from rfl, BitVec.and_zero]
    case isFalse => rw [BitVec.not_zero, BitVec.and_allOnes]; rfl
  · have hne : p' ≠ p := fun e => hreg (by rw [e])
    rw [if_neg hreg, if_neg hne]

theorem pinModeCode_modeFieldJoined (soc : Soc) (p : Pin) (m : PinMode) (g : Gpio) {p' : Pin}
    (hp : p'.val < soc.npins) :
    pinModeCode (modeFieldJoined soc p m g) p' =
      pinModeCode g p' ||| if p' = p then modeCode soc.modeCodes m else 0#3 := by
  rw [modeFieldJoined, pinModeCode_modeUpdated _ _ _ _ hp]
  by_cases hreg : mregOf p' = mregOf p
  · rw [if_pos hreg, BitVec.extractLsb'_or, extract_placedField hreg, ← hreg, extract_modeFields _ hp]
    rfl
  · have hne : p' ≠ p := fun e => hreg (by rw [e])
    rw [if_neg hreg, if_neg hne, BitVec.or_zero]

/-- `set_pin_mode` sets the field of its pin and keeps those of all others. -/
theorem pinModeCode_pinModeWritten (soc : Soc) (p : Pin) (m : PinMode) (g : Gpio) {p' : Pin} (hp : p'.val < soc.npins) :
    pinModeCode (pinModeWritten soc p m g) p' =
      if p' = p then modeCode soc.modeCodes m else pinModeCode g p' := by
  rw [pinModeWritten, pinModeCode_modeFieldJoined _ _ _ _ hp, pinModeCode_modeFieldCleared _ _ _ hp]
  split
  case isTrue => exact BitVec.zero_or
  case isFalse => exact BitVec.or_zero

/-! ## Its four turns, by the operation called last -/

/-- A command of the host that writes `f` of the word last read back to `MODE[i]`. -/
def WritesBack (c : HostCmd) (i : Fin 6) (f : Word → Word) : Prop :=
  (∀ w, c ≠ .map w) ∧
    ∀ n k s, runCmd n c k s = access n (writeInstr (.gpioMode i) (f k.t)) (fun _ => k) s

theorem wrClr_writesBack (i : Fin 6) (v : Word) : WritesBack (.wrClr (.gpioMode i) v) i (· &&& ~~~ v) :=
  ⟨by rintro _ ⟨⟩, fun _ _ _ => rfl⟩

theorem wrSet_writesBack (i : Fin 6) (v : Word) : WritesBack (.wrSet (.gpioMode i) v) i (· ||| v) :=
  ⟨by rintro _ ⟨⟩, fun _ _ _ => rfl⟩

section
variable {l : List Task} {k : Task} {rest : List HostCmd} {s : State} (hu : l.any midUpdate = false)
  (hm : s.mapped.gpio = true) (hrest : rest ≠ [])
include hu hm hrest

/-- The first half of an update keeps the word read, reserved bits 0, for the second. -/
theorem hostTurn_rdMode {i : Fin 6} (hc : k.cont = .rd (.gpioMode i) :: rest) :
    ∃ beat, hostTurn l.length (s.setTasks (l ++ [k])) = .next ((s.setRdata beat).setTasks
      (l ++ [{ k with cont := rest, t := s.gpio.mode[i] &&& modeFieldsMask s.soc i }])) := by
  have hread := hostTurn_rd (r := .gpioMode i) (s := s.setTasks (l ++ [k])) rfl hu hm hc (exec_readMode i _)
  obtain ⟨beat, hbeat⟩ := deliver_eq (readInstr (.gpioMode i))
    ((s.setTasks (l ++ [k])).setRdata (s.gpio.mode[i] &&& modeFieldsMask s.soc i))
  exact ⟨beat, hread.trans (congrArg _ ((congrArg _ hbeat).trans (proceed_last_more rfl hrest)))⟩

/-- The second half, on the word the first has read. -/
theorem hostTurn_writesBack {i : Fin 6} {c : HostCmd} {f : Word → Word} (hw : WritesBack c i f)
    (hc : k.cont = c :: rest) (ht : k.t = s.gpio.mode[i] &&& modeFieldsMask s.soc i) :
    hostTurn l.length (s.setTasks (l ++ [k])) =
      .next ((s.setGpio (modeUpdated s.soc i f s.gpio)).setTasks (l ++ [{ k with cont := rest }])) := by
  obtain ⟨hmap, hrun⟩ := hw
  have hexec : exec (writeInstr (.gpioMode i) (f k.t)) (s.setTasks (l ++ [k])) =
      .next ((s.setGpio (modeUpdated s.soc i f s.gpio)).setTasks (l ++ [k])) := by
    rw [exec_writeMode, ht]; rfl
  rw [hostTurn_last rfl hu hc hmap, hrun, access_write (isWrite_writeInstr _ _) (by rwa [reg_writeInstr]) hexec]
  exact congrArg _ (proceed_last_more rfl hrest)

/-- An update of a mode register within a program: two turns, and the program goes on. -/
theorem runTurns_modeUpdate {i : Fin 6} {c : HostCmd} {f : Word → Word} (hw : WritesBack c i f)
    (hc : k.cont = .rd (.gpioMode i) :: c :: rest) :
    ∃ beat v, ∀ turns, runTurns (.host l.length :: .host l.length :: turns) (s.setTasks (l ++ [k])) =
      runTurns turns (((s.setGpio (modeUpdated s.soc i f s.gpio)).setRdata beat).setTasks
        (l ++ [{ k with cont := rest, t := v }])) := by
  obtain ⟨beat, hread⟩ := hostTurn_rdMode hu hm (List.cons_ne_nil _ _) hc
  have hwrite := hostTurn_writesBack (s := s.setRdata beat)
    (k := { k with cont := c :: rest, t := s.gpio.mode[i] &&& modeFieldsMask s.soc i }) hu hm hrest hw rfl rfl
  exact ⟨beat, _, fun turns => (runTurns_host hread).trans (runTurns_host hwrite)⟩

/-- `set_pin_mode` within a program: the pin's field is cleared, then its code or-ed in, and the program goes on. -/
theorem runTurns_pinModeCmds {p : Pin} {m : PinMode} (hc : k.cont = pinModeCmds s.soc p m ++ rest) :
    ∃ beat v, ∀ turns, runTurns (List.replicate 4 (.host l.length) ++ turns) (s.setTasks (l ++ [k])) =
      runTurns turns (((s.setGpio (pinModeWritten s.soc p m s.gpio)).setRdata beat).setTasks
        (l ++ [{ k with cont := rest, t := v }])) := by
  obtain ⟨b₁, v₁, hclear⟩ := runTurns_modeUpdate hu hm (List.cons_ne_nil _ _) (wrClr_writesBack _ _) hc
  obtain ⟨b₂, v₂, hjoin⟩ := runTurns_modeUpdate (s := (s.setGpio (modeFieldCleared s.soc p s.gpio)).setRdata b₁)
    (k := { k with cont := _, t := v₁ }) hu hm hrest (wrSet_writesBack _ _) rfl
  exact ⟨b₂, v₂, fun turns => (hclear _).trans (hjoin turns)⟩

end

/-! ## The mapping that fails (60_exceptions.md R374) -/

/-- The operation called last returns, with its window left unmapped. -/
theorem osMapTurn_fails {l : List Task} {k : Task} {w : Window} {rest : List HostCmd} {s : State}
    (hk : s.tasks = l ++ [k]) (hu : l.any midUpdate = false) (hc : k.cont = .map w :: rest) :
    osMapTurn l.length false s = .next (((failMapping w s).setTasks l).setResult
      (some (resultOf s.soc { k with cont := [], failed := some .mapFailed }))) := by
  have herase : (l ++ [k]).eraseIdx l.length = l := by
    rw [List.eraseIdx_append_of_length_le (Nat.le_refl _)]; simp
  have hlast : (l ++ [k])[l.length]? = some k := by simp
  unfold osMapTurn
  simp only [hk, hlast, hc, herase, hu, Bool.false_eq_true, if_false]
  exact congrArg _ (proceed_last_done hk rfl)

/-! ## The run of `i2c.init` (44_i2c_host.md R282) -/

/-- The block after `i2c.init` has switched its two pins. -/
def i2cPinsSwitched (soc : Soc) (g : Gpio) : Gpio :=
  pinModeWritten soc soc.pins.i2cScl soc.pins.i2cAlt (pinModeWritten soc soc.pins.i2cSda soc.pins.i2cAlt g)

/-- Both bus pins are in their alternate function, whatever they were in; every other pin is as before. -/
theorem pinModeCode_i2cPinsSwitched (soc : Soc) (g : Gpio) {p : Pin} (hp : p.val < soc.npins) :
    pinModeCode (i2cPinsSwitched soc g) p =
      if p = soc.pins.i2cSda ∨ p = soc.pins.i2cScl then modeCode soc.modeCodes soc.pins.i2cAlt
      else pinModeCode g p := by
  rw [i2cPinsSwitched, pinModeCode_pinModeWritten _ _ _ _ hp, pinModeCode_pinModeWritten _ _ _ _ hp]
  rw [← ite_or]
  exact if_congr or_comm rfl rfl

/-- The program switches the pins before it maps the window and writes the block. -/
theorem i2cInitCmds_eq (soc : Soc) : ∃ rest, i2cInitCmds soc =
    pinModeCmds soc soc.pins.i2cSda soc.pins.i2cAlt ++
      (pinModeCmds soc soc.pins.i2cScl soc.pins.i2cAlt ++ .map .i2c :: rest) := ⟨_, rfl⟩

/-- The call, the eight turns that switch the pins, and the mapping that fails. -/
theorem runTurns_i2cInit_mapFailed {s : State} (hg : s.mapped.gpio = true) (hb : s.begun.i2c = false)
    (hk : inUse s (claimsOf s.soc .i2cInit) = false) (hu : s.tasks.any midUpdate = false) :
    ∃ beat, runTurns (.call .i2cInit ::
        (List.replicate 8 (.host s.tasks.length) ++ [.osMap s.tasks.length false])) s =
      .next ((failMapping .i2c (((beginInit .i2c s).setGpio (i2cPinsSwitched s.soc s.gpio)).setRdata beat)).setResult
        (some (.error .mapFailed))) := by
  obtain ⟨rest, hprog⟩ := i2cInitCmds_eq s.soc
  have hpre : initRefusal s .i2c = none := by simp [initRefusal, needsMapped, PerWindow.get, hg, hb]
  have hcall := callTurn_begins (op := .i2cInit) hk hpre rfl hu (by rw [hprog]; exact List.cons_ne_nil _ _)
  obtain ⟨b₁, v₁, hsda⟩ := runTurns_pinModeCmds (s := beginInit .i2c s) (k := newTask .i2cInit (i2cInitCmds s.soc))
    hu hg (List.cons_ne_nil _ _) hprog
  obtain ⟨b₂, v₂, hscl⟩ := runTurns_pinModeCmds
    (s := ((beginInit .i2c s).setGpio (pinModeWritten s.soc s.soc.pins.i2cSda s.soc.pins.i2cAlt s.gpio)).setRdata b₁)
    (k := { newTask .i2cInit _ with t := v₁ }) hu hg (List.cons_ne_nil _ _) rfl
  have hfail := osMapTurn_fails
    (s := (((beginInit .i2c s).setGpio (i2cPinsSwitched s.soc s.gpio)).setRdata b₂).setTasks
      (s.tasks ++ [{ newTask .i2cInit (.map .i2c :: rest) with t := v₂ }])) rfl hu rfl
  refine ⟨b₂, (runTurns_call hcall).trans ?_⟩
  rw [show 8 = 4 + 4 from rfl, List.replicate_add, List.append_assoc]
  exact (hsda _).trans <| (hscl _).trans (runTurns_osMap hfail)

/-- Settles O58: the run ends with the window unmapped and the pins switched; the `init` counts from its call, so the
second is refused. -/
theorem failedI2cInitLeavesThePinsMultiplexed : Obligations.FailedI2cInitLeavesThePinsMultiplexed := by
  intro s _ hg hb hk hu
  obtain ⟨beat, hrun⟩ := runTurns_i2cInit_mapFailed hg hb hk hu
  refine ⟨_, hrun, rfl, rfl, rfl, rfl, rfl, fun p hp => pinModeCode_i2cPinsSwitched s.soc s.gpio hp, ?_⟩
  exact callTurn_broken hk (initRefusal_begun (w := .i2c) (.inr hg) rfl)

end Sys2Proof.Machine
end

section
/-! Which requests select no operation, and why: too narrow, outside every window, unaligned, or at a word of a window
that holds no register (30_encoding.md R120). -/

namespace Sys2Proof

/-! ## Offsets that name no register -/

section
variable {L : Layout} {off : Nat}

theorem decodeOffset_outside (h : windowOf L off = none) : decodeOffset L off = .error .outsideMappedWindows := by
  simp only [decodeOffset, h]

theorem decodeOffset_unaligned {w : Window} (h : windowOf L off = some w) (h4 : off % 4 ≠ 0) :
    decodeOffset L off = .error .accessWidth := by
  simp only [decodeOffset, h, if_pos h4]

/-- A word of a window at which no register of the window lies. -/
theorem decodeOffset_unnamed {w : Window} (h : windowOf L off = some w) (h4 : off % 4 = 0)
    (hno : ∀ g ∈ regsOf w, off ≠ offOf L g) : decodeOffset L off = .error .unmappedOffset := by
  obtain ⟨hge, -⟩ := windowOf_eq_some h
  have hreg : regAt L w (off - (w.place L).off) = none := by
    refine List.find?_eq_none.2 fun g hg heq => hno g hg ?_
    have hoff : g.offset L = off - (w.place L).off := by simpa using heq
    rw [offOf, window_of_mem_regsOf hg]
    omega
  simp only [decodeOffset, h, h4, hreg, ne_eq, not_true_eq_false, if_false]

end

/-- The six unnamed words of the default layout (10_state.md R34, R57). -/
theorem decodeOffset_default_unnamed {off : Nat}
    (h : off ∈ [0x200018, 0x200024, 0x200030, 0x20400C, 0x204010, 0x204014]) :
    decodeOffset .bcm283x off = .error .unmappedOffset := by
  simp only [List.mem_cons, List.not_mem_nil, or_false] at h
  rcases h with rfl | rfl | rfl | rfl | rfl | rfl <;> rfl

/-! ## Requests -/

theorem decode_narrow {L : Layout} {r : Request} (h : r.width ≠ .w32) : decode L r = .error .accessWidth := by
  rw [decode, if_pos h]

theorem decode_of_offset_error {L : Layout} {r : Request} {e : DecodeError} (hw : r.width = .w32)
    (h : decodeOffset L (r.header.extractLsb' 0 24).toNat = .error e) : decode L r = .error e := by
  simp only [decode, hw, h, ne_eq, not_true_eq_false, if_false]

/-- Settles O3: the width is looked at first, then the window the offset lies in, its alignment, and the register at
it; the mapping is not looked at. -/
theorem unmatchedRequestsAreRefused : Obligations.UnmatchedRequestsAreRefused := by
  intro r s hs L off inside
  obtain ⟨hwin, -⟩ := hs
  have refused {e : DecodeError} (hw : r.width = .w32) (h : decodeOffset L off = .error e) :
      Machine.requestTurn r s = .refused (Machine.refusalOf e) :=
    Machine.requestTurn_of_error (decode_of_offset_error hw h)
  have inWindow {w : Window} (h : inside w) : windowOf L off = some w := windowOf_of_mem hwin h.1 h.2
  refine ⟨fun hn => ?narrow, fun hw hout => ?outside, fun w _ hw hin h4 => ?unaligned,
    fun w _ hw hin h4 hno => ?unnamed, fun hL hw hoff => ?default⟩
  case narrow => exact Machine.requestTurn_of_error (decode_narrow hn)
  case outside => exact refused hw (decodeOffset_outside (windowOf_eq_none.2 hout))
  case unaligned => exact refused hw (decodeOffset_unaligned (inWindow hin) h4)
  case unnamed => exact refused hw (decodeOffset_unnamed (inWindow hin) h4 hno)
  case default => exact refused hw (by rw [hL]; exact decodeOffset_default_unnamed hoff)

end Sys2Proof
end

section
/-! Who can raise `S.CLKT`: no register operation, no step of the host, and of the engine's transitions only the one that
counts a clock held low (43_i2c_engine.md R241, 60_exceptions.md R372). -/

namespace Sys2Proof.Machine

/-! ## Register operations -/

theorem exec_writeInstr_keepsClktDown {g : Reg} {w : Word} {s t : State} (hg : g.window = .i2c)
    (h : exec (writeInstr g w) s = .next t) (hc : s.i2c.clkt = false) : t.i2c.clkt = false := by
  cases g with
  | gpioMode | gpioSet | gpioClr | gpioLev | spiCs | spiFifo | spiClk => cases hg
  | i2cC =>
    obtain ⟨-, -, -, -, -, -, -, -, -, -, hclkt, -⟩ := controlWritten_fields w s.i2c
    obtain ⟨-, -, rfl | ⟨-, -, rfl⟩⟩ := execWrI2cC_next h <;> exact hclkt.trans hc
  | i2cS => cases h; simp [hc]
  | i2cFifo => obtain ⟨-, rfl⟩ := execWrI2cFifo_next h; exact hc
  | i2cDlen | i2cA | i2cDiv | i2cDel | i2cClkt =>
    simp only [writeInstr, exec, execWrI2cDlen, execWrI2cA, execWrI2cDiv, execWrI2cDel, execWrI2cClkt] at h
    obtain ⟨-, rfl⟩ := configureI2c_next h
    exact hc

/-- A read of the FIFO may take a byte out of the queue; every other read only answers. -/
theorem exec_readInstr_clkt {g : Reg} {s t : State} (hg : g.window = .i2c) (h : exec (readInstr g) s = .next t) :
    t.i2c.clkt = s.i2c.clkt := by
  by_cases hfifo : g = .i2cFifo
  · subst hfifo
    obtain ⟨q, v, n, hq⟩ := execRdI2cFifo_onlyAnswers s
    cases h.symm.trans hq
    rfl
  · have hspi : g ≠ .spiFifo := by rintro rfl; cases hg
    obtain ⟨v, n, hv⟩ := exec_readInstr_onlyAnswers hfifo hspi s
    cases h.symm.trans hv
    rfl

/-- A register operation may clear the flag and cannot set it. -/
theorem exec_keepsClktDown {i : Instr} {s t : State} (h : exec i s = .next t) (hc : s.i2c.clkt = false) :
    t.i2c.clkt = false := by
  by_cases hg : i.reg.window = .i2c
  · have hi := instr_eq i
    cases hw : i.isWrite with
    | true =>
      rw [hw, if_pos rfl] at hi
      exact exec_writeInstr_keepsClktDown hg (hi ▸ h) hc
    | false =>
      rw [hw, if_neg Bool.false_ne_true] at hi
      exact (exec_readInstr_clkt hg (hi ▸ h)).trans hc
  · obtain ⟨-, hi2c, -⟩ := requestTouchesOnlyItsBlock i s t h
    rw [hi2c hg, hc]

/-! ## Steps of the host -/

theorem deliver_i2c (i : Instr) (s : State) : (deliver i s).i2c = s.i2c := by
  obtain ⟨v, hv⟩ := deliver_eq i s
  rw [hv, State.setRdata_i2c]

theorem proceed_i2c (n : Nat) (k : Task) (s : State) : (proceed n k s).i2c = s.i2c := by
  obtain ⟨r, hr⟩ := proceed_eq n k s
  rw [hr, State.setResult_i2c, State.setTasks_i2c]

/-- A step of the host reaches the block through a register operation alone. -/
theorem hostStep_keepsClktDown {s t : State} (h : HostStep s t) (hc : s.i2c.clkt = false) : t.i2c.clkt = false := by
  rcases h with rfl | ⟨n, k, k', u, -, -, rfl, hu⟩ | ⟨op, cmds, -, rfl⟩
  · exact hc
  · rw [proceed_i2c]
    rcases hu with ⟨i, v, hexec, rfl⟩ | rfl | ⟨w, rfl⟩ | ⟨w, rfl⟩ | ⟨w, rfl⟩ | ⟨w, rfl⟩
    · rw [deliver_i2c]; exact exec_keepsClktDown hexec hc
    all_goals exact hc
  · rw [proceed_i2c, State.setTasks_i2c, called_i2c, hc]

/-! ## The engine -/

theorem tFall_clkt (c : I2c) : (tFall c).clkt = c.clkt := by
  rcases tFall_cases c with ⟨k, -, -, h⟩ | ⟨-, -, h⟩ | ⟨-, -, h⟩ | ⟨-, -, -, h⟩ | ⟨-, -, h⟩ <;> rw [h]

theorem tNext_clkt {depth : Nat} {c c' : I2c} (h : tNext depth c = some c') : c'.clkt = c.clkt := by
  rcases tNext_cases h with ⟨-, -, rfl⟩ | ⟨-, -, rfl⟩ | ⟨-, -, -, b, q, -, rfl⟩ | ⟨-, -, -, rfl⟩ <;> rfl

/-- Every transition but the stretch of a clock held low keeps the flag. -/
theorem i2cTransition_clkt {soc : Soc} {sda scl : Bool} {c c' : I2c} (h : i2cTransition soc sda scl c = some c') :
    c'.clkt = c.clkt ∨ ((c.fsm = .cellSample ∨ c.fsm = .stopWait) ∧ scl = false ∧ c' = tStretch c) := by
  obtain ⟨-, ⟨-, -, -, -, rfl⟩ | ⟨-, rfl⟩ | ⟨-, rfl⟩ | ⟨-, rfl⟩ | ⟨-, -, rfl⟩ | ⟨-, rfl⟩ | ⟨-, hnext⟩ | ⟨-, rfl⟩ |
    ⟨-, rfl⟩ | ⟨-, -, rfl⟩ | hstretch⟩ := i2cTransition_cases h
  · exact .inl rfl
  · exact .inl rfl
  · exact .inl rfl
  · exact .inl rfl
  · exact .inl (by rw [tSample_eq])
  · exact .inl (tFall_clkt c)
  · exact .inl (tNext_clkt hnext)
  · exact .inl rfl
  · exact .inl rfl
  · exact .inl rfl
  · exact .inr hstretch

/-- A stretch that raises the flag has reached the timeout, and is the abort (R241). -/
theorem tStretch_raisesClkt {c : I2c} (hc : c.clkt = false) (hc' : (tStretch c).clkt = true) :
    c.tout ≠ 0 ∧ c.tout ≤ (tStretch c).stretch ∧ (tStretch c).fsm = .idle ∧ (tStretch c).mSda = true ∧
      (tStretch c).mScl = true := by
  rcases tStretch_cases c with hcount | ⟨hne, hle, habort⟩
  · rw [hcount, hc] at hc'; cases hc'
  · rw [habort]; exact ⟨hne, hle, rfl, rfl, rfl⟩

/-! ## Any turn -/

/-- A turn of anyone but the I2C engine does not raise the flag: register operations, the host's and the SPI engine's
steps and outside agents keep it down, and power-on gives it its reset value. -/
theorem takeTurn_keepsClktDown {τ : Turn} {s t : State} (h : takeTurn τ s = .next t)
    (hreset : s.soc.resetI2c.clkt = false) (hc : s.i2c.clkt = false) (hτ : τ ≠ .i2cEngine) : t.i2c.clkt = false := by
  rcases takeTurn_cases h with ⟨-, rfl⟩ | ⟨r, i, u, -, hexec, rfl⟩ | ⟨-, hhost⟩ | ⟨he, -⟩ | ⟨-, rfl | ⟨c, -, rfl⟩⟩ |
    ⟨p, high, -, rfl⟩ | ⟨n, -, rfl⟩ | ⟨b, ms, -, rfl⟩
  · exact hreset
  · rw [deliver_i2c]; exact exec_keepsClktDown hexec hc
  · exact hostStep_keepsClktDown hhost hc
  · exact absurd he hτ
  · exact hc
  · exact hc
  · exact hc
  · exact hc
  · cases b <;> exact hc

/-- Settles O41: the turn is the I2C engine's, its transition the stretch, and the stretch the abort. -/
theorem clktIsSetOnlyByTheClockTimeout : Obligations.ClktIsSetOnlyByTheClockTimeout := by
  intro τ s t h hreset hc hc'
  have hτ : τ = .i2cEngine := by
    by_contra hne
    rw [takeTurn_keepsClktDown h hreset hc hne] at hc'
    cases hc'
  subst hτ
  rcases i2cEngineTurn_cases s with ⟨c, htrans, hturn⟩ | ⟨-, hturn⟩ <;> cases hturn.symm.trans h
  case inl =>
    rcases i2cTransition_clkt htrans with hkept | ⟨hwait, hscl, rfl⟩
    · cases hc'.symm.trans (hkept.trans hc)
    · exact ⟨rfl, hwait, hscl, tStretch_raisesClkt hc hc'⟩
  case inr => cases hc'.symm.trans hc

end Sys2Proof.Machine
end

section
/-! The transitions of the I2C engine, flat: every one written out as the block it leaves, with what its guard says. The
table of the engine (43_i2c_engine.md R246) and what its turn may write (R220) are read off it. -/

namespace Sys2Proof.Machine

/-- One transition of the engine, with `scl` the level of the clock line: from the block `c` to the block shown. Levels
driven or sampled of which nothing is said here are variables. -/
inductive I2cMove (soc : Soc) (scl : Bool) (c : I2c) : I2c → Prop
  | start (hf : c.fsm = .idle) (hp : c.stPend = true) : I2cMove soc scl c { c with
      stPend := false, rd := c.read, rem := c.dlen, sh := c.addr.concat c.read, ph := .addr, cell := 0, nack := false,
      stretch := 0, done := if soc.i2cDoneAutoclear then false else c.done, mSda := false, fsm := .startHold }
  | startHold (hf : c.fsm = .startHold) : I2cMove soc scl c { c with mScl := false, fsm := .cellDrive }
  | drive (hf : c.fsm = .cellDrive) (level : Bool) : I2cMove soc scl c { c with mSda := level, fsm := .cellRise }
  | rise (hf : c.fsm = .cellRise) : I2cMove soc scl c { c with mScl := true, stretch := 0, fsm := .cellSample }
  | sample (hf : c.fsm = .cellSample) (sh : Byte) (nack : Bool) :
      I2cMove soc scl c { c with fsm := .cellFall, sh := sh, nack := nack }
  | nextCell (hf : c.fsm = .cellFall) (k : Fin 9) (hk : c.cell.val < 8) (hk' : k.val = c.cell.val + 1)
      (hrx : c.ph = .rx → k.val < 8) : I2cMove soc scl c { c with mScl := false, cell := k, fsm := .cellDrive }
  | byteReceived (hf : c.fsm = .cellFall) (hk : c.cell.val = 7) (hrx : c.ph = .rx) : I2cMove soc scl c { c with
      mScl := false, rxq := c.rxq ++ [c.sh], rem := countDown c.rem, cell := 8, fsm := .cellDrive }
  | byteSent (hf : c.fsm = .cellFall) (hk : c.cell.val = 8) (htx : c.ph = .tx) (hack : c.nack = false) :
      I2cMove soc scl c { c with mScl := false, rem := countDown c.rem, fsm := .byteNext }
  | byteEnd (hf : c.fsm = .cellFall) (hk : c.cell.val = 8) : I2cMove soc scl c { c with mScl := false, fsm := .byteNext }
  | noAcknowledge (hf : c.fsm = .byteNext) (hrx : c.ph ≠ .rx) (hnack : c.nack = true) :
      I2cMove soc scl c { c with err := true, fsm := .stopDrive }
  | finish (hf : c.fsm = .byteNext) : I2cMove soc scl c { c with fsm := .stopDrive }
  | send (hf : c.fsm = .byteNext) (hrem : c.rem ≠ 0) (b : Byte) (q : List Byte) (hq : c.txq = b :: q) :
      I2cMove soc scl c { c with sh := b, txq := q, ph := .tx, cell := 0, fsm := .cellDrive }
  | receive (hf : c.fsm = .byteNext) (hrem : c.rem ≠ 0) (hroom : c.rxq.length < soc.i2cFifoDepth) :
      I2cMove soc scl c { c with sh := 0, ph := .rx, cell := 0, fsm := .cellDrive }
  | stopDrive (hf : c.fsm = .stopDrive) : I2cMove soc scl c { c with mSda := false, fsm := .stopRise }
  | stopRise (hf : c.fsm = .stopRise) : I2cMove soc scl c { c with mScl := true, stretch := 0, fsm := .stopWait }
  | stopRelease (hf : c.fsm = .stopWait) (hscl : scl = true) :
      I2cMove soc scl c { c with mSda := true, done := true, fsm := .idle }
  | stretch (hf : c.fsm = .cellSample ∨ c.fsm = .stopWait) :
      I2cMove soc scl c { c with stretch := countStretch c.stretch }
  | timeout (hf : c.fsm = .cellSample ∨ c.fsm = .stopWait) : I2cMove soc scl c { c with
      stretch := countStretch c.stretch, clkt := true, mSda := true, mScl := true, fsm := .idle }

/-! ## Every transition is one of these -/

section
variable {soc : Soc} {scl : Bool} {c c' : I2c}

theorem tFall_move (hf : c.fsm = .cellFall) : I2cMove soc scl c (tFall c) := by
  rcases tFall_cases c with ⟨k, hk, hk', h⟩ | ⟨hk, hrx, h⟩ | ⟨hk, hrx, h⟩ | ⟨hk, htx, hack, h⟩ | ⟨hk, -, h⟩ <;> rw [h]
  · exact .nextCell hf k (by omega) hk' fun _ => by omega
  · exact .byteReceived hf hk hrx
  · exact .nextCell hf 8 (by omega) (by rw [hk]; rfl) fun h => absurd h hrx
  · exact .byteSent hf hk htx hack
  · exact .byteEnd hf hk

theorem tNext_move (hf : c.fsm = .byteNext) (h : tNext soc.i2cFifoDepth c = some c') : I2cMove soc scl c c' := by
  rcases tNext_cases h with ⟨hrx, hnack, rfl⟩ | ⟨-, -, rfl⟩ | ⟨hrem, -, -, b, q, hq, rfl⟩ | ⟨hrem, -, hroom, rfl⟩
  · exact .noAcknowledge hf hrx hnack
  · exact .finish hf
  · exact .send hf hrem b q hq
  · exact .receive hf hrem hroom

theorem tStretch_move (hf : c.fsm = .cellSample ∨ c.fsm = .stopWait) : I2cMove soc scl c (tStretch c) := by
  rcases tStretch_cases c with h | ⟨-, -, h⟩ <;> rw [h]
  · exact .stretch hf
  · exact .timeout hf

/-- A transition is taken only by an enabled block, and is one of the moves. -/
theorem i2cTransition_move {sda : Bool} (h : i2cTransition soc sda scl c = some c') :
    c.i2cen = true ∧ I2cMove soc scl c c' := by
  obtain ⟨hen, ⟨hf, hp, -, -, rfl⟩ | ⟨hf, rfl⟩ | ⟨hf, rfl⟩ | ⟨hf, rfl⟩ | ⟨hf, -, rfl⟩ | ⟨hf, rfl⟩ | ⟨hf, hnext⟩ |
    ⟨hf, rfl⟩ | ⟨hf, rfl⟩ | ⟨hf, hscl, rfl⟩ | ⟨hf, -, rfl⟩⟩ := i2cTransition_cases h <;> refine ⟨hen, ?_⟩
  · rw [tStart_eq]; exact .start hf hp
  · exact .startHold hf
  · exact .drive hf _
  · exact .rise hf
  · rw [tSample_eq]; exact .sample hf _ _
  · exact tFall_move hf
  · exact tNext_move hf hnext
  · exact .stopDrive hf
  · exact .stopRise hf
  · exact .stopRelease hf hscl
  · exact tStretch_move hf

end

/-- Settles O37: each move goes between two places of the table. -/
theorem i2cTransitionTable : Obligations.I2cTransitionTable := by
  intro soc sda scl c c' h
  obtain ⟨hen, hmove⟩ := i2cTransition_move h
  refine ⟨hen, ?_⟩
  cases hmove with
  | stretch hf | timeout hf => rcases hf with hf | hf <;> simp [hf]
  | start hf | startHold hf | drive hf | rise hf | sample hf | nextCell hf | byteReceived hf | byteSent hf | byteEnd hf
  | noAcknowledge hf | finish hf | send hf | receive hf | stopDrive hf | stopRise hf | stopRelease hf => simp [hf]

end Sys2Proof.Machine
end

section
/-! What a turn does to the three blocks, flat, and the flags of `I2C.S`: who can set `DONE` and `ERR` (43_i2c_engine.md
R238, R239), and what the I2C engine writes (R220). -/

namespace Sys2Proof.Machine

/-! ## Register operations of the I2C block -/

/-- What a register operation that completes can do to the I2C block. -/
inductive I2cWritten (soc : Soc) (c : I2c) : I2c → Prop
  | same : I2cWritten soc c c
  | control (w : Word) (hquiet : c.fsm = .idle ∨ (readOf w = c.read ∧ clearOf w = false)) :
      I2cWritten soc c (controlWritten w c)
  | start (w : Word) (hquiet : c.fsm = .idle ∨ (readOf w = c.read ∧ clearOf w = false))
      (hen : (controlWritten w c).i2cen = true) (hidle : (controlWritten w c).fsm = .idle) :
      I2cWritten soc c { controlWritten w c with stPend := true }
  | status (w : Word) : I2cWritten soc c { c with
      done := c.done && !doneOf w, err := c.err && !errOf w, clkt := c.clkt && !clktOf w }
  | configured (hidle : c.fsm = .idle) (dlen : BitVec 16) (addr : BitVec 7) (cdiv fedl redl tout : BitVec 16) :
      I2cWritten soc c { c with dlen := dlen, addr := addr, cdiv := cdiv, fedl := fedl, redl := redl, tout := tout }
  | popped (b : Byte) (q : List Byte) (hq : c.rxq = b :: q) : I2cWritten soc c { c with rxq := q }
  | pushed (b : Byte) (hroom : c.txq.length ≠ soc.i2cFifoDepth) : I2cWritten soc c { c with txq := pushByte c.txq b }

theorem exec_writeInstr_i2c {g : Reg} {w : Word} {s t : State} (h : exec (writeInstr g w) s = .next t) :
    I2cWritten s.soc s.i2c t.i2c := by
  cases g with
  | gpioMode i => rw [exec_writeMode] at h; cases h; exact .same
  | gpioSet j => rw [exec_writeSet] at h; cases h; exact .same
  | gpioClr j => rw [exec_writeClr] at h; cases h; exact .same
  | gpioLev j => rw [exec_writeLevel] at h; cases h; exact .same
  | i2cC =>
    obtain ⟨-, hquiet, rfl | ⟨hen, hidle, rfl⟩⟩ := execWrI2cC_next h
    · exact .control w hquiet
    · exact .start w hquiet hen hidle
  | i2cS => cases h; exact .status w
  | i2cFifo => obtain ⟨hroom, rfl⟩ := execWrI2cFifo_next h; exact .pushed _ hroom
  | i2cDlen | i2cA | i2cDiv | i2cDel | i2cClkt =>
    simp only [writeInstr, exec, execWrI2cDlen, execWrI2cA, execWrI2cDiv, execWrI2cDel, execWrI2cClkt] at h
    obtain ⟨hidle, rfl⟩ := configureI2c_next h
    exact .configured hidle _ _ _ _ _ _
  | spiCs => obtain ⟨-, -, rfl⟩ := execWrSpiCs_next h; exact .same
  | spiFifo => obtain ⟨-, rfl⟩ := execWrSpiFifo_next h; exact .same
  | spiClk => obtain ⟨-, rfl⟩ := execWrSpiClk_next h; exact .same

theorem execRdI2cFifo_next {s t : State} (h : execRdI2cFifo s = .next t) :
    t.spi = s.spi ∧ t.gpio = s.gpio ∧ (t.i2c = s.i2c ∨ ∃ b q, s.i2c.rxq = b :: q ∧ t.i2c = { s.i2c with rxq := q }) := by
  unfold execRdI2cFifo at h
  split at h <;> cases h
  · exact ⟨rfl, rfl, .inl rfl⟩
  · rename_i b q hq; exact ⟨rfl, rfl, .inr ⟨b, q, hq, rfl⟩⟩

theorem execRdSpiFifo_next {s t : State} (h : execRdSpiFifo s = .next t) :
    t.i2c = s.i2c ∧ t.gpio = s.gpio ∧ (t.spi = s.spi ∨ ∃ b q, s.spi.rxq = b :: q ∧ t.spi = { s.spi with rxq := q }) := by
  unfold execRdSpiFifo at h
  split at h <;> cases h
  · exact ⟨rfl, rfl, .inl rfl⟩
  · rename_i b q hq; exact ⟨rfl, rfl, .inr ⟨b, q, hq, rfl⟩⟩

/-- A read of any register but the two FIFOs leaves the three blocks alone. -/
theorem exec_readInstr_blocks {g : Reg} {s t : State} (hi : g ≠ .i2cFifo) (hs : g ≠ .spiFifo)
    (h : exec (readInstr g) s = .next t) : t.gpio = s.gpio ∧ t.i2c = s.i2c ∧ t.spi = s.spi := by
  obtain ⟨v, n, hv⟩ := exec_readInstr_onlyAnswers hi hs s
  cases h.symm.trans hv
  exact ⟨rfl, rfl, rfl⟩

theorem exec_readInstr_i2c {g : Reg} {s t : State} (h : exec (readInstr g) s = .next t) :
    I2cWritten s.soc s.i2c t.i2c := by
  by_cases hi : g = .i2cFifo
  · subst hi
    obtain ⟨-, -, heq | ⟨b, q, hq, heq⟩⟩ := execRdI2cFifo_next h <;> rw [heq]
    · exact .same
    · exact .popped b q hq
  · by_cases hs : g = .spiFifo
    · subst hs
      obtain ⟨heq, -⟩ := execRdSpiFifo_next h
      rw [heq]; exact .same
    · obtain ⟨-, heq, -⟩ := exec_readInstr_blocks hi hs h
      rw [heq]; exact .same

/-- An operation that completes is a write or a read of its register. -/
theorem exec_write_or_read {i : Instr} {s t : State} (h : exec i s = .next t) :
    exec (writeInstr i.reg (dataBeatOf i)) s = .next t ∨ exec (readInstr i.reg) s = .next t := by
  rw [instr_eq i] at h
  split at h
  · exact .inl h
  · exact .inr h

theorem exec_i2c {i : Instr} {s t : State} (h : exec i s = .next t) : I2cWritten s.soc s.i2c t.i2c :=
  (exec_write_or_read h).elim exec_writeInstr_i2c exec_readInstr_i2c

/-! ## Any turn -/

theorem deliver_blocks (i : Instr) (s : State) :
    (deliver i s).soc = s.soc ∧ (deliver i s).gpio = s.gpio ∧ (deliver i s).i2c = s.i2c ∧ (deliver i s).spi = s.spi := by
  obtain ⟨v, hv⟩ := deliver_eq i s
  rw [hv]; exact ⟨rfl, rfl, rfl, rfl⟩

theorem proceed_blocks (n : Nat) (k : Task) (s : State) :
    (proceed n k s).soc = s.soc ∧ (proceed n k s).gpio = s.gpio ∧ (proceed n k s).i2c = s.i2c ∧
      (proceed n k s).spi = s.spi := by
  obtain ⟨r, hr⟩ := proceed_eq n k s
  rw [hr]; exact ⟨rfl, rfl, rfl, rfl⟩

theorem exec_soc {i : Instr} {s t : State} (h : exec i s = .next t) : t.soc = s.soc := by
  obtain ⟨-, -, -, -, hsoc, -⟩ := requestTouchesOnlyItsBlock i s t h
  exact hsoc

/-- The three blocks of `t` are those of `s`. -/
def SameBlocks (s t : State) : Prop := t.gpio = s.gpio ∧ t.i2c = s.i2c ∧ t.spi = s.spi

/-- What a turn can do to the three blocks. -/
inductive BlocksStep (s t : State) : Turn → Prop
  | powerOn (hg : t.gpio = { s.soc.resetGpio with envIn := s.gpio.envIn }) (hi : t.i2c = s.soc.resetI2c)
      (hs : t.spi = s.soc.resetSpi) : BlocksStep s t .powerOn
  | operation {τ : Turn} (hτ : τ ≠ .i2cEngine) (i : Instr) (u : State) (hexec : exec i s = .next u)
      (hu : SameBlocks u t) : BlocksStep s t τ
  | kept {τ : Turn} (hu : SameBlocks s t) : BlocksStep s t τ
  | i2c (c : I2c) (hc : i2cTransition s.soc (sdaIn s) (sclIn s) s.i2c = some c) (hu : SameBlocks (s.setI2c c) t) :
      BlocksStep s t .i2cEngine
  | spi (c : Spi) (hc : spiTransition s.soc (dataIn s (drawOf s)) s.spi = some c) (hu : SameBlocks (s.setSpi c) t) :
      BlocksStep s t .spiEngine
  | env (p : Pin) (high : Bool) (hu : SameBlocks (s.setGpio (applyLevel s.gpio p high)) t) :
      BlocksStep s t (.env p high)

theorem hostStep_blocks {τ : Turn} (hτ : τ ≠ .i2cEngine) {s t : State} (h : HostStep s t) :
    t.soc = s.soc ∧ BlocksStep s t τ := by
  rcases h with rfl | ⟨n, k, k', u, -, -, rfl, hu⟩ | ⟨op, cmds, -, rfl⟩
  · exact ⟨rfl, .kept ⟨rfl, rfl, rfl⟩⟩
  · obtain ⟨hsoc, hblocks⟩ := proceed_blocks n k' u
    rw [hsoc]
    rcases hu with ⟨i, v, hexec, rfl⟩ | rfl | ⟨w, rfl⟩ | ⟨w, rfl⟩ | ⟨w, rfl⟩ | ⟨w, rfl⟩
    · obtain ⟨hsoc', hg, hi, hs⟩ := deliver_blocks i v
      rw [hg, hi, hs] at hblocks
      exact ⟨hsoc'.trans (exec_soc hexec), .operation hτ i v hexec hblocks⟩
    all_goals exact ⟨rfl, .kept hblocks⟩
  · obtain ⟨hsoc, hblocks⟩ := proceed_blocks s.tasks.length (newTask op cmds)
      ((called op s).setTasks (s.tasks ++ [newTask op cmds]))
    simp only [State.setTasks_soc, State.setTasks_gpio, State.setTasks_i2c, State.setTasks_spi, called_soc, called_gpio,
      called_i2c, called_spi] at hsoc hblocks
    exact ⟨hsoc, .kept hblocks⟩

/-- A turn keeps the parameters, and does one of these to the blocks. -/
theorem takeTurn_blocks {τ : Turn} {s t : State} (h : takeTurn τ s = .next t) : t.soc = s.soc ∧ BlocksStep s t τ := by
  rcases takeTurn_cases h with ⟨rfl, rfl⟩ | ⟨r, i, u, rfl, hexec, rfl⟩ | ⟨hτ, hhost⟩ | ⟨rfl, rfl | ⟨c, hc, rfl⟩⟩ |
    ⟨rfl, rfl | ⟨c, hc, rfl⟩⟩ | ⟨p, high, rfl, rfl⟩ | ⟨n, rfl, rfl⟩ | ⟨b, ms, rfl, rfl⟩
  · exact ⟨rfl, .powerOn rfl rfl rfl⟩
  · obtain ⟨hsoc, hblocks⟩ := deliver_blocks i u
    exact ⟨hsoc.trans (exec_soc hexec), .operation (by simp) i u hexec hblocks⟩
  · refine hostStep_blocks ?_ hhost
    rcases hτ with ⟨n, rfl⟩ | ⟨op, rfl⟩ | ⟨n, ok, rfl⟩ <;> simp
  · exact ⟨rfl, .kept ⟨rfl, rfl, rfl⟩⟩
  · exact ⟨rfl, .i2c c hc ⟨rfl, rfl, rfl⟩⟩
  · exact ⟨rfl, .kept ⟨rfl, rfl, rfl⟩⟩
  · exact ⟨rfl, .spi c hc ⟨rfl, rfl, rfl⟩⟩
  · exact ⟨rfl, .env p high ⟨rfl, rfl, rfl⟩⟩
  · exact ⟨rfl, .kept ⟨rfl, rfl, rfl⟩⟩
  · cases b <;> exact ⟨rfl, .kept ⟨rfl, rfl, rfl⟩⟩

/-! ## Who sets `DONE` and `ERR` -/

/-- A register operation may clear the two flags and cannot set them (42_i2c_registers.md R187). -/
theorem I2cWritten.flags {soc : Soc} {c c' : I2c} (h : I2cWritten soc c c') :
    (c.done = false → c'.done = false) ∧ (c.err = false → c'.err = false) := by
  cases h with
  | control w | start w =>
    obtain ⟨-, -, -, -, -, -, -, -, hdone, herr, -⟩ := controlWritten_fields w c
    simp [hdone, herr]
  | status w => exact ⟨fun h => by simp [h], fun h => by simp [h]⟩
  | same | configured | popped | pushed => exact ⟨id, id⟩

/-- The I2C block after a turn: its reset value, the same but for a register operation, or moved by its engine. -/
theorem takeTurn_i2c {τ : Turn} {s t : State} (h : takeTurn τ s = .next t) :
    t.i2c = s.soc.resetI2c ∨ I2cWritten s.soc s.i2c t.i2c ∨
      (τ = .i2cEngine ∧ s.i2c.i2cen = true ∧ I2cMove s.soc (sclIn s) s.i2c t.i2c) := by
  obtain ⟨-, hstep⟩ := takeTurn_blocks h
  cases hstep with
  | powerOn hg hi hs => exact .inl hi
  | operation hτ i u hexec hu => obtain ⟨-, hi, -⟩ := hu; rw [hi]; exact .inr (.inl (exec_i2c hexec))
  | i2c c hc hu =>
    obtain ⟨-, hi, -⟩ := hu
    rw [hi]
    exact .inr (.inr ⟨rfl, i2cTransition_move hc⟩)
  | kept hu | spi c hc hu | env p high hu => obtain ⟨-, hi, -⟩ := hu; rw [hi]; exact .inr (.inl .same)

/-- A move that sets `DONE` is the STOP release. -/
theorem I2cMove.sets_done {soc : Soc} {scl : Bool} {c c' : I2c} (h : I2cMove soc scl c c') (hd : c.done = false)
    (hd' : c'.done = true) : c.fsm = .stopWait ∧ scl = true ∧ c'.fsm = .idle ∧ c'.mSda = true := by
  cases h with
  | stopRelease hf hscl => exact ⟨hf, hscl, rfl, rfl⟩
  | start => simp [hd] at hd'
  | _ => cases hd.symm.trans hd'

/-- A move that sets `ERR` is the one after a byte that was not acknowledged. -/
theorem I2cMove.sets_err {soc : Soc} {scl : Bool} {c c' : I2c} (h : I2cMove soc scl c c') (he : c.err = false)
    (he' : c'.err = true) : c.fsm = .byteNext ∧ c.ph ≠ .rx ∧ c.nack = true ∧ c'.fsm = .stopDrive := by
  cases h with
  | noAcknowledge hf hrx hnack => exact ⟨hf, hrx, hnack, rfl⟩
  | _ => cases he.symm.trans he'

/-- Settles O39: neither the reset value nor a register operation sets the flag, so a move of the engine does, and it is
the STOP release. -/
theorem doneIsSetOnlyByTheStopRelease : Obligations.DoneIsSetOnlyByTheStopRelease := by
  intro τ s t h hreset hd hd'
  rcases takeTurn_i2c h with heq | hwritten | ⟨rfl, -, hmove⟩
  · rw [heq, hreset] at hd'; cases hd'
  · cases (hwritten.flags.1 hd).symm.trans hd'
  · exact ⟨rfl, hmove.sets_done hd hd'⟩

/-- Settles O40: neither the reset value nor a register operation sets the flag, so a move of the engine does, and it is
the one on a missing acknowledge. -/
theorem errIsSetOnlyByAMissingAcknowledge : Obligations.ErrIsSetOnlyByAMissingAcknowledge := by
  intro τ s t h hreset he he'
  rcases takeTurn_i2c h with heq | hwritten | ⟨rfl, -, hmove⟩
  · rw [heq, hreset] at he'; cases he'
  · cases (hwritten.flags.2 he).symm.trans he'
  · exact ⟨rfl, hmove.sets_err he he'⟩

/-! ## What the engine writes (43_i2c_engine.md R220) -/

section
variable {soc : Soc} {scl : Bool} {c c' : I2c}

/-- No move writes a register the host configures. -/
theorem I2cMove.registers (h : I2cMove soc scl c c') :
    c'.i2cen = c.i2cen ∧ c'.read = c.read ∧ c'.addr = c.addr ∧ c'.dlen = c.dlen ∧ c'.cdiv = c.cdiv ∧
      c'.fedl = c.fedl ∧ c'.redl = c.redl ∧ c'.tout = c.tout := by
  cases h <;> exact ⟨rfl, rfl, rfl, rfl, rfl, rfl, rfl, rfl⟩

/-- Of the sticky flags only `DONE` is cleared, and only by a START (R222). -/
theorem I2cMove.keeps_flags (h : I2cMove soc scl c c') :
    (c.done = true → c'.done = true ∨ (soc.i2cDoneAutoclear = true ∧ c.fsm = .idle ∧ c'.fsm = .startHold)) ∧
      (c.err = true → c'.err = true) ∧ (c.clkt = true → c'.clkt = true) := by
  cases h with
  | start hf =>
    refine ⟨fun hd => ?_, id, id⟩
    cases ha : soc.i2cDoneAutoclear with
    | true => exact .inr ⟨rfl, hf, rfl⟩
    | false => exact .inl hd
  | stopRelease => exact ⟨fun _ => .inl rfl, id, id⟩
  | noAcknowledge => exact ⟨.inl, fun _ => rfl, id⟩
  | timeout => exact ⟨.inl, id, fun _ => rfl⟩
  | _ => exact ⟨.inl, id, id⟩

/-- A move takes at most the head of `txq`, and puts at most one byte into `rxq`. -/
theorem I2cMove.queues (h : I2cMove soc scl c c') :
    (c'.txq = c.txq ∨ ∃ b, c.txq = b :: c'.txq) ∧ (c'.rxq = c.rxq ∨ ∃ b, c'.rxq = c.rxq ++ [b]) := by
  cases h with
  | send hf hrem b q hq => exact ⟨.inr ⟨b, hq⟩, .inl rfl⟩
  | byteReceived => exact ⟨.inl rfl, .inr ⟨c.sh, rfl⟩⟩
  | _ => exact ⟨.inl rfl, .inl rfl⟩

end

/-- Settles O38: the turn puts the block its move leaves, or nothing. -/
theorem i2cEngineFrame : Obligations.I2cEngineFrame := by
  intro s t h
  rcases i2cEngineTurn_cases s with ⟨c, htrans, hturn⟩ | ⟨-, hturn⟩ <;> cases hturn.symm.trans h
  case inl =>
    obtain ⟨-, hmove⟩ := i2cTransition_move htrans
    obtain ⟨hen, hread, haddr, hdlen, hcdiv, hfedl, hredl, htout⟩ := hmove.registers
    obtain ⟨hdone, herr, hclkt⟩ := hmove.keeps_flags
    exact ⟨rfl, hen, hread, haddr, hdlen, hcdiv, hfedl, hredl, htout, hdone, herr, hclkt, hmove.queues⟩
  case inr =>
    exact ⟨rfl, rfl, rfl, rfl, rfl, rfl, rfl, rfl, rfl, .inl, id, id, .inl rfl, .inl rfl⟩

end Sys2Proof.Machine
end

section
/-! Soundness of the I2C block (`i2cSound`): each of its four parts is kept by every move of the engine and by every
register operation. -/

namespace Sys2Proof.Machine

variable {soc : Soc} {scl : Bool} {c c' : I2c}

/-! ## Moves of the engine -/

/-- The lines stand where the place entered holds them (43_i2c_engine.md R224, R228, R234, R243). -/
theorem I2cMove.keeps_lines (h : I2cMove soc scl c c') (hlines : i2cLinesFollow c) : i2cLinesFollow c' := by
  obtain ⟨hsda, hscl, hdata⟩ := hlines
  cases h with
  | start hf | sample hf | finish hf | noAcknowledge hf | send hf | receive hf =>
    rw [hf] at hscl
    simp [i2cLinesFollow, hscl, holdsClock, holdsData]
  | drive hf | stopDrive hf =>
    rw [hf] at hscl
    simp [i2cLinesFollow, hscl, holdsClock, holdsData]
  | stopRise hf =>
    rw [hf] at hdata
    simp [i2cLinesFollow, holdsClock, holdsData, hdata rfl]
  | stopRelease hf =>
    rw [hf] at hscl
    simp [i2cLinesFollow, hscl, holdsClock, holdsData]
  | stretch => exact ⟨hsda, hscl, hdata⟩
  | startHold | rise | nextCell | byteReceived | byteSent | byteEnd | timeout =>
    simp [i2cLinesFollow, holdsClock, holdsData]

/-- A move of an enabled block leaves it enabled, a START takes the pending start and latches the direction
(20_memory.md R93, 43_i2c_engine.md R222). -/
theorem I2cMove.keeps_control (h : I2cMove soc scl c c') (hen : c.i2cen = true) (hcontrol : i2cControlFollows c) :
    i2cControlFollows c' := by
  obtain ⟨-, hpend, hdir⟩ := hcontrol
  have hnone : c.fsm ≠ .idle → c.stPend = false ∧ c.rd = c.read := fun hf =>
    ⟨by simpa using mt hpend hf, hdir hf⟩
  cases h with
  | start => simp [i2cControlFollows, hen]
  | stretch hf | timeout hf =>
    obtain ⟨hp, hd⟩ := hnone (by rcases hf with hf | hf <;> simp [hf])
    simp [i2cControlFollows, hen, hp, hd]
  | startHold hf | drive hf | rise hf | sample hf | nextCell hf | byteReceived hf | byteSent hf | byteEnd hf
  | noAcknowledge hf | finish hf | send hf | receive hf | stopDrive hf | stopRise hf | stopRelease hf =>
    obtain ⟨hp, hd⟩ := hnone (by simp [hf])
    simp [i2cControlFollows, hen, hp, hd]

/-- A byte received finds the room its cells were begun with (43_i2c_engine.md R228). -/
theorem I2cMove.keeps_queues (h : I2cMove soc scl c c') (hqueues : i2cQueuesFit soc c) (hbytes : i2cBytesFit soc c) :
    i2cQueuesFit soc c' := by
  obtain ⟨htx, hrx⟩ := hqueues
  obtain ⟨-, -, hroom⟩ := hbytes
  cases h with
  | byteReceived hf hk hph =>
    obtain ⟨-, hlt⟩ := hroom (by simp [hf, inCell]) hph (by omega)
    exact ⟨htx, by simpa using hlt⟩
  | send hf hrem b q hq => exact ⟨by simp [hq] at htx; show q.length ≤ _; omega, hrx⟩
  | _ => exact ⟨htx, hrx⟩

/-- A cell of a data byte is entered only with bytes left, and one of a received byte only with room for it
(43_i2c_engine.md R228 to R231). -/
theorem I2cMove.keeps_bytes (h : I2cMove soc scl c c') (hbytes : i2cBytesFit soc c) : i2cBytesFit soc c' := by
  obtain ⟨haddr, hsend, hreceive⟩ := hbytes
  cases h with
  | startHold hf => simp [i2cBytesFit, haddr hf]
  | drive hf | rise hf | sample hf =>
    rw [hf] at hsend hreceive
    exact ⟨by simp, fun _ => hsend rfl, fun _ => hreceive rfl⟩
  | nextCell hf k hk hk' hrx =>
    rw [hf] at hsend hreceive
    exact ⟨by simp, fun _ => hsend rfl, fun _ hph _ => hreceive rfl hph hk⟩
  | byteReceived hf hk hph => simp [i2cBytesFit, hph]
  | send hf hrem => exact ⟨by simp, fun _ _ => hrem, by simp⟩
  | receive hf hrem hroom => exact ⟨by simp, by simp, fun _ _ _ => ⟨hrem, hroom⟩⟩
  | stretch => exact ⟨haddr, hsend, hreceive⟩
  | start | byteSent | byteEnd | noAcknowledge | finish | stopDrive | stopRise | stopRelease | timeout =>
    simp [i2cBytesFit, inCell]

theorem I2cMove.keeps_sound (h : I2cMove soc scl c c') (hen : c.i2cen = true) (hsound : i2cSound soc c) :
    i2cSound soc c' := by
  obtain ⟨hqueues, hlines, hcontrol, hbytes⟩ := hsound
  exact ⟨h.keeps_queues hqueues hbytes, h.keeps_lines hlines, h.keeps_control hen hcontrol, h.keeps_bytes hbytes⟩

/-! ## Register operations -/

/-- A write of `I2C.C` that is not refused keeps a transfer in flight as it is, or abandons it with the lines released;
at rest a clear only makes room (42_i2c_registers.md R182, R184, R185). -/
theorem controlWritten_sound {w : Word} (hquiet : c.fsm = .idle ∨ (readOf w = c.read ∧ clearOf w = false))
    (hsound : i2cSound soc c) : i2cSound soc (controlWritten w c) := by
  obtain ⟨⟨htx, hrx⟩, ⟨hsda, hscl, hdata⟩, ⟨-, hpend, hdir⟩, ⟨haddr, hsend, hreceive⟩⟩ := hsound
  obtain ⟨hen', hread', hfsm', hpend', htx', hrx', hsda', hscl', -, -, -, hph', hrem', hcell', hrd', -⟩ :=
    controlWritten_fields w c
  have htxle : (controlWritten w c).txq.length ≤ c.txq.length := by rw [htx']; split <;> simp
  have hrxle : (controlWritten w c).rxq.length ≤ c.rxq.length := by rw [hrx']; split <;> simp
  refine ⟨⟨htxle.trans htx, hrxle.trans hrx⟩, ?_⟩
  cases hen : i2cenOf w with
  | true =>
    simp only [hen, if_true, Bool.true_and, Bool.true_eq_false, false_and, if_false] at hen' hfsm' hpend' hsda' hscl'
    rw [i2cLinesFollow, i2cControlFollows, i2cBytesFit, hen', hread', hfsm', hpend', hsda', hscl', hph', hrem', hcell',
      hrd']
    refine ⟨⟨hsda, hscl, hdata⟩, ⟨nofun, hpend, fun hf => ?_⟩, haddr, hsend, fun hc hph hk => ?_⟩
    · obtain ⟨hr, -⟩ := hquiet.resolve_left hf
      rw [hr, hdir hf]
    · obtain ⟨hrem, hroom⟩ := hreceive hc hph hk
      exact ⟨hrem, hrxle.trans_lt hroom⟩
  | false =>
    simp only [hen, Bool.false_eq_true, if_false, Bool.false_and, true_and] at hfsm' hpend' hsda' hscl'
    rw [i2cLinesFollow, i2cControlFollows, i2cBytesFit, hfsm', hpend', hsda', hscl']
    by_cases hf : c.fsm = .idle
    · rw [hf] at hscl
      simp [hf, hsda hf, hscl, holdsClock, holdsData, inCell]
    · simp [hf, holdsClock, holdsData, inCell]

theorem I2cWritten.keeps_sound (h : I2cWritten soc c c') (hsound : i2cSound soc c) : i2cSound soc c' := by
  cases h with
  | same => exact hsound
  | control w hquiet => exact controlWritten_sound hquiet hsound
  | start w hquiet hen hidle =>
    obtain ⟨hqueues, hlines, ⟨-, -, hdir⟩, hbytes⟩ := controlWritten_sound hquiet hsound
    exact ⟨hqueues, hlines, ⟨fun h => by simp [hen] at h, fun _ => hidle, hdir⟩, hbytes⟩
  | status w => exact hsound
  | configured => exact hsound
  | popped b q hq =>
    obtain ⟨⟨htx, hrx⟩, hlines, hcontrol, ⟨haddr, hsend, hreceive⟩⟩ := hsound
    rw [hq] at hrx hreceive
    refine ⟨⟨htx, Nat.le_of_succ_le hrx⟩, hlines, hcontrol, haddr, hsend, fun hc hph hk => ?_⟩
    obtain ⟨hrem, hroom⟩ := hreceive hc hph hk
    exact ⟨hrem, Nat.lt_of_succ_lt hroom⟩
  | pushed b hroom =>
    obtain ⟨⟨htx, hrx⟩, hrest⟩ := hsound
    refine ⟨⟨?_, hrx⟩, hrest⟩
    simp only [pushByte, List.length_append, List.length_singleton]
    omega

end Sys2Proof.Machine
end

section
/-! Soundness of the SPI and the GPIO block, of the operations in progress and the windows, and of the whole machine. -/

namespace Sys2Proof.Machine

/-! ## The SPI block (45_spi.md R311, R313, R318) -/

/-- What a register operation that completes can do to the SPI block. -/
inductive SpiWritten (soc : Soc) (c : Spi) : Spi → Prop
  | same : SpiWritten soc c c
  | control (w : Word) (hquiet : c.sfsm = .idle ∨ configDiffers w c = false) :
      SpiWritten soc c (taWritten (taOf w) (clearsWritten w (configWritten w c)))
  | clock (cdiv : BitVec 16) : SpiWritten soc c { c with cdiv := cdiv }
  | popped (b : Byte) (q : List Byte) (hq : c.rxq = b :: q) : SpiWritten soc c { c with rxq := q }
  | pushed (b : Byte) (hroom : c.txq.length ≠ soc.spiFifoDepth) : SpiWritten soc c { c with txq := pushByte c.txq b }

theorem exec_writeInstr_spi {g : Reg} {w : Word} {s t : State} (h : exec (writeInstr g w) s = .next t) :
    SpiWritten s.soc s.spi t.spi := by
  by_cases hg : g.window = .spi
  · cases g with
    | spiCs => obtain ⟨-, hquiet, rfl⟩ := execWrSpiCs_next h; exact .control w hquiet
    | spiFifo => obtain ⟨hroom, rfl⟩ := execWrSpiFifo_next h; exact .pushed _ hroom
    | spiClk => obtain ⟨-, rfl⟩ := execWrSpiClk_next h; exact .clock _
    | _ => cases hg
  · obtain ⟨-, -, hspi, -⟩ := requestTouchesOnlyItsBlock _ s t h
    rw [hspi (by rwa [reg_writeInstr])]
    exact .same

theorem exec_readInstr_spi {g : Reg} {s t : State} (h : exec (readInstr g) s = .next t) :
    SpiWritten s.soc s.spi t.spi := by
  by_cases hg : g = .spiFifo
  · subst hg
    obtain ⟨-, -, heq | ⟨b, q, hq, heq⟩⟩ := execRdSpiFifo_next h <;> rw [heq]
    · exact .same
    · exact .popped b q hq
  · by_cases hi : g = .i2cFifo
    · subst hi
      obtain ⟨heq, -⟩ := execRdI2cFifo_next h
      rw [heq]; exact .same
    · obtain ⟨-, -, heq⟩ := exec_readInstr_blocks hi hg h
      rw [heq]; exact .same

theorem exec_spi {i : Instr} {s t : State} (h : exec i s = .next t) : SpiWritten s.soc s.spi t.spi :=
  (exec_write_or_read h).elim exec_writeInstr_spi exec_readInstr_spi

section
variable {soc : Soc} {c c' : Spi}

/-- A write of the configuration at rest moves the resting clock; in flight it changes nothing. -/
theorem configWritten_sound {w : Word} (hquiet : c.sfsm = .idle ∨ configDiffers w c = false) (h : spiSound soc c) :
    spiSound soc (configWritten w c) := by
  rcases hquiet with hidle | hsame
  · obtain ⟨hqueues, -, hbit, -, -⟩ := h
    refine ⟨hqueues, ?_, hbit, ?_, ?_⟩ <;> simp [configWritten, sclkAt, hidle]
  · rw [configWritten_sameConfig hsame (sclk_of_spiSound h)]
    exact h

theorem clearsWritten_sound {w : Word} (h : spiSound soc c) : spiSound soc (clearsWritten w c) := by
  obtain ⟨⟨htx, hrx⟩, hsclk, hbit, hstore, hflight⟩ := h
  have htxle : (clearsWritten w c).txq.length ≤ c.txq.length := by unfold clearsWritten; dsimp only; split <;> simp
  have hrxle : (clearsWritten w c).rxq.length ≤ c.rxq.length := by unfold clearsWritten; dsimp only; split <;> simp
  refine ⟨⟨htxle.trans htx, hrxle.trans hrx⟩, hsclk, hbit, hstore, fun hf => ?_⟩
  obtain ⟨hta, hroom⟩ := hflight hf
  exact ⟨hta, hrxle.trans_lt hroom⟩

/-- Clearing `TA` in mid byte puts the engine to rest (45_spi.md R304). -/
theorem taWritten_sound {ta : Bool} (h : spiSound soc c) : spiSound soc (taWritten ta c) := by
  obtain ⟨hqueues, hsclk, hbit, hstore, hflight⟩ := h
  unfold taWritten
  split
  case isTrue => exact ⟨hqueues, rfl, fun _ => rfl, nofun, fun hf => absurd rfl hf⟩
  case isFalse hkept =>
    refine ⟨hqueues, hsclk, hbit, hstore, fun hf => ?_⟩
    obtain ⟨hta, hroom⟩ := hflight hf
    refine ⟨?_, hroom⟩
    cases ta with
    | true => rfl
    | false => exact absurd ⟨hta, rfl, hf⟩ hkept

theorem SpiWritten.keeps_sound (h : SpiWritten soc c c') (hsound : spiSound soc c) : spiSound soc c' := by
  cases h with
  | same => exact hsound
  | control w hquiet => exact taWritten_sound (clearsWritten_sound (configWritten_sound hquiet hsound))
  | clock => exact hsound
  | popped b q hq =>
    obtain ⟨⟨htx, hrx⟩, hsclk, hbit, hstore, hflight⟩ := hsound
    rw [hq] at hrx hflight
    refine ⟨⟨htx, Nat.le_of_succ_le hrx⟩, hsclk, hbit, hstore, fun hf => ?_⟩
    obtain ⟨hta, hroom⟩ := hflight hf
    exact ⟨hta, Nat.lt_of_succ_lt hroom⟩
  | pushed b hroom =>
    obtain ⟨⟨htx, hrx⟩, hrest⟩ := hsound
    refine ⟨⟨?_, hrx⟩, hrest⟩
    simp only [pushByte, List.length_append, List.length_singleton]
    omega

theorem spiTransition_sound {din : Bool} (h : spiTransition soc din c = some c') (hsound : spiSound soc c) :
    spiSound soc c' := by
  obtain ⟨⟨htx, hrx⟩, hsclk, hbit, hstore, hflight⟩ := hsound
  rcases spiTransition_cases h with ⟨hf, hload⟩ | ⟨hf, rfl⟩ | ⟨hf, rfl⟩ | ⟨hf, rfl⟩ | ⟨hf, rfl⟩
  · obtain ⟨hta, hroom, b, q, hq, rfl⟩ := tLoad_cases hload
    rw [hq] at htx
    rw [sclkAt, hf] at hsclk
    exact ⟨⟨Nat.le_of_succ_le htx, hrx⟩, hsclk, nofun, nofun, fun _ => ⟨hta, hroom⟩⟩
  all_goals obtain ⟨hta, hroom⟩ := hflight (by simp [hf])
  · rw [tSetup_eq]
    rw [sclkAt, hf] at hsclk
    exact ⟨⟨htx, hrx⟩, hsclk, nofun, nofun, fun _ => ⟨hta, hroom⟩⟩
  · rw [tLead_eq]
    exact ⟨⟨htx, hrx⟩, rfl, nofun, nofun, fun _ => ⟨hta, hroom⟩⟩
  · rcases tTrail_cases din c with ⟨k, -, -, htrail⟩ | ⟨h7, htrail⟩ <;> rw [htrail]
    · exact ⟨⟨htx, hrx⟩, rfl, nofun, nofun, fun _ => ⟨hta, hroom⟩⟩
    · exact ⟨⟨htx, hrx⟩, rfl, nofun, fun _ => Fin.ext h7, fun _ => ⟨hta, hroom⟩⟩
  · rw [tStore_eq]
    rw [sclkAt, hf] at hsclk
    exact ⟨⟨htx, by simpa using hroom⟩, hsclk, fun _ => rfl, nofun, fun hf => absurd rfl hf⟩

end

/-! ## The GPIO block (10_state.md R24, R29) -/

theorem writeMode_sound {soc : Soc} {g : Gpio} (i : Fin 6) (w : Word) (h : gpioSound soc g) :
    gpioSound soc { g with mode := g.mode.set i (w &&& modeFieldsMask soc i) } := by
  obtain ⟨hmode, hout⟩ := h
  refine ⟨fun j => ?_, hout⟩
  by_cases hij : j = i
  · subst hij
    simpa using modeFields_reserved soc j w
  · have hne : i.val ≠ j.val := fun e => hij (Fin.ext e.symm)
    have hkept : (g.mode.set i (w &&& modeFieldsMask soc i))[j] = g.mode[j] :=
      Vector.getElem_set_ne i.isLt j.isLt hne
    rw [hkept]
    exact hmode j

/-- Only pins that exist have a bit of a bank. -/
theorem bankBits_missing (soc : Soc) (j : Fin 2) (w : Word) : bankBits soc j w &&& ~~~ existingPins soc = 0 := by
  rw [bankBits, BitVec.and_assoc, BitVec.and_not_self]
  exact BitVec.and_zero

theorem exec_gpio_sound {i : Instr} {s t : State} (h : exec i s = .next t) (hsound : gpioSound s.soc s.gpio) :
    gpioSound s.soc t.gpio := by
  by_cases hg : i.reg.window = .gpio
  · obtain ⟨hmode, hout⟩ := hsound
    rcases exec_write_or_read h with hwrite | hread
    · cases hreg : i.reg with
      | gpioMode j => rw [hreg, exec_writeMode] at hwrite; cases hwrite; exact writeMode_sound j _ ⟨hmode, hout⟩
      | gpioSet j =>
        rw [hreg, exec_writeSet] at hwrite; cases hwrite
        refine ⟨hmode, ?_⟩
        rw [State.setGpio_gpio, BitVec.and_or_distrib_right, hout, bankBits_missing]
        rfl
      | gpioClr j =>
        rw [hreg, exec_writeClr] at hwrite; cases hwrite
        refine ⟨hmode, ?_⟩
        rw [State.setGpio_gpio, BitVec.and_assoc, BitVec.and_comm (~~~ bankBits _ _ _), ← BitVec.and_assoc, hout]
        exact BitVec.zero_and
      | gpioLev j => rw [hreg, exec_writeLevel] at hwrite; cases hwrite; exact ⟨hmode, hout⟩
      | _ => rw [hreg] at hg; cases hg
    · obtain ⟨heq, -⟩ := exec_readInstr_blocks (by rintro e; rw [e] at hg; cases hg)
        (by rintro e; rw [e] at hg; cases hg) hread
      rw [heq]
      exact ⟨hmode, hout⟩
  · obtain ⟨heq, -⟩ := requestTouchesOnlyItsBlock i s t h
    rw [heq hg]
    exact hsound

/-- The environment moves no latch and no mode. -/
theorem applyLevel_sound {soc : Soc} {g : Gpio} (p : Pin) (high : Bool) (h : gpioSound soc g) :
    gpioSound soc (applyLevel g p high) := by
  cases high <;> exact h

/-! ## The three blocks under any turn -/

theorem takeTurn_blocks_sound {τ : Turn} {s t : State} (h : takeTurn τ s = .next t) (hsoc : socSound s.soc)
    (hgpio : gpioSound s.soc s.gpio) (hi2c : i2cSound s.soc s.i2c) (hspi : spiSound s.soc s.spi) :
    gpioSound s.soc t.gpio ∧ i2cSound s.soc t.i2c ∧ spiSound s.soc t.spi := by
  obtain ⟨-, hstep⟩ := takeTurn_blocks h
  cases hstep with
  | powerOn hg hi hs =>
    obtain ⟨-, -, -, -, hgpio₀, hi2c₀, hspi₀⟩ := hsoc
    rw [hg, hi, hs]
    exact ⟨hgpio₀, hi2c₀, hspi₀⟩
  | operation hτ i u hexec hu =>
    obtain ⟨hg, hi, hs⟩ := hu
    rw [hg, hi, hs]
    exact ⟨exec_gpio_sound hexec hgpio, (exec_i2c hexec).keeps_sound hi2c, (exec_spi hexec).keeps_sound hspi⟩
  | kept hu =>
    obtain ⟨hg, hi, hs⟩ := hu
    rw [hg, hi, hs]
    exact ⟨hgpio, hi2c, hspi⟩
  | i2c c hc hu =>
    obtain ⟨hg, hi, hs⟩ := hu
    obtain ⟨hen, hmove⟩ := i2cTransition_move hc
    rw [hg, hi, hs]
    exact ⟨hgpio, hmove.keeps_sound hen hi2c, hspi⟩
  | spi c hc hu =>
    obtain ⟨hg, hi, hs⟩ := hu
    rw [hg, hi, hs]
    exact ⟨hgpio, hi2c, spiTransition_sound hc hspi⟩
  | env p high hu =>
    obtain ⟨hg, hi, hs⟩ := hu
    rw [hg, hi, hs]
    exact ⟨applyLevel_sound p high hgpio, hi2c, hspi⟩

/-! ## The host: operations in progress and windows (20_memory.md R83, R92) -/

/-- An operation that uses nothing in use joins the others, or has already returned. -/
theorem newTask_tasksSound {op : DriverOp} {cmds : List HostCmd} {s : State} (hfree : inUse s (claimsOf s.soc op) = false)
    (h : tasksSound s.soc s.tasks) :
    tasksSound s.soc (proceed s.tasks.length (newTask op cmds)
      ((called op s).setTasks (s.tasks ++ [newTask op cmds]))).tasks := by
  by_cases hc : (newTask op cmds).cont = []
  · rw [proceed_last_done rfl hc]
    exact h
  · rw [proceed_last_more rfl hc]
    obtain ⟨hne, hpair⟩ := h
    have hclash : ∀ k ∈ s.tasks, clash (claimsOf s.soc op) (claimsOf s.soc k.op) = false := by
      simpa [inUse] using hfree
    refine ⟨fun k hk => ?_, List.pairwise_append.2 ⟨hpair, List.pairwise_singleton _ _, fun k hk k' hk' => ?_⟩⟩
    · rcases List.mem_append.1 hk with hk | hk
      · exact hne k hk
      · rw [List.mem_singleton.1 hk]; exact hc
    · rw [List.mem_singleton.1 hk']; exact hclash k hk

theorem proceed_host (n : Nat) (k : Task) (s : State) :
    (proceed n k s).tasks = tasksAfter n k s.tasks ∧ (proceed n k s).mapped = s.mapped ∧
      (proceed n k s).begun = s.begun := by
  obtain ⟨r, hr⟩ := proceed_eq n k s
  rw [hr]; exact ⟨rfl, rfl, rfl⟩

/-- A register operation, and the delivery of its answer, leave the host's operations and handles alone. -/
theorem deliver_host {i : Instr} {s u : State} (h : exec i s = .next u) :
    (deliver i u).tasks = s.tasks ∧ (deliver i u).mapped = s.mapped ∧ (deliver i u).begun = s.begun := by
  obtain ⟨-, -, -, -, -, hm, hb, -, -, -, ht, -⟩ := requestTouchesOnlyItsBlock i s u h
  obtain ⟨v, hv⟩ := deliver_eq i u
  rw [hv]; exact ⟨ht, hm, hb⟩

theorem hostStep_tasksSound {s t : State} (h : HostStep s t) (hsound : tasksSound s.soc s.tasks) :
    tasksSound s.soc t.tasks := by
  rcases h with rfl | ⟨n, k, k', u, hk, hop, rfl, hu⟩ | ⟨op, cmds, hfree, rfl⟩
  · exact hsound
  · obtain ⟨htasks, -⟩ := proceed_host n k' u
    have hsame : u.tasks = s.tasks := by
      rcases hu with ⟨i, v, hexec, rfl⟩ | rfl | ⟨w, rfl⟩ | ⟨w, rfl⟩ | ⟨w, rfl⟩ | ⟨w, rfl⟩
      · exact (deliver_host hexec).1
      all_goals rfl
    rw [htasks, hsame]
    exact tasksAfter_sound hsound hk hop
  · exact newTask_tasksSound hfree hsound

theorem windowsFollow_congr {s t : State} (hm : t.mapped = s.mapped) (hb : t.begun = s.begun) (h : windowsFollow s) :
    windowsFollow t := by
  rw [windowsFollow, hm, hb]; exact h

section
variable {s : State} (w : Window)

theorem beginInit_windowsFollow (h : windowsFollow s) : windowsFollow (beginInit w s) := by
  intro w' hw' hmap
  by_cases e : w' = w
  · subst e; simp
  · rw [beginInit_begun, PerWindow.get_set_ne _ _ e]; exact h w' hw' hmap

theorem mapWindow_windowsFollow (h : windowsFollow s) : windowsFollow (mapWindow w s) := by
  intro w' hw' hmap
  by_cases e : w' = w
  · subst e; simp
  · rw [mapWindow_mapped, PerWindow.get_set_ne _ _ e] at hmap
    rw [mapWindow_begun, PerWindow.get_set_ne _ _ e]; exact h w' hw' hmap

theorem failMapping_windowsFollow (h : windowsFollow s) : windowsFollow (failMapping w s) := by
  intro w' hw' hmap
  by_cases e : w' = w
  · subst e; simp at hmap
  · rw [failMapping_mapped, PerWindow.get_set_ne _ _ e] at hmap
    exact h w' hw' hmap

theorem unmapWindow_windowsFollow (h : windowsFollow s) : windowsFollow (unmapWindow w s) := by
  intro w' hw' hmap
  by_cases e : w' = w
  · subst e; simp at hmap
  · rw [unmapWindow_mapped, PerWindow.get_set_ne _ _ e] at hmap
    rw [unmapWindow_begun, PerWindow.get_set_ne _ _ e]; exact h w' hw' hmap

end

theorem hostStep_windowsFollow {s t : State} (h : HostStep s t) (hsound : windowsFollow s) : windowsFollow t := by
  rcases h with rfl | ⟨n, k, k', u, -, -, rfl, hu⟩ | ⟨op, cmds, -, rfl⟩
  · exact hsound
  · obtain ⟨-, hm, hb⟩ := proceed_host n k' u
    refine windowsFollow_congr hm hb ?_
    rcases hu with ⟨i, v, hexec, rfl⟩ | rfl | ⟨w, rfl⟩ | ⟨w, rfl⟩ | ⟨w, rfl⟩ | ⟨w, rfl⟩
    · obtain ⟨-, hm', hb'⟩ := deliver_host hexec
      exact windowsFollow_congr hm' hb' hsound
    · exact hsound
    · exact beginInit_windowsFollow w hsound
    · exact mapWindow_windowsFollow w hsound
    · exact failMapping_windowsFollow w hsound
    · exact unmapWindow_windowsFollow w hsound
  · obtain ⟨-, hm, hb⟩ := proceed_host s.tasks.length (newTask op cmds)
      ((called op s).setTasks (s.tasks ++ [newTask op cmds]))
    refine windowsFollow_congr hm hb ?_
    rcases called_cases op s with heq | ⟨w, heq⟩ | ⟨w, heq⟩ <;> rw [heq]
    · exact hsound
    · exact beginInit_windowsFollow w hsound
    · exact unmapWindow_windowsFollow w hsound

/-- The host's part of a sound state under any turn. -/
theorem takeTurn_host_sound {τ : Turn} {s t : State} (h : takeTurn τ s = .next t) (htasks : tasksSound s.soc s.tasks)
    (hwindows : windowsFollow s) : tasksSound s.soc t.tasks ∧ windowsFollow t := by
  rcases takeTurn_cases h with ⟨-, rfl⟩ | ⟨r, i, u, -, hexec, rfl⟩ | ⟨-, hhost⟩ | ⟨-, rfl | ⟨c, -, rfl⟩⟩ |
    ⟨-, rfl | ⟨c, -, rfl⟩⟩ | ⟨p, high, -, rfl⟩ | ⟨n, -, rfl⟩ | ⟨b, ms, -, rfl⟩
  · exact ⟨⟨nofun, List.Pairwise.nil⟩, fun w _ hm => by cases w <;> cases hm⟩
  · obtain ⟨ht, hm, hb⟩ := deliver_host hexec
    rw [ht]
    exact ⟨htasks, windowsFollow_congr hm hb hwindows⟩
  · exact ⟨hostStep_tasksSound hhost htasks, hostStep_windowsFollow hhost hwindows⟩
  · exact ⟨htasks, hwindows⟩
  · exact ⟨htasks, hwindows⟩
  · exact ⟨htasks, hwindows⟩
  · exact ⟨htasks, hwindows⟩
  · exact ⟨htasks, hwindows⟩
  · exact ⟨htasks, hwindows⟩
  · cases b <;> exact ⟨htasks, hwindows⟩

/-! ## The whole machine -/

theorem takeTurn_sound {τ : Turn} {s t : State} (h : takeTurn τ s = .next t) (hs : stateSound s) :
    stateSound t ∧ t.soc = s.soc := by
  obtain ⟨hsoc, hgpio, hi2c, hspi, htasks, hwindows⟩ := hs
  obtain ⟨heq, -⟩ := takeTurn_blocks h
  obtain ⟨hgpio', hi2c', hspi'⟩ := takeTurn_blocks_sound h hsoc hgpio hi2c hspi
  obtain ⟨htasks', hwindows'⟩ := takeTurn_host_sound h htasks hwindows
  rw [← heq] at hsoc hgpio' hi2c' hspi' htasks'
  exact ⟨⟨hsoc, hgpio', hi2c', hspi', htasks', hwindows'⟩, heq⟩

/-- The choice of the turn touches no part of soundness. -/
theorem turnTaken_sound {s : State} (hs : stateSound s) : stateSound (turnTaken s) := by
  unfold turnTaken
  split <;> exact hs

/-- Settles O51: whoever's turn it is, the turn is taken on a sound state and keeps it sound. -/
theorem everyStepKeepsSoundness : Obligations.EveryStepKeepsSoundness := by
  intro s t hs h
  obtain ⟨hsound, heq⟩ := takeTurn_sound h (turnTaken_sound hs)
  obtain ⟨hsoc, -⟩ := turnTaken_frame s
  exact ⟨hsound, heq.trans hsoc⟩

/-- Settles O50: with the default parameters every part of soundness is a finite check. -/
theorem resetIsSound : Obligations.ResetIsSound := by
  refine ⟨⟨layoutSound_default, by decide, by decide, by decide, ?gpio, ?i2c, ?spi⟩, ?gpio, ?i2c, ?spi,
    ⟨nofun, List.Pairwise.nil⟩, by decide⟩
  case gpio => decide
  case i2c => decide
  case spi => decide

end Sys2Proof.Machine
end

section
/-! The state after reset (10_state.md R70, 70_reset_and_hazards.md R401). -/

namespace Sys2Proof.Machine

/-- With both queues empty and `REN` set, `CS` reads 0x00041000 but for its draw bit. -/
theorem spiStatusWord_reset (d : BitVec 64) :
    spiStatusWord Soc.bcm283x Spi.reset d &&& 0xFFF7FFFF = 0x00041000 := by
  rw [spiStatusWord]
  generalize d.getLsbD 19 = rxr
  revert rxr
  decide

/-- With both queues empty and every flag down, `S` reads 0x00000050 but for its two draw bits. -/
theorem i2cStatusWord_reset (d : BitVec 64) :
    i2cStatusWord Soc.bcm283x I2c.reset d &&& 0xFFFFFFF3 = 0x00000050 := by
  rw [i2cStatusWord]
  generalize d.getLsbD 2 = txw
  generalize d.getLsbD 3 = rxr
  revert txw rxr
  decide

/-- A register file of zeroes has every pin in the mode of code 0. -/
theorem pinInMode_reset (p : Pin) : pinInMode State.reset p .input = true := by
  revert p; decide

/-- Settles O49: every field is the one written in the reset values, and the two status words differ from theirs in draw
bits alone. -/
theorem resetState : Obligations.ResetState :=
  ⟨rfl, rfl, rfl, rfl, rfl, rfl, rfl, rfl, rfl, pinInMode_reset, spiStatusWord_reset, i2cStatusWord_reset⟩

end Sys2Proof.Machine
end

section
/-! The I2C engine's transitions, each as the statement of its rule writes it (43_i2c_engine.md R222 to R241). -/

namespace Sys2Proof.Machine

/-! ## START (R222 to R224) -/

theorem i2cEngineTurn_of_some {s : State} {c : I2c}
    (h : i2cTransition s.soc (sdaIn s) (sclIn s) s.i2c = some c) : i2cEngineTurn s = .next (s.setI2c c) := by
  unfold i2cEngineTurn; rw [h]

theorem i2cEngineTurn_of_none {s : State} (h : i2cTransition s.soc (sdaIn s) (sclIn s) s.i2c = none) :
    i2cEngineTurn s = .next s := by
  unfold i2cEngineTurn; rw [h]

/-- Settles O31: with both lines high the turn is `T_START`; with a line low there is no transition; from START_HOLD it is
`T_START_HOLD`. -/
theorem startLatchesTheTransfer : Obligations.StartLatchesTheTransfer := by
  intro s hen
  refine ⟨fun hf hp hsda hscl => ?start, fun hf _ hlow => ?waits, fun hf => ?hold⟩
  case start =>
    have h := i2cTransition_idle (soc := s.soc) hen hf hp
    rw [tStart_eq] at h
    exact i2cEngineTurn_of_some (by rw [hsda, hscl]; exact h)
  case waits => exact i2cEngineTurn_of_none (i2cTransition_idle_busy hf hlow)
  case hold => exact i2cEngineTurn_of_some (i2cTransition_startHold hen hf)

/-! ## Cells (R225 to R228) -/

/-- What the engine drives in a cell: bits of the byte it sends, the released line where it receives; at the acknowledge
the released line where it sends, and where it receives low but for the last byte. -/
theorem driveLevel_eq (c : I2c) :
    driveLevel c =
      if c.cell.val < 8 then (if c.ph = .rx then true else c.sh.getLsbD (7 - c.cell.val))
      else if c.ph = .rx then decide (c.rem = 0) else true := by
  unfold driveLevel
  cases hph : c.ph <;> simp [msbFirst]

theorem countDown_of_ne_zero {n : BitVec 16} (h : n ≠ 0) : countDown n = n - 1 := if_neg h

/-- Settles O32: each place of a cell has one transition; what `T_SAMPLE` and `T_FALL` do depends on the cell and the kind
of byte. -/
theorem oneCell : Obligations.OneCell := by
  intro soc sda scl c hen
  refine ⟨fun hf => ?drive, fun hf => i2cTransition_cellRise hen hf, fun hf hscl => ?sample, fun hf => ?fall⟩
  case drive => rw [i2cTransition_cellDrive hen hf, tDrive, driveLevel_eq]
  case sample =>
    have hcell := c.cell.isLt
    have h8 : c.cell.val = 8 ↔ ¬ c.cell.val < 8 := by omega
    rw [hscl, i2cTransition_cellSample hen hf, tSample_eq, shiftIn_eq]
    simp only [h8, and_comm]
  case fall =>
    rw [i2cTransition_cellFall hen hf]
    rcases tFall_cases c with ⟨k, hk, hk', h⟩ | ⟨hk, hph, h⟩ | ⟨hk, hph, h⟩ | ⟨hk, hph, hack, h⟩ | ⟨hk, hno, h⟩ <;>
      rw [h]
    · refine ⟨fun _ => ⟨k, hk', rfl⟩, ?_, ?_, ?_, ?_⟩ <;> intros <;> omega
    · refine ⟨by omega, fun _ hne => absurd hph hne, fun _ _ hrem => ?_, by omega, by omega⟩
      rw [countDown_of_ne_zero hrem]
    · exact ⟨by omega, fun _ _ => rfl, fun _ he => absurd he hph, by omega, by omega⟩
    · refine ⟨by omega, by omega, by omega, fun _ _ _ hrem => ?_, fun _ hno => absurd ⟨hph, hack⟩ hno⟩
      rw [countDown_of_ne_zero hrem]
    · exact ⟨by omega, by omega, by omega, fun _ hph hack => absurd ⟨hph, hack⟩ hno, fun _ _ => rfl⟩

/-! ## Between bytes (R229 to R232) -/

section
variable {depth : Nat} {c : I2c}

theorem tNext_noAcknowledge (hph : c.ph ≠ .rx) (hnack : c.nack = true) : tNext depth c = some (raiseErr c) := by
  unfold tNext
  cases h : c.ph with
  | rx => exact absurd h hph
  | addr | tx => simp [hnack]

theorem tNext_finish (hack : c.ph ≠ .rx → c.nack = false) (hrem : c.rem = 0) :
    tNext depth c = some { c with fsm := .stopDrive } := by
  unfold tNext
  cases h : c.ph with
  | rx => simp [hrem]
  | addr | tx => simp [hack (by simp [h]), hrem]

theorem tNext_send (hph : c.ph = .tx ∨ (c.ph = .addr ∧ c.rd = false)) (hack : c.nack = false) (hrem : c.rem ≠ 0) :
    tNext depth c = loadByte c := by
  unfold tNext
  rcases hph with hph | ⟨hph, hrd⟩
  · simp only [hph, hack, if_neg hrem, Bool.false_eq_true, if_false]
  · simp only [hph, hrd, hack, if_neg hrem, Bool.false_eq_true, if_false]

theorem tNext_receive (hph : c.ph = .rx ∨ (c.ph = .addr ∧ c.rd = true ∧ c.nack = false)) (hrem : c.rem ≠ 0) :
    tNext depth c = openByte depth c := by
  unfold tNext
  rcases hph with hph | ⟨hph, hrd, hack⟩
  · simp only [hph, if_neg hrem]
  · simp only [hph, hrd, hack, if_neg hrem, Bool.false_eq_true, if_false, if_true]

theorem loadByte_cons {b : Byte} {q : List Byte} (h : c.txq = b :: q) :
    loadByte c = some { c with sh := b, txq := q, ph := .tx, cell := 0, fsm := .cellDrive } := by
  unfold loadByte; rw [h]

theorem loadByte_nil (h : c.txq = []) : loadByte c = none := by
  unfold loadByte; rw [h]

theorem openByte_room (h : c.rxq.length < depth) :
    openByte depth c = some { c with sh := 0, ph := .rx, cell := 0, fsm := .cellDrive } := if_pos h

theorem openByte_full (h : depth ≤ c.rxq.length) : openByte depth c = none := if_neg h.not_gt

variable {soc : Soc} {sda scl : Bool} (hen : c.i2cen = true) (hf : c.fsm = .byteNext)
include hen hf

theorem i2cTransition_send {b : Byte} {q : List Byte} (hph : c.ph = .tx ∨ (c.ph = .addr ∧ c.rd = false))
    (hack : c.nack = false) (hrem : c.rem ≠ 0) (hq : c.txq = b :: q) : i2cTransition soc sda scl c =
      some { c with sh := b, txq := q, ph := .tx, cell := 0, fsm := .cellDrive } := by
  rw [i2cTransition_byteNext hen hf, tNext_send hph hack hrem, loadByte_cons hq]

theorem i2cTransition_receive (hph : c.ph = .rx ∨ (c.ph = .addr ∧ c.rd = true ∧ c.nack = false)) (hrem : c.rem ≠ 0)
    (hroom : c.rxq.length < soc.i2cFifoDepth) : i2cTransition soc sda scl c =
      some { c with sh := 0, ph := .rx, cell := 0, fsm := .cellDrive } := by
  rw [i2cTransition_byteNext hen hf, tNext_receive hph hrem, openByte_room hroom]

theorem i2cTransition_finish (hack : c.ph ≠ .rx → c.nack = false) (hrem : c.rem = 0) :
    i2cTransition soc sda scl c = some { c with fsm := .stopDrive } := by
  rw [i2cTransition_byteNext hen hf, tNext_finish hack hrem]

end

/-- Settles O33: `T_NEXT` first looks at the acknowledge, then at what is left, then at the queue. -/
theorem betweenBytes : Obligations.BetweenBytes := by
  intro soc sda scl c hen hf error finish send receive
  refine ⟨fun hph hnack => (i2cTransition_byteNext hen hf).trans (tNext_noAcknowledge hph hnack),
    fun hph hack hrem => i2cTransition_finish hen hf (fun _ => hack) hrem,
    fun hph hrem => i2cTransition_finish hen hf (fun h => absurd hph h) hrem,
    fun hph hack hrem => ⟨fun b q hq => i2cTransition_send hen hf hph hack hrem hq, fun hq => ?noByte⟩,
    fun hph hrem => ⟨fun hroom => i2cTransition_receive hen hf hph hrem hroom, fun hfull => ?noRoom⟩⟩
  case noByte => rw [i2cTransition_byteNext hen hf, tNext_send hph hack hrem, loadByte_nil hq]
  case noRoom => rw [i2cTransition_byteNext hen hf, tNext_receive hph hrem, openByte_full hfull]

/-- A stall before a byte to send is one on an empty queue. -/
theorem tNext_send_stalls {depth : Nat} {c : I2c} (hph : c.ph = .tx ∨ (c.ph = .addr ∧ c.rd = false)) (hrem : c.rem ≠ 0)
    (h : tNext depth c = none) : c.nack = false ∧ c.txq = [] := by
  have hrx : c.ph ≠ .rx := by rcases hph with hph | ⟨hph, -⟩ <;> simp [hph]
  cases hack : c.nack with
  | true => rw [tNext_noAcknowledge hrx hack] at h; cases h
  | false =>
    rw [tNext_send hph hack hrem] at h
    cases hq : c.txq with
    | nil => exact ⟨rfl, rfl⟩
    | cons b q => rw [loadByte_cons hq] at h; cases h

/-- A stall before a byte to receive is one on a full queue. -/
theorem tNext_receive_stalls {depth : Nat} {c : I2c} (hph : c.ph = .rx ∨ (c.ph = .addr ∧ c.rd = true)) (hrem : c.rem ≠ 0)
    (h : tNext depth c = none) : (c.ph = .rx ∨ (c.ph = .addr ∧ c.rd = true ∧ c.nack = false)) ∧ depth ≤ c.rxq.length := by
  have hph' : c.ph = .rx ∨ (c.ph = .addr ∧ c.rd = true ∧ c.nack = false) := by
    rcases hph with hph | ⟨hph, hrd⟩
    · exact .inl hph
    · cases hack : c.nack with
      | true => rw [tNext_noAcknowledge (by simp [hph]) hack] at h; cases h
      | false => exact .inr ⟨hph, hrd, rfl⟩
  refine ⟨hph', not_lt.1 fun hroom => ?_⟩
  rw [tNext_receive hph' hrem, openByte_room hroom] at h
  cases h

/-- A write of the FIFO with room queues its low byte (42_i2c_registers.md R192). -/
theorem execWrI2cFifo_room {w : Word} {s : State} (h : s.i2c.txq.length ≠ s.soc.i2cFifoDepth) :
    execWrI2cFifo w s = .next (s.setI2c { s.i2c with txq := pushByte s.i2c.txq (byteOf w) }) := if_neg h

/-- A read of the FIFO with a byte in it takes the head (42_i2c_registers.md R193). -/
theorem execRdI2cFifo_cons {s : State} {b : Byte} {q : List Byte} (h : s.i2c.rxq = b :: q) :
    execRdI2cFifo s = .next ((s.setI2c { s.i2c with rxq := q }).setRdata (b.setWidth 32)) := by
  unfold execRdI2cFifo; rw [h]; rfl

/-- Settles O34: the stall was on an empty queue, which now holds the byte written, or on a full one, which now has room
for a byte. -/
theorem fifoAccessLiftsTheStall : Obligations.FifoAccessLiftsTheStall := by
  intro sda scl w s hen hf hrem hdepth hstall hfit
  rw [i2cTransition_byteNext hen hf] at hstall
  refine ⟨fun hph => ?sends, fun hph => ?receives⟩
  case sends =>
    obtain ⟨hack, hq⟩ := tNext_send_stalls hph hrem hstall
    have hmove := i2cTransition_send (soc := s.soc) (sda := sda) (scl := scl)
      (c := { s.i2c with txq := pushByte s.i2c.txq (byteOf w) }) (b := byteOf w) (q := []) hen hf hph hack hrem
      (by simp [hq, pushByte])
    exact ⟨_, execWrI2cFifo_room (by rw [hq]; exact hdepth.ne), _, hmove, rfl, rfl⟩
  case receives =>
    obtain ⟨hph', hfull⟩ := tNext_receive_stalls hph hrem hstall
    obtain ⟨-, hrx⟩ := hfit
    cases hq : s.i2c.rxq with
    | nil => rw [hq] at hfull; exact absurd hfull hdepth.not_ge
    | cons b q =>
      rw [hq] at hrx
      have hmove := i2cTransition_receive (soc := s.soc) (sda := sda) (scl := scl) (c := { s.i2c with rxq := q })
        hen hf hph' hrem (Nat.lt_of_succ_le hrx)
      exact ⟨_, execRdI2cFifo_cons hq, _, hmove, rfl, rfl⟩

/-! ## STOP (R234 to R237) -/

/-- Settles O35: each place of STOP has one transition. -/
theorem stopSequence : Obligations.StopSequence := by
  intro soc sda scl c hen
  refine ⟨fun hf => i2cTransition_stopDrive hen hf, fun hf => i2cTransition_stopRise hen hf, fun hf hscl => ?release⟩
  case release => rw [hscl]; exact i2cTransition_stopWait hen hf

/-- The four transitions that end a frame after a missing acknowledge. -/
theorem i2cRun_noAcknowledge {soc : Soc} {c : I2c} (a₁ a₂ a₃ : Bool × Bool) (sda : Bool) (hen : c.i2cen = true)
    (hf : c.fsm = .byteNext) (hph : c.ph ≠ .rx) (hnack : c.nack = true) :
    i2cRun soc [a₁, a₂, a₃, (sda, true)] c =
      some { c with err := true, done := true, fsm := .idle, mSda := true, mScl := true, stretch := 0 } := by
  obtain ⟨x₁, y₁⟩ := a₁
  obtain ⟨x₂, y₂⟩ := a₂
  obtain ⟨x₃, y₃⟩ := a₃
  have hnext : i2cTransition soc x₁ y₁ c = some (raiseErr c) :=
    (i2cTransition_byteNext hen hf).trans (tNext_noAcknowledge hph hnack)
  rw [i2cRun_cons hnext, i2cRun_cons (i2cTransition_stopDrive (by exact hen) rfl),
    i2cRun_cons (i2cTransition_stopRise (by exact hen) rfl), i2cRun_cons (i2cTransition_stopWait (by exact hen) rfl),
    i2cRun_nil]
  rfl

/-- Settles O42: the decision after the byte, and the three transitions of STOP. -/
theorem missingAcknowledgeEndsWithStop : Obligations.MissingAcknowledgeEndsWithStop :=
  fun _ _ a₁ a₂ a₃ sda hen hf hph hnack => i2cRun_noAcknowledge a₁ a₂ a₃ sda hen hf hph hnack

/-! ## Clock stretching (R240, R241) -/

/-- Settles O36: the count is `T_STRETCH`'s, and the timeout is looked at on the count reached. -/
theorem stretchCountsAndTimesOut : Obligations.StretchCountsAndTimesOut := by
  intro soc sda c hen hf
  rw [i2cTransition_stretch hen hf, tStretch]
  refine ⟨countStretch c.stretch, countStretch_toNat c.stretch, fun hbelow => ?counts, fun hne hreached => ?aborts⟩
  case counts =>
    have hno : ¬ (c.tout ≠ 0 ∧ c.tout ≤ countStretch c.stretch) := by
      rintro ⟨hne, hle⟩
      exact (hbelow.resolve_left hne).not_ge (BitVec.le_def.1 hle)
    simp only [if_neg hno]
  case aborts =>
    simp only [if_pos (⟨hne, BitVec.le_def.2 hreached⟩ : c.tout ≠ 0 ∧ c.tout ≤ countStretch c.stretch), raiseClkt]

end Sys2Proof.Machine
end

section
/-! Whole frames of the I2C engine with the clock never stretched: a write frame that is acknowledged throughout, and a
frame that no slave answers (43_i2c_engine.md R239, R247). -/

namespace Sys2Proof.Machine

variable {soc : Soc}

/-! ## The beginning and the end of a frame -/

/-- The block when its first cell begins: START made, the clock pulled low, the address byte to send. -/
def started (soc : Soc) (c : I2c) : I2c := tStartHold (tStart soc.i2cDoneAutoclear c)

theorem i2cRun_start {c : I2c} (hen : c.i2cen = true) (hf : c.fsm = .idle) (hp : c.stPend = true) (a : Bool × Bool) :
    i2cRun soc [(true, true), a] c = some (started soc c) := by
  obtain ⟨x, y⟩ := a
  rw [i2cRun_cons (i2cTransition_idle hen hf hp), i2cRun_cons (i2cTransition_startHold (by exact hen) rfl), i2cRun_nil,
    started]

/-- After the last byte: the decision to stop, and the three transitions of STOP. -/
theorem i2cRun_finish {c : I2c} (hen : c.i2cen = true) (hf : c.fsm = .byteNext) (hack : c.nack = false)
    (hrem : c.rem = 0) (a₁ a₂ a₃ : Bool × Bool) (sda : Bool) :
    i2cRun soc [a₁, a₂, a₃, (sda, true)] c =
      some { c with done := true, fsm := .idle, mSda := true, mScl := true, stretch := 0 } := by
  obtain ⟨x₁, y₁⟩ := a₁
  obtain ⟨x₂, y₂⟩ := a₂
  obtain ⟨x₃, y₃⟩ := a₃
  rw [i2cRun_cons (i2cTransition_finish hen hf (fun _ => hack) hrem),
    i2cRun_cons (i2cTransition_stopDrive (by exact hen) rfl), i2cRun_cons (i2cTransition_stopRise (by exact hen) rfl),
    i2cRun_cons (i2cTransition_stopWait (by exact hen) rfl), i2cRun_nil]
  rfl

/-- Four levels, of which the last is known. -/
theorem eq_four_of_getElem? {α : Type} {l : List α} {a : α} (hl : l.length = 4) (h : l[3]? = some a) :
    ∃ a₁ a₂ a₃, l = [a₁, a₂, a₃, a] := by
  match l, hl with
  | [a₁, a₂, a₃, b], _ => cases h; exact ⟨a₁, a₂, a₃, rfl⟩

/-- A list of at least two levels whose first has both lines high. -/
theorem eq_cons_cons_of_getElem? {l : List (Bool × Bool)} {n : Nat} (hl : l.length = n + 2) (h : l[0]? = some (true, true)) :
    ∃ a m, l = (true, true) :: a :: m ∧ m.length = n := by
  match l, hl with
  | p :: a :: m, hl => cases h; exact ⟨a, m, rfl, by simpa using hl⟩

/-! ## No slave (R239) -/

/-- The block after the address byte, with the level sampled at its acknowledge. -/
def addressSent (soc : Soc) (c : I2c) (ack : Bool) : I2c :=
  { started soc c with mSda := true, mScl := false, stretch := 0, nack := ack, cell := 8, fsm := .byteNext }

theorem i2cRun_addressByte {c : I2c} {l : List (Bool × Bool)} {ack : Bool} (hen : c.i2cen = true) (hl : l.length = 36)
    (hs : ∀ k, k < 9 → ∃ sda, l[4 * k + 2]? = some (sda, true)) (hack : l[34]? = some (ack, true)) :
    i2cRun soc l (started soc c) = some (addressSent soc c ack) := by
  refine (i2cRun_sendByte l ack (started soc c) hen rfl nofun rfl hl hs hack).trans ?_
  have hph : ¬ ((started soc c).ph = .tx ∧ ack = false) := nofun
  rw [if_neg hph, addressSent]

/-- START, the address byte with its acknowledge high, and the end of a frame after a missing acknowledge. -/
theorem i2cRun_absentSlave {c : I2c} {m : List (Bool × Bool)} (a : Bool × Bool) {sda : Bool} (hen : c.i2cen = true)
    (hf : c.fsm = .idle) (hp : c.stPend = true) (hm : m.length = 40)
    (hs : ∀ k, k < 9 → ∃ sda, m[4 * k + 2]? = some (sda, true)) (hack : m[34]? = some (true, true))
    (hlast : m[39]? = some (sda, true)) :
    i2cRun soc ((true, true) :: a :: m) c = some { addressSent soc c true with
      err := true, done := true, fsm := .idle, mSda := true, mScl := true, stretch := 0 } := by
  have hbyte := i2cRun_addressByte (soc := soc) (l := m.take 36) (ack := true) hen (by simp [hm])
    (fun k hk => by rw [List.getElem?_take_of_lt (by omega)]; exact hs k hk)
    (by rw [List.getElem?_take_of_lt (by omega)]; exact hack)
  obtain ⟨a₁, a₂, a₃, hstop⟩ := eq_four_of_getElem? (l := m.drop 36) (a := (sda, true)) (by simp [hm])
    (by simpa using hlast)
  rw [show (true, true) :: a :: m = [(true, true), a] ++ (m.take 36 ++ m.drop 36) by simp, i2cRun_append,
    i2cRun_start hen hf hp, Option.bind_some, i2cRun_append, hbyte, Option.bind_some, hstop]
  exact i2cRun_noAcknowledge a₁ a₂ a₃ sda hen rfl nofun rfl

/-- Settles O44: the frame's run, and the fields of the block it ends in. -/
theorem absentSlaveFrame : Obligations.AbsentSlaveFrame := by
  intro soc c l hf hen hp hl h0 hs hend
  obtain ⟨a, m, rfl, hm⟩ := eq_cons_cons_of_getElem? (n := 40) hl h0
  have hsample : ∀ k, k < 9 → ∃ sda, m[4 * k + 2]? = some (sda, true) ∧ (k = 8 → sda = true) := fun k hk => by
    simpa [show 2 + 4 * k + 2 = 4 * k + 2 + 1 + 1 by omega] using hs k hk
  obtain ⟨ack, hack, hhigh⟩ := hsample 8 (by omega)
  rw [hhigh rfl] at hack
  obtain ⟨sda, hlast⟩ := hend
  exact ⟨_, i2cRun_absentSlave a hen hf hp hm (fun k hk => (hsample k hk).imp fun _ ⟨h, _⟩ => h) hack hlast,
    rfl, rfl, rfl, rfl, rfl, rfl, rfl, rfl, rfl, rfl, hen⟩

/-! ## A write frame acknowledged throughout (R247) -/

/-- The levels a frame sees from its first cell on, with `n` bytes after the one that begins: the clock high at every
sample and when STOP waits for it, the data line low at every acknowledge. -/
structure Acknowledged (n : Nat) (m : List (Bool × Bool)) : Prop where
  length : m.length = 37 * (n + 1) + 3
  sample : ∀ j k, j ≤ n → k < 9 → ∃ sda, m[37 * j + 4 * k + 2]? = some (sda, true) ∧ (k = 8 → sda = false)
  last : ∃ sda, m[37 * (n + 1) + 2]? = some (sda, true)

theorem Acknowledged.tail {n : Nat} {m : List (Bool × Bool)} (h : Acknowledged (n + 1) m) :
    Acknowledged n (m.drop 37) where
  length := by rw [List.length_drop, h.length]; omega
  sample j k hj hk := by
    simpa [show 37 + (37 * j + 4 * k + 2) = 37 * (j + 1) + 4 * k + 2 by omega] using h.sample (j + 1) k (by omega) hk
  last := by
    simpa [show 37 + (37 * (n + 1) + 2) = 37 * (n + 1 + 1) + 2 by omega] using h.last

/-- The levels of the byte that begins. -/
theorem Acknowledged.byte {n : Nat} {m : List (Bool × Bool)} (h : Acknowledged n m) :
    (m.take 36).length = 36 ∧ (∀ k, k < 9 → ∃ sda, (m.take 36)[4 * k + 2]? = some (sda, true)) ∧
      (m.take 36)[34]? = some (false, true) := by
  have hsample : ∀ k, k < 9 → ∃ sda, (m.take 36)[4 * k + 2]? = some (sda, true) ∧ (k = 8 → sda = false) := by
    intro k hk
    rw [List.getElem?_take_of_lt (by omega)]
    simpa using h.sample 0 k (by omega) hk
  obtain ⟨ack, hack, hlow⟩ := hsample 8 (by omega)
  rw [hlow rfl] at hack
  exact ⟨by rw [List.length_take, h.length]; omega, fun k hk => (hsample k hk).imp fun _ ⟨h, _⟩ => h, hack⟩

/-- The block at the first cell of a byte of a write frame, with the bytes `q` to follow it: a data byte is still counted
in `rem`, the address byte is not. -/
structure SendsByte (c : I2c) (q : List Byte) : Prop where
  enabled : c.i2cen = true
  place : c.fsm = .cellDrive
  sends : c.ph ≠ .rx
  writes : c.rd = false
  cell : c.cell = 0
  queue : c.txq = q
  rem : c.rem.toNat = q.length + if c.ph = .tx then 1 else 0

/-- The block after the byte was sent and acknowledged. -/
def byteAcknowledged (c : I2c) : I2c :=
  { c with
    mSda := true, mScl := false, stretch := 0, nack := false, cell := 8, fsm := .byteNext
    rem := if c.ph = .tx then countDown c.rem else c.rem }

/-- The block at the first cell of the next byte, which is `b`, with the bytes `q` to follow it. -/
def nextByte (b : Byte) (q : List Byte) (c : I2c) : I2c :=
  { byteAcknowledged c with sh := b, txq := q, ph := .tx, cell := 0, fsm := .cellDrive }

section
variable {c : I2c} {q : List Byte} {n : Nat} {m : List (Bool × Bool)}

theorem SendsByte.run_byte (h : SendsByte c q) (hm : Acknowledged n m) :
    i2cRun soc (m.take 36) c = some (byteAcknowledged c) := by
  obtain ⟨hl, hs, hack⟩ := hm.byte
  rw [i2cRun_sendByte _ false c h.enabled h.place h.sends h.cell hl hs hack, byteAcknowledged]
  simp only [and_true]

theorem SendsByte.rem_acknowledged (h : SendsByte c q) : (byteAcknowledged c).rem.toNat = q.length := by
  have hrem := h.rem
  unfold byteAcknowledged
  by_cases hph : c.ph = .tx
  · rw [if_pos hph] at hrem
    simp only [if_pos hph, countDown_toNat, hrem, Nat.add_sub_cancel]
  · rw [if_neg hph] at hrem
    simp only [if_neg hph, hrem, Nat.add_zero]

/-- A byte of the frame is an address byte of a write, or a data byte. -/
theorem SendsByte.kind (h : SendsByte c q) : c.ph = .tx ∨ (c.ph = .addr ∧ c.rd = false) := by
  cases hph : c.ph with
  | addr => exact .inr ⟨rfl, h.writes⟩
  | tx => exact .inl rfl
  | rx => exact absurd hph h.sends

/-- The byte and the step to the next one. -/
theorem SendsByte.run_next {b : Byte} (h : SendsByte c (b :: q)) (hm : Acknowledged n m) :
    i2cRun soc (m.take 37) c = some (nextByte b q c) := by
  have hrem : (byteAcknowledged c).rem ≠ 0 := by
    intro e
    have := h.rem_acknowledged
    rw [e] at this
    cases this
  have hlt : 36 < m.length := by rw [hm.length]; omega
  rw [List.take_add_one, i2cRun_append, h.run_byte hm, Option.bind_some, List.getElem?_eq_getElem hlt]
  exact i2cRun_cons (i2cTransition_send (c := byteAcknowledged c) h.enabled rfl h.kind rfl hrem h.queue)

theorem SendsByte.next {b : Byte} (h : SendsByte c (b :: q)) : SendsByte (nextByte b q c) q where
  enabled := h.enabled
  place := rfl
  sends := nofun
  writes := h.writes
  cell := rfl
  queue := rfl
  rem := h.rem_acknowledged

/-- Nothing is left after the last byte. -/
theorem SendsByte.acknowledged_last (h : SendsByte c []) : byteAcknowledged c = { c with
    mSda := true, mScl := false, stretch := 0, nack := false, cell := 8, fsm := .byteNext, txq := [], rem := 0 } := by
  have hrem : (if c.ph = .tx then countDown c.rem else c.rem) = 0 := BitVec.eq_of_toNat_eq h.rem_acknowledged
  simp only [byteAcknowledged, hrem, h.queue]

/-- The last byte and the end of the frame. -/
theorem SendsByte.run_last (h : SendsByte c []) (hm : Acknowledged 0 m) : i2cRun soc m c = some { c with
    done := true, fsm := .idle, mSda := true, mScl := true, txq := [], rem := 0, stretch := 0, nack := false,
    cell := 8 } := by
  obtain ⟨sda, hlast⟩ := hm.last
  obtain ⟨a₁, a₂, a₃, hstop⟩ := eq_four_of_getElem? (l := m.drop 36) (a := (sda, true))
    (by rw [List.length_drop, hm.length]) (by simpa using hlast)
  rw [← List.take_append_drop 36 m, i2cRun_append, h.run_byte hm, Option.bind_some, hstop, h.acknowledged_last]
  exact i2cRun_finish (by exact h.enabled) rfl rfl rfl a₁ a₂ a₃ sda

/-- What the engine drives at the samples of the byte that begins. -/
theorem SendsByte.at_sample (h : SendsByte c q) (hm : Acknowledged n m) {k : Nat} (hk : k < 9) :
    ∃ c' : I2c, i2cRun soc (m.take (4 * k + 2)) c = some c' ∧ c'.fsm = .cellSample ∧ c'.mScl = true ∧
      c'.mSda = if k = 8 then true else c.sh.getLsbD (7 - k) := by
  obtain ⟨hl, hs, -⟩ := hm.byte
  obtain ⟨c', hrun, hf, hscl, hsda⟩ := i2cRun_atSample (soc := soc) (m.take 36) c h.enabled h.place h.sends h.cell hl hs k hk
  rw [List.take_take, Nat.min_eq_left (by omega)] at hrun
  refine ⟨c', hrun, hf, hscl, hsda.trans ?_⟩
  by_cases h8 : k = 8
  · rw [if_pos h8, if_neg (by omega)]
  · rw [if_neg h8, if_pos (by omega), msbFirst]

/-- At the samples of every byte of the frame, `q` being the bytes after the one that begins. -/
theorem SendsByte.at_samples (h : SendsByte c q) (hm : Acknowledged q.length m) {j k : Nat} {b : Byte}
    (hb : (c.sh :: q)[j]? = some b) (hk : k < 9) :
    ∃ c' : I2c, i2cRun soc (m.take (37 * j + 4 * k + 2)) c = some c' ∧ c'.fsm = .cellSample ∧ c'.mScl = true ∧
      c'.mSda = if k = 8 then true else b.getLsbD (7 - k) := by
  induction q generalizing c m j with
  | nil =>
    match j with
    | 0 => cases hb; simpa using h.at_sample hm hk
    | j + 1 => cases hb
  | cons b' q ih =>
    match j with
    | 0 => cases hb; simpa using h.at_sample hm hk
    | j + 1 =>
      rw [show 37 * (j + 1) + 4 * k + 2 = 37 + (37 * j + 4 * k + 2) by omega, List.take_add, i2cRun_append,
        h.run_next hm, Option.bind_some]
      exact ih h.next hm.tail hb

/-- The frame from its first cell on ends idle, with `DONE` set and every byte sent; the values left in the engine's own
variables are not said. -/
theorem SendsByte.run_frame (h : SendsByte c q) (hm : Acknowledged q.length m) :
    ∃ c' : I2c, i2cRun soc m c = some c' ∧ c' = { c with
      done := true, fsm := .idle, mSda := true, mScl := true, txq := [], rem := 0, stretch := c'.stretch, ph := c'.ph,
      cell := c'.cell, sh := c'.sh, nack := c'.nack } := by
  induction q generalizing c m with
  | nil => exact ⟨_, h.run_last hm, rfl⟩
  | cons b q ih =>
    obtain ⟨c', hrun, hc'⟩ := ih h.next hm.tail
    refine ⟨c', ?_, hc'⟩
    rw [← List.take_append_drop 37 m, i2cRun_append, h.run_next hm, Option.bind_some]
    exact hrun

end

/-- The block at the first cell of the address byte. -/
theorem sendsByte_started {c : I2c} (hen : c.i2cen = true) (hread : c.read = false)
    (hlen : c.dlen.toNat = c.txq.length) : SendsByte (started soc c) c.txq where
  enabled := hen
  place := rfl
  sends := nofun
  writes := hread
  cell := rfl
  queue := rfl
  rem := hlen

/-- The address byte of a write ends in 0. -/
theorem sh_started {c : I2c} (hread : c.read = false) : (started soc c).sh = c.addr ++ 0#1 := by
  show c.addr.concat c.read = _
  rw [hread]
  rfl

/-- Settles O43: START, then the frame from the first cell of the address byte on. -/
theorem writeFrameRunsToItsEnd : Obligations.WriteFrameRunsToItsEnd := by
  intro soc c l hf hen hp hread hlen hl h0 hs hend
  obtain ⟨a, m, rfl, hm⟩ := eq_cons_cons_of_getElem? (n := 37 * (c.txq.length + 1) + 3) (by omega) h0
  have hstart : SendsByte (started soc c) c.txq := sendsByte_started hen hread hlen
  have hack : Acknowledged c.txq.length m := by
    refine ⟨hm, fun j k hj hk => ?_, ?_⟩
    · simpa [show 2 + 37 * j + 4 * k + 2 = 37 * j + 4 * k + 2 + 1 + 1 by omega] using hs j k hj hk
    · simpa [show 4 + 37 * (c.txq.length + 1) = 37 * (c.txq.length + 1) + 2 + 1 + 1 by omega] using hend
  have hrun : ∀ m', i2cRun soc ((true, true) :: a :: m') c = i2cRun soc m' (started soc c) := fun m' => by
    rw [show (true, true) :: a :: m' = [(true, true), a] ++ m' from rfl, i2cRun_append, i2cRun_start hen hf hp,
      Option.bind_some]
  refine ⟨fun j k b hb hk => ?samples, ?frame⟩
  case samples =>
    rw [show 2 + 37 * j + 4 * k + 2 = 37 * j + 4 * k + 2 + 1 + 1 by omega, List.take_succ_cons, List.take_succ_cons, hrun]
    exact hstart.at_samples hack (by rw [sh_started hread]; exact hb) hk
  case frame =>
    obtain ⟨c', hframe, hc'⟩ := hstart.run_frame (soc := soc) hack
    refine ⟨c', (hrun m).trans hframe, ?_⟩
    rw [hc']
    exact ⟨rfl, rfl, rfl, rfl, rfl, rfl, rfl, rfl, rfl, rfl, hen, hread, rfl, rfl, rfl, rfl, rfl, rfl⟩

end Sys2Proof.Machine
end

section
/-! The SPI engine: each transition as its rule writes it, a whole byte in any clock mode, and what the engine may write
(45_spi.md R310 to R323). -/

namespace Sys2Proof.Machine

/-! ## The transitions (R313 to R318) -/

/-- Settles O45: `T_LOAD` is the idle engine's one transition, and its guard is the one stated. -/
theorem spiLoadGate : Obligations.SpiLoadGate := by
  intro soc din c hf
  rw [spiTransition_idle hf]
  refine ⟨fun b q hta hq hroom => ?loads, fun hno => ?waits⟩
  case loads => rw [tLoad, if_pos ⟨hta, hroom⟩, hq]
  case waits =>
    rw [Option.eq_none_iff_forall_ne_some]
    intro c' h
    obtain ⟨hta, hroom, b, q, hq, -⟩ := tLoad_cases h
    rcases hno with hta' | hq' | hfull
    · cases hta'.symm.trans hta
    · cases hq'.symm.trans hq
    · exact hfull.not_gt hroom

/-- The index of the next bit; the last stays (R317). -/
def nextSbit (i : Fin 8) : Fin 8 := ⟨min (i.val + 1) 7, by omega⟩

@[simp] theorem nextSbit_val (i : Fin 8) : (nextSbit i).val = min (i.val + 1) 7 := rfl

theorem tTrail_eq (din : Bool) (c : Spi) : tTrail din c = { c with
    sfsm := if c.sbit.val < 7 then .setup else .store
    sbit := nextSbit c.sbit
    sclk := c.cpol
    srx := if c.cpha then shiftIn c.srx din else c.srx } := by
  rcases tTrail_cases din c with ⟨k, hlt, hk, h⟩ | ⟨h7, h⟩ <;> rw [h]
  · have hnext : nextSbit c.sbit = k := Fin.ext (by rw [nextSbit_val, hk]; omega)
    rw [if_pos hlt, hnext]
  · have hnext : nextSbit c.sbit = c.sbit := Fin.ext (by rw [nextSbit_val]; omega)
    have hlast : ¬ c.sbit.val < 7 := by omega
    rw [if_neg hlast, hnext]

/-- Settles O46: each place of the engine has one transition, in both clock phases. -/
theorem spiOneBit : Obligations.SpiOneBit := by
  intro soc din c bit sampled
  have hsampled : shiftIn c.srx din = sampled := shiftIn_eq c.srx din
  refine ⟨fun hf => ?setup, fun hf => ?lead, fun hf => ⟨nextSbit c.sbit, rfl, ?trail⟩, fun hf => spiTransition_store hf⟩
  case setup => rw [spiTransition_setup hf, tSetup_eq]; rfl
  case lead => rw [spiTransition_lead hf, tLead_eq, hsampled]; rfl
  case trail => rw [spiTransition_trail hf, tTrail_eq, hsampled]

/-! ## One bit in three transitions -/

section
variable {soc : Soc} {c : Spi}

/-- Up to the sampling edge of a bit: its level stands on the output line. -/
theorem spiRun_toEdge (hf : c.sfsm = .setup) (d₀ d₁ : Bool) :
    ∃ c', spiRun soc (if c.cpha then [d₀, d₁] else [d₀]) c = some c' ∧ c'.mosi = msbFirst c.ssh c.sbit.val ∧
      c'.sfsm = if c.cpha then .trail else .lead := by
  cases hcpha : c.cpha with
  | false =>
    refine ⟨tSetup c, spiRun_cons (spiTransition_setup hf), ?_, ?_⟩ <;> rw [tSetup_eq] <;> simp [hcpha]
  | true =>
    refine ⟨tLead d₁ (tSetup c), ?_, ?_, ?_⟩
    · exact (spiRun_cons (spiTransition_setup hf)).trans (spiRun_cons (spiTransition_lead (by rw [tSetup_eq])))
    all_goals rw [tLead_eq, tSetup_eq]; simp [hcpha]

/-- A bit driven and sampled: the clock line rests again. -/
theorem spiRun_bit (hf : c.sfsm = .setup) (d₀ d₁ d₂ : Bool) : spiRun soc [d₀, d₁, d₂] c = some { c with
    sfsm := if c.sbit.val < 7 then .setup else .store
    sbit := nextSbit c.sbit
    sclk := c.cpol
    mosi := msbFirst c.ssh c.sbit.val
    srx := shiftIn c.srx (if c.cpha then d₂ else d₁) } := by
  rw [spiRun_cons (spiTransition_setup hf), spiRun_cons (spiTransition_lead (by rw [tSetup_eq])),
    spiRun_cons (spiTransition_trail (by rw [tLead_eq])), spiRun_nil, tTrail_eq, tLead_eq, tSetup_eq]
  cases c.cpha <;> rfl

end

/-! ## A whole byte (R316, R322) -/

/-- The `n` most significant bits of a byte, as they stand when they have been shifted in. -/
def topBits (b : Byte) (n : Nat) : Byte := b >>> (8 - n)

theorem topBits_zero (b : Byte) : topBits b 0 = 0 := BitVec.ushiftRight_eq_zero (Nat.le_refl 8)

theorem topBits_eight (b : Byte) : topBits b 8 = b := BitVec.ushiftRight_zero b

theorem shiftIn_topBits (b : Byte) {n : Nat} (hn : n < 8) : shiftIn (topBits b n) (b.getLsbD (7 - n)) = topBits b (n + 1) := by
  rw [shiftIn_eq, topBits, topBits]
  apply BitVec.eq_of_getLsbD_eq
  intro i hi
  by_cases h0 : i = 0
  · subst h0
    simp [show 8 - (n + 1) = 7 - n by omega]
  · have hshift : 8 - n + (i - 1) = 8 - (n + 1) + i := by omega
    simp [hi, h0, hshift]

/-- The block after `n` bits of the byte `b`, with the bits of `answer` received. -/
def bitsDone (c : Spi) (b answer : Byte) (q : List Byte) (n : Nat) : Spi :=
  { c with
    ssh := b
    txq := q
    srx := topBits answer n
    sbit := ⟨min n 7, by omega⟩
    sfsm := if n < 8 then .setup else .store
    mosi := if n = 0 then c.mosi else msbFirst b (n - 1)
    sclk := if n = 0 then c.sclk else c.cpol }

/-- One bit more. -/
theorem spiRun_bitsDone {soc : Soc} (c : Spi) (b answer : Byte) (q : List Byte) {n : Nat} (hn : n < 8) (d₀ d₁ d₂ : Bool)
    (hd : (if c.cpha then d₂ else d₁) = answer.getLsbD (7 - n)) :
    spiRun soc [d₀, d₁, d₂] (bitsDone c b answer q n) = some (bitsDone c b answer q (n + 1)) := by
  rw [spiRun_bit (by simp [bitsDone, hn])]
  have hmin : min n 7 = n := by omega
  have hlt : (n < 7) = (n + 1 < 8) := by simp only [Nat.succ_lt_succ_iff]
  have hbit : nextSbit ⟨n, hn⟩ = ⟨min (n + 1) 7, by omega⟩ := rfl
  simp only [bitsDone, hd, shiftIn_topBits answer hn, hmin, hlt, hbit, Nat.add_one_ne_zero, if_false, Nat.add_sub_cancel]

/-- The next level, the next two, the next three. -/
theorem take_levels {l : List Bool} {n : Nat} (h : n + 3 ≤ l.length) : ∃ d₀ d₁ d₂,
    l[n + 1]? = some d₁ ∧ l[n + 2]? = some d₂ ∧ l.take (n + 1) = l.take n ++ [d₀] ∧
      l.take (n + 2) = l.take n ++ [d₀, d₁] ∧ l.take (n + 3) = l.take n ++ [d₀, d₁, d₂] := by
  have ext : ∀ i (hi : i < l.length), l.take (i + 1) = l.take i ++ [l[i]] := fun i hi => by
    rw [List.take_add_one, List.getElem?_eq_getElem hi]; rfl
  refine ⟨l[n], l[n + 1], l[n + 2], List.getElem?_eq_getElem _, List.getElem?_eq_getElem _, ext n (by omega), ?_, ?_⟩
  · rw [ext (n + 1) (by omega), ext n (by omega), List.append_assoc]; rfl
  · rw [ext (n + 2) (by omega), ext (n + 1) (by omega), ext n (by omega), List.append_assoc, List.append_assoc]; rfl

section
variable {soc : Soc} {c : Spi} {b answer : Byte} {q : List Byte} {din : List Bool} (hf : c.sfsm = .idle)
  (hta : c.ta = true) (hq : c.txq = b :: q) (hroom : c.rxq.length < soc.spiFifoDepth) (hl : din.length = 26)
  (hd : ∀ k : Nat, k < 8 → din[3 * k + (if c.cpha then 3 else 2)]? = some (answer.getLsbD (7 - k)))
include hf hta hq hroom hl hd

/-- `T_LOAD` and the first `n` bits. -/
theorem spiRun_bits {n : Nat} (hn : n ≤ 8) : spiRun soc (din.take (3 * n + 1)) c = some (bitsDone c b answer q n) := by
  induction n with
  | zero =>
    obtain ⟨d₀, -, -, -, -, htake, -⟩ := take_levels (l := din) (n := 0) (by omega)
    rw [htake]
    refine spiRun_cons ?_
    rw [spiTransition_idle hf, tLoad, if_pos ⟨hta, hroom⟩, hq, bitsDone, topBits_zero]
    rfl
  | succ n ih =>
    obtain ⟨d₀, d₁, d₂, h₁, h₂, -, -, htake⟩ := take_levels (l := din) (n := 3 * n + 1) (by omega)
    have hsampled : (if c.cpha then d₂ else d₁) = answer.getLsbD (7 - n) := by
      have h := hd n (by omega)
      cases hcpha : c.cpha with
      | true => rw [hcpha] at h; exact Option.some.inj (h₂.symm.trans h)
      | false => rw [hcpha] at h; exact Option.some.inj (h₁.symm.trans h)
    rw [show 3 * (n + 1) + 1 = 3 * n + 1 + 3 by omega, htake, spiRun_append, ih (by omega), Option.bind_some]
    exact spiRun_bitsDone c b answer q (by omega) d₀ d₁ d₂ hsampled

/-- When a bit of the answer is sampled, the bit of the byte sent stands on the output line. -/
theorem spiRun_sampling {k : Nat} (hk : k < 8) :
    ∃ c', spiRun soc (din.take (3 * k + (if c.cpha then 3 else 2))) c = some c' ∧ c'.mosi = b.getLsbD (7 - k) ∧
      c'.sfsm = if c.cpha then .trail else .lead := by
  obtain ⟨d₀, d₁, d₂, -, -, htake₁, htake₂, -⟩ := take_levels (l := din) (n := 3 * k + 1) (by omega)
  have htake : din.take (3 * k + (if c.cpha then 3 else 2)) =
      din.take (3 * k + 1) ++ (if c.cpha then [d₀, d₁] else [d₀]) := by
    cases c.cpha with
    | true => exact htake₂
    | false => exact htake₁
  obtain ⟨c', hrun, hmosi, hf'⟩ := spiRun_toEdge (soc := soc) (c := bitsDone c b answer q k) (by simp [bitsDone, hk]) d₀ d₁
  refine ⟨c', ?_, hmosi.trans ?_, hf'⟩
  · rw [htake, spiRun_append, spiRun_bits hf hta hq hroom hl hd (by omega), Option.bind_some]
    exact hrun
  · have hmin : min k 7 = k := by omega
    simp only [bitsDone, msbFirst, hmin]

/-- The byte's 26 transitions: the load, three for each bit, the store. -/
theorem spiRun_byte : spiRun soc din c = some { bitsDone c b answer q 8 with
    rxq := c.rxq ++ [answer], sbit := 0, sfsm := .idle } := by
  have hlast : din[25]? = some din[25] := List.getElem?_eq_getElem _
  have hdin : din = din.take 25 ++ [din[25]] := by
    conv_lhs => rw [← List.take_length (l := din), hl, List.take_add_one, hlast]
    rfl
  rw [hdin, spiRun_append, spiRun_bits hf hta hq hroom hl hd (n := 8) (by omega), Option.bind_some]
  refine (spiRun_cons (spiTransition_store rfl)).trans ?_
  rw [tStore_eq, spiRun_nil]
  simp only [bitsDone, topBits_eight]

end

/-- Settles O47: the runs up to each sampling edge, and the whole run. -/
theorem spiByteExchange : Obligations.SpiByteExchange := by
  intro soc c b answer q din edge hf hta hq hroom hl hd
  refine ⟨fun k hk => spiRun_sampling hf hta hq hroom hl hd hk, _, spiRun_byte hf hta hq hroom hl hd, ?_⟩
  exact ⟨rfl, rfl, rfl, rfl, rfl, rfl, hta, rfl, rfl, rfl, rfl, rfl⟩

/-! ## What the engine writes (R310) -/

/-- A transition keeps the stored bits of `CS` and `CLK`; it takes at most the head of `txq` and puts at most one byte
into `rxq`. -/
theorem spiTransition_frame {soc : Soc} {din : Bool} {c c' : Spi} (h : spiTransition soc din c = some c') :
    c'.cs = c.cs ∧ c'.cpha = c.cpha ∧ c'.cpol = c.cpol ∧ c'.ta = c.ta ∧ c'.ren = c.ren ∧ c'.cdiv = c.cdiv ∧
      (c'.txq = c.txq ∨ ∃ b, c.txq = b :: c'.txq) ∧ (c'.rxq = c.rxq ∨ ∃ b, c'.rxq = c.rxq ++ [b]) := by
  rcases spiTransition_cases h with ⟨-, hload⟩ | ⟨-, rfl⟩ | ⟨-, rfl⟩ | ⟨-, rfl⟩ | ⟨-, rfl⟩
  · obtain ⟨-, -, b, q, hq, rfl⟩ := tLoad_cases hload
    exact ⟨rfl, rfl, rfl, rfl, rfl, rfl, .inr ⟨b, hq⟩, .inl rfl⟩
  · rw [tSetup_eq]; exact ⟨rfl, rfl, rfl, rfl, rfl, rfl, .inl rfl, .inl rfl⟩
  · rw [tLead_eq]; exact ⟨rfl, rfl, rfl, rfl, rfl, rfl, .inl rfl, .inl rfl⟩
  · rw [tTrail_eq]; exact ⟨rfl, rfl, rfl, rfl, rfl, rfl, .inl rfl, .inl rfl⟩
  · rw [tStore_eq]; exact ⟨rfl, rfl, rfl, rfl, rfl, rfl, .inl rfl, .inr ⟨c.srx, rfl⟩⟩

/-- Settles O48: the turn puts the block its transition leaves and counts a free value, or does nothing. -/
theorem spiEngineFrame : Obligations.SpiEngineFrame := by
  intro s t h
  rcases spiEngineTurn_cases s with ⟨c, htrans, hturn⟩ | ⟨-, hturn⟩ <;> cases hturn.symm.trans h
  case inl => exact ⟨rfl, spiTransition_frame htrans⟩
  case inr => exact ⟨rfl, rfl, rfl, rfl, rfl, rfl, rfl, .inl rfl, .inl rfl⟩

end Sys2Proof.Machine
end

section
/-! The SPI registers: what a read of `CS` shows, and what writes of `CS` and `CLK` do at rest and in mid byte (45_spi.md
R301 to R309). -/

namespace Sys2Proof.Machine

/-! ## Reads (R301, R308) -/

theorem spiDone_eq (c : Spi) : spiDone c = decide (c.ta = true ∧ c.txq = [] ∧ c.sfsm = .idle) := by
  rw [spiDone, Bool.eq_iff_iff]
  simp [and_assoc]

theorem spiRxd_eq (c : Spi) : spiRxd c = decide (c.rxq ≠ []) := by
  simp only [spiRxd, List.length_pos_iff]

/-- The word read has no bit beside its fields and flags and the draw bit 19. -/
theorem spiStatusWord_and_unused (soc : Soc) (c : Spi) (d : BitVec 64) : spiStatusWord soc c d &&& 0xFFE0EF70 = 0#32 := by
  have hcs : ∀ cs : BitVec 2, cs.setWidth 32 &&& 0xFFE0EF70 = 0#32 := by decide
  simp (disch := decide) only [spiStatusWord, BitVec.and_or_distrib_right, hcs, bitAt_and_eq_zero, BitVec.or_zero]

/-- Settles O26: the answer is the status word, whose bits are its fields and flags. -/
theorem spiStatusReadShowsFieldsAndFlags : Obligations.SpiStatusReadShowsFieldsAndFlags := by
  intro s
  obtain ⟨hcpha, hcpol, hta, hren, hdone, hrxd, htxd, hrxf⟩ := spiStatusWord_getLsbD s.soc s.spi (drawOf s)
  exact ⟨spiStatusWord s.soc s.spi (drawOf s), rfl, spiStatusWord_cs s.soc s.spi _, hcpha, hcpol, hta, hren,
    hdone.trans (spiDone_eq s.spi), hrxd.trans (spiRxd_eq s.spi), htxd, hrxf, spiStatusWord_and_unused s.soc s.spi _⟩

/-! ## Writes (R302 to R305, R309) -/

theorem outOfScopeBitsSet_eq_false {w : Word} (h : w &&& 0x03E0EF40 = 0) : outOfScopeBitsSet w = false := by
  rw [outOfScopeBitsSet, h]; rfl

theorem configDiffers_eq_false {w : Word} {c : Spi} (hcs : w.extractLsb' 0 2 = c.cs) (hcpha : w.getLsbD 2 = c.cpha)
    (hcpol : w.getLsbD 3 = c.cpol) (hren : w.getLsbD 12 = c.ren) : configDiffers w c = false := by
  rw [configDiffers, csOf, cphaOf, cpolOf, renOf, hcs, hcpha, hcpol, hren]
  simp only [bne_self_eq_false, Bool.or_self]

theorem execWrSpiCs_outOfScope {w : Word} (h : outOfScopeBitsSet w = true) (s : State) :
    execWrSpiCs w s = .refused .modeOutOfScope := if_pos h

theorem execWrSpiCs_idle {w : Word} {s : State} (hscope : outOfScopeBitsSet w = false) (hidle : s.spi.sfsm = .idle) :
    execWrSpiCs w s = .next (s.setSpi (taWritten (taOf w) (clearsWritten w (configWritten w s.spi)))) := by
  simp [execWrSpiCs, hscope, hidle]

/-- With no byte in flight to abandon, `TA` is stored and nothing else. -/
theorem taWritten_idle {c : Spi} (ta : Bool) (hidle : c.sfsm = .idle) : taWritten ta c = { c with ta := ta } :=
  if_neg fun ⟨_, _, hf⟩ => hf hidle

theorem taWritten_kept {c : Spi} (hta : c.ta = true) : taWritten true c = c := by
  rw [taWritten_true, ← hta]

/-- Clearing `TA` in mid byte drops the byte and rests the clock line (R304). -/
theorem taWritten_abandons {c : Spi} (hta : c.ta = true) (hf : c.sfsm ≠ .idle) :
    taWritten false c = { c with ta := false, sfsm := .idle, sbit := 0, sclk := c.cpol } :=
  if_pos ⟨hta, rfl, hf⟩

/-- Settles O27: at rest the configuration, the clears and `TA` are stored in turn. -/
theorem spiControlWriteAtRest : Obligations.SpiControlWriteAtRest := by
  intro w s hidle hscope
  refine (execWrSpiCs_idle (outOfScopeBitsSet_eq_false hscope) hidle).trans ?_
  rw [taWritten_idle _ (by exact hidle), configWritten, if_pos hidle]
  rfl

/-- Settles O28: in mid byte the configuration is written as it is, so only the clears and `TA` count. -/
theorem spiControlWriteInFlight : Obligations.SpiControlWriteInFlight := by
  intro w s hf hta hscope hcs hcpha hcpol hren
  have hsame := configDiffers_eq_false hcs hcpha hcpol hren
  have hexec := execWrSpiCs_sameConfig (outOfScopeBitsSet_eq_false hscope) hsame
  rw [configWritten_sameConfig hsame fun hidle => absurd hidle hf] at hexec
  refine ⟨fun hw => hexec.trans ?kept, fun hw => hexec.trans ?dropped⟩
  case kept =>
    rw [taOf, hw, taWritten_kept (by exact hta)]
    rfl
  case dropped =>
    rw [taOf, hw, taWritten_abandons (by exact hta) (by exact hf)]
    rfl

/-- Settles O29: the thirteen bits are those of the mask. -/
theorem spiOutOfScopeModesAreRefused : Obligations.SpiOutOfScopeModesAreRefused :=
  fun _ s _ hn hbit => execWrSpiCs_outOfScope (outOfScopeBitsSet_of_bit hn hbit) s

theorem execWrSpiClk_idle {w : Word} {s : State} (hidle : s.spi.sfsm = .idle) :
    execWrSpiClk w s = .next (s.setSpi { s.spi with cdiv := low16Of w }) := if_neg (not_not.2 hidle)

/-- Settles O30: the read answers the stored divider, and the write at rest stores its 16 bits. -/
theorem spiClockRegister : Obligations.SpiClockRegister :=
  fun _ s => ⟨answer_eq_next _ s, execWrSpiClk_idle⟩

end Sys2Proof.Machine
end

section
/-! The I2C registers: control, status, length, configuration and the FIFO, and the configuration writes both buses refuse
in flight (42_i2c_registers.md R181 to R199, 20_memory.md R93). -/

namespace Sys2Proof.Machine

/-! ## Configuration (20_memory.md R93) -/

/-- Settles O17: each of the five writes is one of the configuration, and the engine is idle. -/
theorem i2cConfigurationWritesAtIdle : Obligations.I2cConfigurationWritesAtIdle := fun w _ hidle =>
  ⟨configureI2c_idle (fun c => { c with dlen := low16Of w }) hidle,
    configureI2c_idle (fun c => { c with addr := addrOf w }) hidle, exec_wrI2cDiv_idle hidle w,
    exec_wrI2cDel_idle hidle w, configureI2c_idle (fun c => { c with tout := low16Of w }) hidle⟩

theorem interruptBitsSet_eq_false {w : Word} (h : w &&& 0x700 = 0) : interruptBitsSet w = false := by
  rw [interruptBitsSet_eq, decide_eq_false (not_not.2 h)]

theorem clearOf_eq_false {w : Word} (h : w &&& 0x30 = 0) : clearOf w = false := by
  rw [clearOf_eq, decide_eq_false (not_not.2 h)]

/-- A write of `I2C.C` may not turn the direction of a transfer in flight round. -/
theorem execWrI2cC_turnsRound {w : Word} {s : State} (hintr : interruptBitsSet w = false) (hf : s.i2c.fsm ≠ .idle)
    (hread : readOf w ≠ s.i2c.read) : execWrI2cC w s = .refused .configChangeInFlight := by
  simp [execWrI2cC, hintr, hf, hread]

theorem execWrSpiCs_inFlight {w : Word} {s : State} (hscope : outOfScopeBitsSet w = false) (hf : s.spi.sfsm ≠ .idle)
    (hdiff : configDiffers w s.spi = true) : execWrSpiCs w s = .refused .configChangeInFlight := by
  simp [execWrSpiCs, hscope, hf, hdiff]

/-- Any one bit of the configuration makes the difference. -/
theorem configDiffers_eq_true {w : Word} {c : Spi} (h : w.extractLsb' 0 2 ≠ c.cs ∨ w.getLsbD 2 ≠ c.cpha ∨
    w.getLsbD 3 ≠ c.cpol ∨ w.getLsbD 12 ≠ c.ren) : configDiffers w c = true := by
  by_contra hsame
  obtain ⟨hcs, hcpha, hcpol, hren⟩ := configDiffers_false (Bool.eq_false_iff.2 hsame)
  rcases h with h | h | h | h
  · exact h hcs
  · exact h hcpha
  · exact h hcpol
  · exact h hren

/-- Settles O18: the configuration registers of either block are refused outright, the control registers on a difference
from what is stored. -/
theorem configurationChangeInFlightIsRefused : Obligations.ConfigurationChangeInFlightIsRefused := by
  intro w s
  refine ⟨fun hf => ⟨fun i hi => ?i2cConfig, fun hintr hread => ?direction⟩, fun hf => ⟨if_pos hf, fun hscope hdiff => ?spi⟩⟩
  case i2cConfig =>
    simp only [List.mem_cons, List.not_mem_nil, or_false] at hi
    rcases hi with rfl | rfl | rfl | rfl | rfl
    · exact configureI2c_busy (fun c => { c with dlen := low16Of w }) hf
    · exact configureI2c_busy (fun c => { c with addr := addrOf w }) hf
    · exact configureI2c_busy (fun c => { c with cdiv := low16Of w }) hf
    · exact configureI2c_busy (fun c => { c with fedl := high16Of w, redl := low16Of w }) hf
    · exact configureI2c_busy (fun c => { c with tout := low16Of w }) hf
  case direction => exact execWrI2cC_turnsRound (interruptBitsSet_eq_false hintr) hf hread
  case spi => exact execWrSpiCs_inFlight (outOfScopeBitsSet_eq_false hscope) hf (configDiffers_eq_true hdiff)

/-! ## Control (R182 to R185) -/

/-- A write of `I2C.C` that is not refused for an interrupt bit, a change of direction or a clear in flight. -/
theorem execWrI2cC_quiet {w : Word} {s : State} (hintr : interruptBitsSet w = false)
    (hquiet : s.i2c.fsm = .idle ∨ (readOf w = s.i2c.read ∧ clearOf w = false)) :
    execWrI2cC w s =
      if startOf w then requestStart (controlWritten w s.i2c) s else .next (s.setI2c (controlWritten w s.i2c)) := by
  have hdir : ¬ (s.i2c.fsm ≠ .idle ∧ readOf w ≠ s.i2c.read) := fun ⟨hf, hne⟩ => hne (hquiet.resolve_left hf).1
  have hclear : ¬ (s.i2c.fsm ≠ .idle ∧ clearOf w = true) := fun ⟨hf, hc⟩ => by
    rw [(hquiet.resolve_left hf).2] at hc; cases hc
  rw [execWrI2cC, hintr, if_neg Bool.false_ne_true, if_neg hdir, if_neg hclear]

section
variable {w : Word} {c : I2c} {s : State}

theorem requestStart_disabled (hen : c.i2cen = false) : requestStart c s = .next (s.setI2c c) := if_pos hen

theorem requestStart_idle (hen : c.i2cen = true) (hf : c.fsm = .idle) :
    requestStart c s = .next (s.setI2c { c with stPend := true }) := by
  simp [requestStart, hen, hf]

theorem requestStart_busy (hen : c.i2cen = true) (hf : c.fsm ≠ .idle) :
    requestStart c s = .refused .startWhileActive := by
  simp [requestStart, hen, hf]

/-- The stored bits and the queues a write of `I2C.C` leaves before the disable and the start. -/
def controlStored (w : Word) (c : I2c) : I2c :=
  { c with
    i2cen := i2cenOf w
    read := readOf w
    txq := if clearOf w then [] else c.txq
    rxq := if clearOf w then [] else c.rxq }

theorem controlWritten_eq (w : Word) (c : I2c) :
    controlWritten w c = if i2cenOf w then controlStored w c else disableEngine (controlStored w c) := by
  unfold controlWritten controlStored clearQueues
  cases clearOf w <;> rfl

theorem controlWritten_enabled (hen : i2cenOf w = true) : controlWritten w c = controlStored w c := by
  rw [controlWritten_eq, if_pos hen]

theorem controlWritten_disabled (hen : i2cenOf w = false) :
    controlWritten w c = disableEngine (controlStored w c) := by
  rw [controlWritten_eq, hen, if_neg Bool.false_ne_true]

/-- At rest a disable only drops a pending start. -/
theorem disableEngine_idle (hf : c.fsm = .idle) : disableEngine c = { c with stPend := false } := if_pos hf

theorem disableEngine_busy (hf : c.fsm ≠ .idle) :
    disableEngine c = { c with stPend := false, fsm := .idle, mSda := true, mScl := true } := if_neg hf

end

/-- A write of `I2C.C` at rest: the stored bits and queues, and a start pending if the block is enabled and one was
requested or pending. -/
theorem execWrI2cC_idle {w : Word} {s : State} (hintr : interruptBitsSet w = false) (hf : s.i2c.fsm = .idle) :
    execWrI2cC w s = .next (s.setI2c { controlStored w s.i2c with
      stPend := i2cenOf w && (startOf w || s.i2c.stPend) }) := by
  rw [execWrI2cC_quiet hintr (.inl hf)]
  cases hen : i2cenOf w with
  | false =>
    rw [controlWritten_disabled hen, disableEngine_idle (by exact hf), requestStart_disabled (by exact hen), ite_self]
    rfl
  | true =>
    rw [controlWritten_enabled hen]
    cases hst : startOf w with
    | false => rfl
    | true => rw [if_pos rfl, requestStart_idle (by exact hen) (by exact hf)]; rfl

/-- Settles O19: at rest the write stores its bits; what it clears is said by the field of two bits. -/
theorem i2cControlWriteAtIdle : Obligations.I2cControlWriteAtIdle := by
  intro w s hf hintr
  have hintr' : interruptBitsSet w = false := by rw [interruptBitsSet, hintr]; rfl
  refine (execWrI2cC_idle hintr' hf).trans ?_
  have hclear : ∀ q : List Byte, (if clearOf w then [] else q) = if w.extractLsb' 4 2 = 0 then q else [] := by
    intro q
    rw [clearOf]
    by_cases h : w.extractLsb' 4 2 = 0 <;> simp [h]
  rw [controlStored, hclear, hclear]
  rfl

/-- In flight, keeping the direction and with no clear, the write changes no stored bit but the enable. -/
theorem controlStored_inFlight {w : Word} {c : I2c} (hread : readOf w = c.read) (hclear : clearOf w = false) :
    controlStored w c = { c with i2cen := i2cenOf w } := by
  rw [controlStored, hread, hclear]; rfl

/-- Settles O20: with the enable cleared the write is a disable of a transfer in flight; kept, it stores what is stored. -/
theorem i2cControlWriteInFlight : Obligations.I2cControlWriteInFlight := by
  intro w s hf hintr hclear hread
  have hintr' : interruptBitsSet w = false := by rw [interruptBitsSet, hintr]; rfl
  have hclear' : clearOf w = false := by rw [clearOf, hclear]; rfl
  have hexec := execWrI2cC_quiet hintr' (.inr ⟨hread, hclear'⟩)
  refine ⟨fun hen => hexec.trans ?abandoned, fun hen henabled hst => hexec.trans ?nothing⟩
  case abandoned =>
    rw [controlWritten_disabled hen, controlStored_inFlight hread hclear', disableEngine_busy (by exact hf),
      requestStart_disabled (by exact hen), ite_self, i2cenOf, hen]
    rfl
  case nothing =>
    rw [controlWritten_enabled hen, controlStored_inFlight hread hclear', startOf, hst, if_neg Bool.false_ne_true,
      i2cenOf, hen, ← henabled]
    rfl

/-- Settles O21: the interrupt bits are looked at first, then, in flight, the clear, then the start. -/
theorem i2cControlWriteRefusals : Obligations.I2cControlWriteRefusals := by
  intro w s
  refine ⟨fun hintr => ?interrupt, fun hintr hf hread => ⟨fun hclear => ?clear, fun hclear hen hst => ?start⟩⟩
  case interrupt =>
    rw [exec, execWrI2cC, interruptBitsSet_eq, decide_eq_true hintr, if_pos rfl]
  case clear =>
    have hset : clearOf w = true := by rw [clearOf_eq, decide_eq_true hclear]
    have hkept : readOf w = s.i2c.read := hread
    simp [exec, execWrI2cC, interruptBitsSet_eq_false hintr, hkept, hf, hset]
  case start =>
    have hexec := execWrI2cC_quiet (interruptBitsSet_eq_false hintr) (.inr ⟨hread, clearOf_eq_false hclear⟩)
    refine hexec.trans ?_
    rw [startOf, hst, if_pos rfl, controlWritten_enabled hen, requestStart_busy (by exact hen) (by exact hf)]

/-! ## Reads of status, control and length (R181, R186, R188) -/

theorem i2cControlWord_eq (c : I2c) :
    i2cControlWord c = (if c.i2cen then 0x8000 else 0) ||| (if c.read then 1 else 0) := by
  unfold i2cControlWord
  cases c.i2cen <;> cases c.read <;> rfl

theorem i2cTa_eq (c : I2c) : i2cTa c = decide (c.fsm ≠ .idle) := by
  rw [i2cTa, Bool.eq_iff_iff]; simp

/-- Settles O22: the three answers are the control word, the stored length and the status word, whose bits are its
flags. -/
theorem i2cStatusControlAndLengthReads : Obligations.I2cStatusControlAndLengthReads := by
  intro s
  obtain ⟨hta, hdone, htxd, hrxd, htxe, hrxf, herr, hclkt⟩ := i2cStatusWord_getLsbD s.soc s.i2c (drawOf s)
  refine ⟨?control, answer_eq_next _ s, i2cStatusWord s.soc s.i2c (drawOf s), rfl, ?status⟩
  case control => rw [← i2cControlWord_eq]; exact answer_eq_next _ s
  case status =>
    exact ⟨hta.trans (i2cTa_eq s.i2c), hdone, htxd, hrxd, htxe, hrxf, herr, hclkt, i2cStatusWord_high s.soc s.i2c _⟩

/-- Settles O23: each flag is kept unless its bit is written 1. -/
theorem i2cStatusWriteClearsFlags : Obligations.I2cStatusWriteClearsFlags := by
  intro w s
  have hflag : ∀ flag bit : Bool, (flag && !bit) = if bit then false else flag := by decide
  show execWrI2cS w s = _
  rw [execWrI2cS, hflag, hflag, hflag]
  rfl

/-! ## The FIFOs of both buses (R192, R193, 45_spi.md R306, R307) -/

theorem execWrSpiFifo_room {w : Word} {s : State} (h : s.spi.txq.length ≠ s.soc.spiFifoDepth) :
    execWrSpiFifo w s = .next (s.setSpi { s.spi with txq := pushByte s.spi.txq (byteOf w) }) := if_neg h

/-- Settles O24: the queue's length alone decides. -/
theorem fifoWritesPushOneByte : Obligations.FifoWritesPushOneByte := fun _ _ =>
  ⟨execWrI2cFifo_room, fun hfull => if_pos hfull, execWrSpiFifo_room, fun hfull => if_pos hfull⟩

theorem execRdI2cFifo_nil {s : State} (h : s.i2c.rxq = []) :
    execRdI2cFifo s = answerDrawn (((drawOf s).extractLsb' 0 8).setWidth 32) s := by
  unfold execRdI2cFifo; rw [h]

theorem execRdSpiFifo_cons {s : State} {b : Byte} {q : List Byte} (h : s.spi.rxq = b :: q) :
    execRdSpiFifo s = .next ((s.setSpi { s.spi with rxq := q }).setRdata (b.setWidth 32)) := by
  unfold execRdSpiFifo; rw [h]; rfl

theorem execRdSpiFifo_nil {s : State} (h : s.spi.rxq = []) :
    execRdSpiFifo s = answerDrawn (((drawOf s).extractLsb' 0 8).setWidth 32) s := by
  unfold execRdSpiFifo; rw [h]

/-- Settles O25: a queue with a head gives it up; an empty one answers a free byte. -/
theorem fifoReadsPopOneByte : Obligations.FifoReadsPopOneByte := fun _ =>
  ⟨fun _ _ hq => execRdI2cFifo_cons hq, fun hq => ⟨_, execRdI2cFifo_nil hq⟩, fun _ _ hq => execRdSpiFifo_cons hq,
    fun hq => ⟨_, execRdSpiFifo_nil hq⟩⟩

end Sys2Proof.Machine
end

section
/-! What the GPIO registers mean for the pins, and what the engines see of the pins (41_gpio.md R151 to R162). -/

namespace Sys2Proof.Machine

/-! ## Mode writes (R151, R152) -/

theorem exec_writeMode_fields (i : Fin 6) (w : Word) (s : State) :
    ∃ v : Word, exec (writeInstr (.gpioMode i) w) s = .next { s with gpio := { s.gpio with mode := s.gpio.mode.set i v } } ∧
      ∀ b : Nat, v.getLsbD b = (decide (b < 30 ∧ 10 * i.val + b / 3 < s.soc.npins) && w.getLsbD b) :=
  ⟨w &&& modeFieldsMask s.soc i, exec_writeMode i w s, getLsbD_and_modeFieldsMask s.soc i w⟩

/-- Settles O10: each of the six writes is the write of its mode register, which masks the beat. -/
theorem modeWritesStoreTheFields : Obligations.ModeWritesStoreTheFields := fun w s =>
  ⟨exec_writeMode_fields 0 w s, exec_writeMode_fields 1 w s, exec_writeMode_fields 2 w s, exec_writeMode_fields 3 w s,
    exec_writeMode_fields 4 w s, exec_writeMode_fields 5 w s⟩

/-- A write of a mode register is an update that forgets the old word. -/
theorem exec_writeMode_modeUpdated (i : Fin 6) (w : Word) (s : State) :
    exec (writeInstr (.gpioMode i) w) s = .next (s.setGpio (modeUpdated s.soc i (fun _ => w) s.gpio)) :=
  exec_writeMode i w s

/-- Settles O11: the update is seen by the pins of the register written, each of which finds its field in the beat. -/
theorem modeWriteGivesEachPinItsField : Obligations.ModeWriteGivesEachPinItsField := by
  intro i w s t h p hp
  cases (exec_writeMode_modeUpdated i w s).symm.trans h
  have hreg : mregOf p = i ↔ p.val / 10 = i.val := Fin.ext_iff
  refine ⟨?_, rfl⟩
  rw [State.setGpio_gpio, pinModeCode_modeUpdated _ _ _ _ hp, mshiftOf]
  simp only [hreg]

/-! ## Triggers and levels (R155, R158) -/

/-- Settles O13: reads of the triggers answer a free value, writes of the levels are the identity. -/
theorem triggerReadsAndLevelWritesChangeNothing : Obligations.TriggerReadsAndLevelWritesChangeNothing := by
  intro w s
  refine ⟨fun i hi => ?_, exec_writeLevel 0 w s, exec_writeLevel 1 w s⟩
  simp only [List.mem_cons, List.not_mem_nil, or_false] at hi
  rcases hi with rfl | rfl | rfl | rfl
  · exact ⟨_, exec_readSet 0 s⟩
  · exact ⟨_, exec_readSet 1 s⟩
  · exact ⟨_, exec_readClr 0 s⟩
  · exact ⟨_, exec_readClr 1 s⟩

/-! ## What the engines see (R161, R162) -/

theorem pinInMode_iff {s : State} {p : Pin} {m : PinMode} :
    pinInMode s p m = true ↔ pinModeCode s.gpio p = modeCode s.soc.modeCodes m := beq_iff_eq

/-- The draw is a level of its own. -/
theorem exists_draw_bit (b : Bool) : ∃ d : BitVec 64, d.getLsbD 0 = b := by
  cases b with
  | false => exact ⟨0, rfl⟩
  | true => exact ⟨1, rfl⟩

/-- Settles O15: the multiplexer is a choice on the pin's mode, and for SPI on `REN` first. -/
theorem busInputsFollowTheMultiplexer : Obligations.BusInputsFollowTheMultiplexer := by
  intro s pins env isIn
  refine ⟨fun h => if_pos (pinInMode_iff.2 h), fun h => if_neg (mt pinInMode_iff.1 h), fun h => if_pos (pinInMode_iff.2 h),
    fun h => if_neg (mt pinInMode_iff.1 h), fun hren h d => if_pos ⟨hren, pinInMode_iff.2 h⟩, fun hren h d => ?mosi,
    fun hmiso hmosi b => ?free⟩
  case mosi =>
    have hnot : ¬ (s.spi.ren = false ∧ pinInMode s s.soc.pins.spiMiso s.soc.pins.spiAlt = true) := by simp [hren]
    rw [dataIn, if_neg hnot, if_pos ⟨hren, pinInMode_iff.2 h⟩]
    rfl
  case free =>
    obtain ⟨d, hd⟩ := exists_draw_bit b
    refine ⟨d, ?_⟩
    rw [dataIn, if_neg fun ⟨hren, hin⟩ => hmiso ⟨hren, pinInMode_iff.1 hin⟩,
      if_neg fun ⟨hren, hin⟩ => hmosi ⟨hren, pinInMode_iff.1 hin⟩, hd]

end Sys2Proof.Machine
end

section
/-! The whole header selects (30_encoding.md R112), and the operation placed by its number is the one the next step runs
(logs 1, 3). -/

namespace Sys2Proof

/-! ## The header (R111, R112) -/

/-- A header is its direction bit and its offset. -/
theorem header_eq (h : Header) : h = BitVec.ofBool (h.getLsbD 24) ++ h.extractLsb' 0 24 := by
  apply BitVec.eq_of_getLsbD_eq
  intro i hi
  rw [BitVec.getLsbD_append]
  by_cases hlow : i < 24
  · simp [hlow]
  · have h24 : i = 24 := by omega
    subst h24
    simp

/-- Settles O2: the offset of the register found is the offset asked for, the direction is the direction bit, and the beat
goes back to the positions it came from. -/
theorem decodedHeaderIsTheTableHeader : Obligations.DecodedHeaderIsTheTableHeader := by
  intro L r i h
  obtain ⟨hw, g, hg, rfl⟩ := (decode_ok_iff L r i).1 h
  have hoff : BitVec.ofNat 24 (offOf L g) = r.header.extractLsb' 0 24 := by
    rw [offOf_of_decodeOffset hg, BitVec.ofNat_toNat, BitVec.setWidth_eq]
  refine ⟨hw, ?header, fun hwrite => ?beat⟩
  case header =>
    refine (header_eq r.header).trans ?_
    rw [← hoff, headerOf]
    cases r.header.getLsbD 24 <;> simp
  case beat =>
    cases hdir : r.header.getLsbD 24 with
    | true => simp
    | false => rw [hdir, if_neg Bool.false_ne_true, isWrite_readInstr] at hwrite; cases hwrite

/-- Settles O4: the encoding of each of the five operations is the request written out. -/
theorem sampleHeadersDecode : Obligations.SampleHeadersDecode :=
  ⟨decode_encode layoutSound_default .rdI2cFifo, decode_encode layoutSound_default (.wrI2cA 0x50),
    decode_encode layoutSound_default (.wrSpiCs 0xB0), decode_encode layoutSound_default .rdGpioLev1,
    decode_encode layoutSound_default (.wrGpioSet0 5)⟩

end Sys2Proof

namespace Sys2Proof.Machine

/-! ## Placing a request (log 3) -/

/-- A request written in the default layout is placed in the layout of the SoC. -/
theorem relaid_encode (L : Layout) (i : Instr) : relaid L (encode .bcm283x i) = encode L i := by
  rw [relaid, decode_encode layoutSound_default]

theorem windowOf_encode {L : Layout} (h : layoutSound L) (i : Instr) :
    windowOf L ((encode L i).header.extractLsb' 0 24).toNat = some i.reg.window := by
  obtain ⟨hwin, -⟩ := decodeOffset_ok (decodeOffset_offOf h i.reg)
  rw [encode_header, headerOf_off h, hwin]

theorem withFetchWord_tableWordOf {s : State} (h : layoutSound s.soc.layout) (i : Instr) :
    s.withFetchWord 64 (tableWordOf i) =
      (mapWindow i.reg.window (s.setTasks [])).setIssued (some (encode s.soc.layout i)) := by
  rw [withFetchWord_of_request (requestOfTableWord_tableWordOf i), relaid_encode, placeRequest, mapFor,
    State.setTasks_soc, windowOf_encode h]

/-- Settles O6: the request placed decodes to its operation, nothing stands against it, and its window is mapped. -/
theorem placedRequestRunsNext : Obligations.PlacedRequestRunsNext := by
  intro s i h
  rw [withFetchWord_tableWordOf h]
  exact (step_of_issued_free rfl (decode_encode (by exact h) i) (requestBlocked_idle rfl)).trans
    (busAccess_mapped (PerWindow.get_set_same _ _ _))

end Sys2Proof.Machine
end

section
/-! One poll of an I2C await (44_i2c_host.md R281, 60_exceptions.md R379), and the pin operations: `set_pin_mode` as an
operation of its own, a level written and read back (41_gpio.md R167 to R171). -/

namespace Sys2Proof.Machine

/-! ## The tests of a poll (R281) -/

section
variable {flag v : Word} {k : Task}

theorem judgePoll_err (herr : anySet v maskI2cErr = true) : judgePoll .i2c flag v k = abortTask .i2c .noResponse k :=
  if_pos herr

theorem judgePoll_clkt (herr : anySet v maskI2cErr = false) (hclkt : anySet v maskI2cClkt = true) :
    judgePoll .i2c flag v k = abortTask .i2c .clockTimeout k := by
  rw [judgePoll, herr, hclkt, if_neg Bool.false_ne_true, if_pos rfl]

/-- With neither error the awaited flag decides whether the deadline is looked at. -/
theorem judgePoll_flag (herr : anySet v maskI2cErr = false) (hclkt : anySet v maskI2cClkt = false) :
    judgePoll .i2c flag v k = { k with cont := if anySet v flag then k.cont else .expire .i2c flag :: k.cont } := by
  rw [judgePoll, herr, hclkt, if_neg Bool.false_ne_true, if_neg Bool.false_ne_true]
  cases anySet v flag <;> rfl

/-- A poll that passes leaves the rest of the program, every other outcome something more to do. -/
theorem judgePoll_cont_ne_nil (hk : k.cont ≠ []) : (judgePoll .i2c flag v k).cont ≠ [] := by
  unfold judgePoll
  dsimp only
  split_ifs
  · exact List.cons_ne_nil _ _
  · exact List.cons_ne_nil _ _
  · exact hk
  · exact List.cons_ne_nil _ _

end

/-- The turn of a poll reads the status word, changes no block, and judges the word for its operation alone. -/
theorem hostTurn_poll {s : State} {n : Nat} {k : Task} {flag : Word} {rest : List HostCmd} (hm : s.mapped.i2c = true)
    (hk : s.tasks[n]? = some k) (hu : (s.tasks.eraseIdx n).any midUpdate = false)
    (hc : k.cont = .poll .i2c flag :: rest) (hrest : rest ≠ []) :
    ∃ beat, hostTurn n s = .next ((s.drawn.setRdata beat).setTasks (s.tasks.set n
      (judgePoll .i2c flag (i2cStatusWord s.soc s.i2c (drawOf s)) { k with cont := rest }))) := by
  obtain ⟨beat, hbeat⟩ := deliver_eq (readInstr .i2cS) (s.drawn.setRdata (i2cStatusWord s.soc s.i2c (drawOf s)))
  refine ⟨beat, ?_⟩
  rw [hostTurn_cmd hk hu hc (by rintro _ ⟨⟩), runCmd]
  refine (access_read (isWrite_readInstr .i2cS) hm rfl).trans ?_
  rw [hbeat, proceed_more (judgePoll_cont_ne_nil hrest)]
  rfl

theorem i2cRxd_eq (c : I2c) : i2cRxd c = decide (c.rxq ≠ []) := by
  simp only [i2cRxd, List.length_pos_iff]

/-- Settles O52: the word judged is the status word, in which each mask finds its flag. -/
theorem i2cAwaitTestsInOrder : Obligations.I2cAwaitTestsInOrder := by
  intro s n k flag rest hm hk hu hc hrest goesOn judged
  obtain ⟨beat, hturn⟩ := hostTurn_poll hm hk hu hc hrest
  obtain ⟨hta, hdone, htxd, hrxd, herr, hclkt⟩ := anySet_i2cStatusWord s.soc s.i2c (drawOf s)
  refine ⟨_, hturn, rfl, rfl, rfl, fun he => ?err, fun he hcl => ?clkt, fun he hcl => ?awaited⟩
  case err => exact congrArg goesOn (judgePoll_err (herr.trans he))
  case clkt => exact congrArg goesOn (judgePoll_clkt (herr.trans he) (hclkt.trans hcl))
  case awaited =>
    have hjudged : s.tasks.set n (judgePoll .i2c flag (i2cStatusWord s.soc s.i2c (drawOf s)) { k with cont := rest }) =
        judged (anySet (i2cStatusWord s.soc s.i2c (drawOf s)) flag) :=
      congrArg goesOn (judgePoll_flag (herr.trans he) (hclkt.trans hcl))
    refine ⟨?_, ?_, ?_, ?_⟩ <;> rintro rfl <;> refine hjudged.trans (congrArg judged ?_)
    · exact hta.trans (i2cTa_eq s.i2c)
    · exact hdone
    · exact htxd
    · exact hrxd.trans (i2cRxd_eq s.i2c)

/-! ## `set_pin_mode` (41_gpio.md R167) -/

theorem npins_pos {soc : Soc} (h : busPinsSound soc.npins soc.pins) : 0 < soc.npins := by
  obtain ⟨hexist, -⟩ := h
  exact Nat.zero_lt_of_lt (hexist soc.pins.i2cSda List.mem_cons_self)

/-- The second half of the update that ends the operation called last. -/
theorem hostTurn_writesBack_done {l : List Task} {k : Task} {s : State} {i : Fin 6} {c : HostCmd} {f : Word → Word}
    (hu : l.any midUpdate = false) (hm : s.mapped.gpio = true) (hw : WritesBack c i f) (hc : k.cont = [c])
    (ht : k.t = s.gpio.mode[i] &&& modeFieldsMask s.soc i) :
    hostTurn l.length (s.setTasks (l ++ [k])) =
      .next (((s.setGpio (modeUpdated s.soc i f s.gpio)).setTasks l).setResult
        (some (resultOf s.soc { k with cont := [] }))) := by
  obtain ⟨hmap, hrun⟩ := hw
  have hexec : exec (writeInstr (.gpioMode i) (f k.t)) (s.setTasks (l ++ [k])) =
      .next ((s.setGpio (modeUpdated s.soc i f s.gpio)).setTasks (l ++ [k])) := by
    rw [exec_writeMode, ht]; rfl
  rw [hostTurn_last rfl hu hc hmap, hrun, access_write (isWrite_writeInstr _ _) (by rwa [reg_writeInstr]) hexec]
  exact congrArg _ (proceed_last_done rfl rfl)

/-- An update of a mode register that ends the operation called last: two turns, and the operation returns. -/
theorem runTurns_modeUpdate_done {l : List Task} {k : Task} {s : State} {i : Fin 6} {c : HostCmd} {f : Word → Word}
    (hu : l.any midUpdate = false) (hm : s.mapped.gpio = true) (hw : WritesBack c i f)
    (hc : k.cont = [.rd (.gpioMode i), c]) :
    ∃ beat v, runTurns [.host l.length, .host l.length] (s.setTasks (l ++ [k])) =
      .next ((((s.setGpio (modeUpdated s.soc i f s.gpio)).setRdata beat).setTasks l).setResult
        (some (resultOf s.soc { k with cont := [], t := v }))) := by
  obtain ⟨beat, hread⟩ := hostTurn_rdMode hu hm (List.cons_ne_nil _ _) hc
  have hwrite := hostTurn_writesBack_done (s := s.setRdata beat)
    (k := { k with cont := [c], t := s.gpio.mode[i] &&& modeFieldsMask s.soc i }) hu hm hw rfl rfl
  exact ⟨beat, _, (runTurns_host hread).trans (runTurns_host hwrite)⟩

/-- The call and the four turns: the pin's field is cleared, its code or-ed in, and the operation returns. -/
theorem runTurns_setPinMode {s : State} {pin : Nat} {m : PinMode} (hg : s.mapped.gpio = true)
    (hk : inUse s (claimsOf s.soc (.setPinMode pin m)) = false) (hu : s.tasks.any midUpdate = false) :
    ∃ beat, runTurns [.call (.setPinMode pin m), .host s.tasks.length, .host s.tasks.length, .host s.tasks.length,
        .host s.tasks.length] s =
      .next (((s.setGpio (pinModeWritten s.soc (pinOfArg s.soc pin) m s.gpio)).setRdata beat).setResult (some .ok)) := by
  have hcall := callTurn_begins hk (needsMapped_mapped (w := .gpio) hg) rfl hu (List.cons_ne_nil _ _)
  obtain ⟨b₁, v₁, hclear⟩ := runTurns_modeUpdate (s := s)
    (k := newTask (.setPinMode pin m) (pinModeCmds s.soc (pinOfArg s.soc pin) m)) hu hg (List.cons_ne_nil _ _)
    (wrClr_writesBack _ _) rfl
  obtain ⟨b₂, v₂, hjoin⟩ := runTurns_modeUpdate_done
    (s := (s.setGpio (modeFieldCleared s.soc (pinOfArg s.soc pin) s.gpio)).setRdata b₁)
    (k := { newTask (.setPinMode pin m) _ with t := v₁ }) hu hg (wrSet_writesBack _ _) rfl
  exact ⟨b₂, (runTurns_call hcall).trans <| (hclear _).trans hjoin⟩

/-- Settles O55: the run writes the pin's field; the pin is the argument modulo the pin count. -/
theorem setPinModeSetsOneField : Obligations.SetPinModeSetsOneField := by
  intro s pin m ⟨_, hmax, _, hb, _⟩ hg hk hu
  obtain ⟨beat, hrun⟩ := runTurns_setPinMode hg hk hu
  refine ⟨_, hrun, rfl, rfl, rfl, rfl, rfl, fun p hp => ?_⟩
  have hpin : p = pinOfArg s.soc pin ↔ p.val = pin % s.soc.npins := by
    rw [Fin.ext_iff, pinOfArg_val hmax (npins_pos hb)]
  exact (pinModeCode_pinModeWritten s.soc (pinOfArg s.soc pin) m s.gpio hp).trans (if_congr hpin rfl rfl)

/-! ## A level written and read back (R168 to R171) -/

/-- The block after a pin's output latch is set, and after it is cleared (R168, R169). -/
def latchSet (soc : Soc) (p : Pin) (g : Gpio) : Gpio :=
  { g with out := g.out ||| bankBits soc (bankOf p) (1#32 <<< bbitOf p) }

def latchCleared (soc : Soc) (p : Pin) (g : Gpio) : Gpio :=
  { g with out := g.out &&& ~~~ bankBits soc (bankOf p) (1#32 <<< bbitOf p) }

/-- The word written names the pin. -/
theorem bankBits_pin {soc : Soc} {p : Pin} (hp : p.val < soc.npins) :
    (bankBits soc (bankOf p) (1#32 <<< bbitOf p)).getLsbD p.val = true := by
  have hbit : (1#32 <<< bbitOf p).getLsbD (p.val % 32) = true := by
    have hlt : p.val % 32 < 32 := Nat.mod_lt _ (by decide)
    simp [bbitOf, hlt]
  rw [getLsbD_bankBits, hbit, decide_eq_true hp, Bool.and_true, Bool.and_true]
  exact decide_eq_true rfl

theorem outLatch_latchSet {soc : Soc} {p : Pin} (g : Gpio) (hp : p.val < soc.npins) :
    outLatch (latchSet soc p g) p = true := by
  rw [outLatch, latchSet, BitVec.getLsbD_or, bankBits_pin hp, Bool.or_true]

theorem outLatch_latchCleared {soc : Soc} {p : Pin} (g : Gpio) (hp : p.val < soc.npins) :
    outLatch (latchCleared soc p g) p = false := by
  rw [outLatch, latchCleared, BitVec.getLsbD_and, BitVec.getLsbD_not, bankBits_pin hp, Bool.not_true, Bool.and_false,
    Bool.and_false]

/-- A pin operation claims nothing, so it may run beside any other. -/
theorem inUse_nil (s : State) : inUse s [] = false := by
  simp [inUse, clash]

section
variable {s : State} {pin : Nat} (hg : s.mapped.gpio = true) (hu : s.tasks.any midUpdate = false)
include hg hu

/-- An operation that is one write of the GPIO block: it returns in the turn of that write. -/
theorem runTurns_oneGpioWrite {op : DriverOp} {r : Reg} {v : Word} {g : Gpio} (hr : r.window = .gpio)
    (hcall : callTurn op s = .next (s.setTasks (s.tasks ++ [newTask op [.wr r v]])))
    (hw : exec (writeInstr r v) (s.setTasks (s.tasks ++ [newTask op [.wr r v]])) =
      .next ((s.setGpio g).setTasks (s.tasks ++ [newTask op [.wr r v]])))
    (hres : resultOf s.soc (newTask op []) = .ok) (turns : List Turn) :
    runTurns (.call op :: .host s.tasks.length :: turns) s =
      runTurns turns ((s.setGpio g).setResult (some .ok)) := by
  have hturn := hostTurn_wr (s := s.setTasks (s.tasks ++ [newTask op [.wr r v]])) rfl hu (by rw [hr]; exact hg) rfl hw
  rw [runTurns_call hcall, runTurns_host hturn, ← hres]
  exact congrArg _ (proceed_last_done rfl rfl)

theorem runTurns_setPinHigh (turns : List Turn) :
    runTurns (.call (.setPinHigh pin) :: .host s.tasks.length :: turns) s =
      runTurns turns ((s.setGpio (latchSet s.soc (pinOfArg s.soc pin) s.gpio)).setResult (some .ok)) :=
  runTurns_oneGpioWrite hg hu rfl
    (callTurn_begins (op := .setPinHigh pin) (inUse_nil s) (needsMapped_mapped (w := .gpio) hg) rfl hu
      (List.cons_ne_nil _ _))
    (exec_writeSet _ _ _) rfl turns

theorem runTurns_setPinLow (turns : List Turn) :
    runTurns (.call (.setPinLow pin) :: .host s.tasks.length :: turns) s =
      runTurns turns ((s.setGpio (latchCleared s.soc (pinOfArg s.soc pin) s.gpio)).setResult (some .ok)) :=
  runTurns_oneGpioWrite hg hu rfl
    (callTurn_begins (op := .setPinLow pin) (inUse_nil s) (needsMapped_mapped (w := .gpio) hg) rfl hu
      (List.cons_ne_nil _ _))
    (exec_writeClr _ _ _) rfl turns

/-- `get_pin_level` returns the level of its pin's pad at the read (R170). -/
theorem runTurns_getPinLevel (hp : (pinOfArg s.soc pin).val < s.soc.npins) :
    ∃ t, runTurns [.call (.getPinLevel pin), .host s.tasks.length] s = .next t ∧
      t.result = some (.level (padLevel s (drawOf s) (pinOfArg s.soc pin))) := by
  have hcall := callTurn_begins (op := .getPinLevel pin) (inUse_nil s) (needsMapped_mapped (w := .gpio) hg) rfl hu
    (List.cons_ne_nil _ _)
  have hturn := hostTurn_rd (r := .gpioLev (bankOf (pinOfArg s.soc pin)))
    (s := s.setTasks (s.tasks ++ [newTask (.getPinLevel pin) [.rd (.gpioLev (bankOf (pinOfArg s.soc pin)))]]))
    rfl hu hg rfl (exec_readLevel _ _)
  refine ⟨_, (runTurns_call hcall).trans (runTurns_host hturn), ?_⟩
  obtain ⟨beat, hbeat⟩ := deliver_eq (readInstr (.gpioLev (bankOf (pinOfArg s.soc pin)))) _
  rw [hbeat, proceed_last_done rfl rfl]
  have hpos : 32 * (bankOf (pinOfArg s.soc pin)).val + bbitOf (pinOfArg s.soc pin) = (pinOfArg s.soc pin).val :=
    Nat.div_add_mod _ 32
  exact congrArg (fun b => some (DriverResult.level b))
    (getLsbD_levelWord_pin s (drawOf s) (Nat.mod_lt _ (by decide)) hpos hp)

/-- An OUTPUT pin shows its latch, an INPUT pin the environment. -/
theorem runTurns_getPinLevel_output (hcodes : modeCodesSound s.soc.modeCodes)
    (hp : (pinOfArg s.soc pin).val < s.soc.npins) (hmode : pinInMode s (pinOfArg s.soc pin) .output = true) :
    ∃ t, runTurns [.call (.getPinLevel pin), .host s.tasks.length] s = .next t ∧
      t.result = some (.level (outLatch s.gpio (pinOfArg s.soc pin))) := by
  rw [← padLevel_output hcodes (drawOf s) (pinInMode_iff.mp hmode)]
  exact runTurns_getPinLevel hg hu hp

theorem runTurns_getPinLevel_input (hcodes : modeCodesSound s.soc.modeCodes)
    (hp : (pinOfArg s.soc pin).val < s.soc.npins) (hmode : pinInMode s (pinOfArg s.soc pin) .input = true) :
    ∃ t, runTurns [.call (.getPinLevel pin), .host s.tasks.length] s = .next t ∧
      t.result = some (.level (envLevel s.gpio (pinOfArg s.soc pin))) := by
  rw [← padLevel_input hcodes (drawOf s) (pinInMode_iff.mp hmode)]
  exact runTurns_getPinLevel hg hu hp

end

/-- Settles O56: the write leaves every mode as it is, so the read that follows shows the latch written on an OUTPUT
pin, and the environment on an INPUT pin. -/
theorem pinLevelReadsBackOnOutputs : Obligations.PinLevelReadsBackOnOutputs := by
  intro s pin ⟨_, hmax, hcodes, hb, _⟩ hg hu n readBack
  have hp : (pinOfArg s.soc pin).val < s.soc.npins := pinOfArg_lt hmax (npins_pos hb) pin
  refine ⟨fun hmode => ⟨?high, ?low⟩, fun hmode => ?input⟩
  case high =>
    obtain ⟨t, hrun, hlevel⟩ := runTurns_getPinLevel_output
      (s := (s.setGpio (latchSet s.soc (pinOfArg s.soc pin) s.gpio)).setResult (some .ok)) hg hu hcodes hp hmode
    exact ⟨t, (runTurns_setPinHigh hg hu _).trans hrun,
      hlevel.trans (congrArg (some ∘ DriverResult.level) (outLatch_latchSet s.gpio hp))⟩
  case low =>
    obtain ⟨t, hrun, hlevel⟩ := runTurns_getPinLevel_output
      (s := (s.setGpio (latchCleared s.soc (pinOfArg s.soc pin) s.gpio)).setResult (some .ok)) hg hu hcodes hp hmode
    exact ⟨t, (runTurns_setPinLow hg hu _).trans hrun,
      hlevel.trans (congrArg (some ∘ DriverResult.level) (outLatch_latchCleared s.gpio hp))⟩
  case input =>
    obtain ⟨t, hrun, hlevel⟩ := runTurns_getPinLevel_input
      (s := (s.setGpio (latchSet s.soc (pinOfArg s.soc pin) s.gpio)).setResult (some .ok)) hg hu hcodes hp hmode
    have hpin : (pinOfArg s.soc pin).val = pin % s.soc.npins := pinOfArg_val hmax (npins_pos hb) pin
    exact ⟨t, (runTurns_setPinHigh hg hu _).trans hrun,
      hlevel.trans (congrArg (fun i => some (DriverResult.level (s.gpio.envIn.getLsbD i))) hpin)⟩

end Sys2Proof.Machine
end
